-- ==== Sys2Proof/Config.lean ====
section
/-!
DEFINITION. What an implementation fixes (R6 and the numbering of D5), and the free values: constants with no body,
applied to the counter `Chip.fresh`, of which nothing can be proved.
-/

namespace Sys2Proof

/-- `BYTE_W` (R6): width of a byte, of a memory cell and of every access. Fixed by the source. -/
abbrev Config.byteW : Nat := 8

/-- `MAX_RUN` (R6): the largest `count` of one run token. Fixed by the source. -/
abbrev Config.maxRun : Nat := 127

/-- The default of the parameter `XLEN` (R6, D1): the width the machine has at `State.reset`. The model takes `XLEN` as an
argument everywhere else (log entry 1). -/
abbrev Config.xlenDefault : Nat := 32

/-- The smallest `XLEN` (R6). -/
abbrev Config.xlenMin : Nat := 9

/-- The default of the parameter `ADDR_W` (R6, D2): the width the machine has at `State.reset` (log entry 1). -/
abbrev Config.addrWDefault : Nat := 32

/-- `ERR_W` (R6, D5). -/
abbrev Config.errW : Nat := 3

/-- `NULL_ADDR` (R6, R36, D3): the base that stands for the source's null buffer (log entry 2). -/
abbrev Config.nullAddr {addrW : Nat} : BitVec addrW := 0#addrW

/-- What a memory cell that nothing has written reads as. DESIGN CHOICE: the spec gives power-on memory no content
(log entry 4, unsafe). -/
abbrev Config.unlistedByte : BitVec 8 := 0#8

/-- The cause codes of `ERR` (R18, R107): the source's five failures and success. Six constructors (U13). -/
inductive Cause where
  | none
  | invalidArgument
  | invalidLength
  | invalidPayload
  | outputOverflow
  | truncatedStream
  deriving DecidableEq, Repr, Inhabited

/-- FREE VALUE: an `XLEN`-bit register after a reset step (R23, R121; log entry 5). -/
opaque Config.freeWord : (xlen : Nat) → Nat → BitVec xlen

/-- FREE VALUE: an `ADDR_W`-bit register after a reset step (R23, R121; log entry 5). -/
opaque Config.freeAddr : (addrW : Nat) → Nat → BitVec addrW

/-- FREE VALUE: a `cnt` register after a reset step (R23, R121; log entry 5). -/
opaque Config.freeCount : Nat → BitVec 7

/-- FREE VALUE: `cur` or `val` after a reset step (log entry 5), and a byte the contract leaves unspecified when it
is read (U1 to U4, U14; log entry 6). -/
opaque Config.freeByte : Nat → BitVec 8

/-- FREE VALUE: `ERR` after a reset step (R23, R121; log entry 5). -/
opaque Config.freeCause : Nat → Cause

/-- FREE VALUE: whether ENC (true) or DEC (false) moves next when both are busy and nothing is scheduled (R39: every
interleaving; log entry 7). -/
opaque Config.freeTurn : Nat → Bool

end Sys2Proof
end

