-- ==== Sys2Proof/Word.lean ====
section
/-!
DEFINITION. The word types of R6, the parameters `XLEN` and `ADDR_W` as arguments. The fixed widths are written as numerals
so that arithmetic decision procedures see them; `Sys2Proof.Tests.test_widths` holds them against `Config`.
-/

namespace Sys2Proof

/-- A byte: a memory cell, a token byte, `cur`, `val` (R6 `BYTE_W`). -/
abbrev Byte := BitVec 8

/-- An `XLEN`-bit quantity: `LEN`, `MAXLEN`, `RESULT`, `rd`, `wr`; read as two's complement where a rule says signed (R7). -/
abbrev Word (xlen : Nat) := BitVec xlen

/-- An `ADDR_W`-bit memory address (R26). -/
abbrev Addr (addrW : Nat) := BitVec addrW

/-- A group length or copy count: `cnt`, `count[6:0]` (R12, R13, R47). -/
abbrev Count := BitVec 7

end Sys2Proof
end

