-- ==== Sys2Proof/Syntax.lean ====
section
/-!
DEFINITION. The instructions: the two tokens of the encoded stream (R44 to R46), one constructor per row of
opcode_table.json.
-/

namespace Sys2Proof

/-- A token of the encoded stream. Every value of the fields has an encoding; the spec's grammar (R51) is a predicate
over them, in WellFormed.lean, since DEC also runs the tokens outside it (R52, R53, R92). -/
inductive Instr where
  /-- `LIT v` (R45): one literal byte, `v` its low seven bits. -/
  | lit (value : BitVec 7)
  /-- `RUN c, v` (R46): `c` copies of `v`; `c = 0` and `v ≥ 0x80` are outside the grammar. -/
  | run (count : Count) (value : Byte)
  deriving DecidableEq, Repr

end Sys2Proof
end

