-- ==== Sys2Proof/WellFormed.lean ====
section
/-!
DEFINITION. Well-formed tokens (R51): the checks a token must pass to stand in a well-formed stream. DEC makes none of
them (R92); they are the premise under which decisions D17 and D18 are never exercised.
-/

namespace Sys2Proof

/-- R51, R52: a run's `count` is 1 to 127, so its marker is not 0x80. -/
abbrev Instr.countOk : Instr → Bool
  | .lit _ => true
  | .run c _ => c != 0#7

/-- R51, R53: a run's value byte is below 0x80. -/
abbrev Instr.valueOk : Instr → Bool
  | .lit _ => true
  | .run _ v => !v.msb

/-- A token of the grammar (R51). -/
abbrev Instr.wellFormed (i : Instr) : Bool := i.countOk && i.valueOk

/-- A token that `compress` may emit (R48, R51, R72): well-formed, and a run counts at least 2. -/
abbrev Instr.emittable (i : Instr) : Bool :=
  i.wellFormed && match i with
    | .lit _ => true
    | .run c _ => decide (2 ≤ c.toNat)

end Sys2Proof
end

