-- ==== Sys2Proof/Decode.lean ====
section
/-!
DEFINITION. The token decoder, total on every byte list (R47, R49, R56), and the encoder (R45, R46, R48) written from
the same two format tables.
-/

namespace Sys2Proof

/-- Why a byte list starts with no token. -/
inductive Reject where
  /-- No byte at all. -/
  | empty
  /-- A marker with no following byte (R54): the only encoding-level failure (R55). -/
  | truncated
  deriving DecidableEq, Repr

/-- R47: `kind = t[7]`; set means a marker. -/
def isMarker (t : Byte) : Bool := t.msb

/-- R47: `t[6:0]`: the count of a marker (`byte & 0x7F`), the value of a literal. -/
def lowSeven (t : Byte) : BitVec 7 := t.setWidth 7

/-- R135: the byte a literal writes; all eight bits, bit 7 clear. -/
def literalByte (v : BitVec 7) : Byte := v.setWidth 8

/-- R48: `0x80 | count`. -/
def markerByte (c : Count) : Byte := 0x80#8 ||| c.setWidth 8

/-- The first token of a byte list and the bytes after it (R49, R50, R56). Bit 7 of a value byte is never looked at. -/
def decode : List Byte → Except Reject (Instr × List Byte)
  | [] => .error .empty
  | t :: rest =>
    match isMarker t, rest with
    | false, _ => .ok (.lit (lowSeven t), rest)
    | true, [] => .error .truncated
    | true, v :: rest' => .ok (.run (lowSeven t) v, rest')

/-- The bytes of a token, first (lowest address) first (R45, R46). -/
def encode : Instr → List Byte
  | .lit v => [literalByte v]
  | .run c v => [markerByte c, v]

/-- The bytes of a token list, in stream order (R44). -/
def encodeStream (is : List Instr) : List Byte := is.flatMap encode

/-- The two stream bytes that hold a table word: bit 0 of `w` is the least significant bit of the first byte, bits at
and above `nbits` are 0. -/
def tableBytes (nbits w : Nat) : List Byte :=
  [BitVec.ofNat 8 (w % 2 ^ nbits), BitVec.ofNat 8 (w % 2 ^ nbits / 256)]

/-- The token the decoder reads from a table word. -/
def decodeTableWord (nbits w : Nat) : Option Instr :=
  match decode (tableBytes nbits w) with
  | .ok (i, _) => some i
  | .error _ => none

end Sys2Proof
end

