-- ==== Sys2Proof/Machine/State.lean ====
section
/-!
DEFINITION. The state of the machine: the registers of ENC (R12) and DEC (R13), the memory (R26), the operand ports
(R14), and the model's own fields (what was last read, the contract-unspecified cells, the schedule, the free-value
counter), at any widths `XLEN` and `ADDR_W` (R6). Plain data.
-/

namespace Sys2Proof.Machine

/-- ENC's state names (R15). -/
inductive EncSt where
  | idle | check | validate | head | scan | emit | emitv | done
  deriving DecidableEq, Repr

/-- DEC's state names (R15). -/
inductive DecSt where
  | idle | check | fetch | value | expand | done
  deriving DecidableEq, Repr

/-- The registers of ENC (R12): exactly these. -/
structure Enc (xlen addrW : Nat) where
  /-- `st` -/
  st : EncSt
  /-- `BUF` -/
  buf : Addr addrW
  /-- `LEN` -/
  len : Word xlen
  /-- `rd` -/
  rd : Word xlen
  /-- `wr` -/
  wr : Word xlen
  /-- `cnt` -/
  cnt : Count
  /-- `cur` -/
  cur : Byte
  /-- `RESULT` -/
  result : Word xlen
  /-- `ERR` -/
  err : Cause
  deriving DecidableEq, Repr

/-- The registers of DEC (R13): exactly these. -/
structure Dec (xlen addrW : Nat) where
  /-- `st` -/
  st : DecSt
  /-- `DATA` -/
  data : Addr addrW
  /-- `LEN` -/
  len : Word xlen
  /-- `OUT` -/
  out : Addr addrW
  /-- `MAXLEN` -/
  maxLen : Word xlen
  /-- `rd`, the token program counter (R19) -/
  rd : Word xlen
  /-- `wr` -/
  wr : Word xlen
  /-- `cnt` -/
  cnt : Count
  /-- `val` -/
  val : Byte
  /-- `RESULT` -/
  result : Word xlen
  /-- `ERR` -/
  err : Cause
  deriving DecidableEq, Repr

/-- The operand input ports (R14): what the host drives there, latched by a start step. -/
structure Ports (xlen addrW : Nat) where
  /-- ENC's port `BUF` -/
  buf : Addr addrW
  /-- ENC's port `LEN` -/
  encLen : Word xlen
  /-- DEC's port `DATA` -/
  data : Addr addrW
  /-- DEC's port `LEN` -/
  decLen : Word xlen
  /-- DEC's port `OUT` -/
  out : Addr addrW
  /-- DEC's port `MAXLEN` -/
  maxLen : Word xlen
  deriving DecidableEq, Repr

/-- What the host last read (R22, R134). The model's own (log entry 13). -/
structure HostView (xlen : Nat) where
  /-- the last value read from a `RESULT` port -/
  result : Word xlen
  /-- the last value read from an `ERR` port -/
  err : Cause
  /-- the last byte loaded from memory -/
  byte : Byte
  deriving DecidableEq, Repr

/-- `size` consecutive cells from `base` (R27's buffer, as plain numbers). -/
structure Region where
  base : Nat
  size : Nat
  deriving DecidableEq, Repr

/-- One move of one agent (R10): the inputs and turns of a run. -/
inductive Move (xlen addrW : Nat) where
  /-- one transition of ENC (R74 to R79) -/
  | enc
  /-- one transition of DEC (R97 to R100) -/
  | dec
  /-- DEC runs the whole token at `rd` (R135, R136) with no other move between its transitions (log entry 8) -/
  | token
  /-- the host drives ENC's operand ports -/
  | driveEnc (buf : Addr addrW) (len : Word xlen)
  /-- the host drives DEC's operand ports -/
  | driveDec (data : Addr addrW) (len : Word xlen) (out : Addr addrW) (maxLen : Word xlen)
  /-- the host pulses ENC's `start` (R14) -/
  | startEnc
  /-- the host pulses DEC's `start` (R14) -/
  | startDec
  /-- ENC's reset input (R121) -/
  | resetEnc
  /-- DEC's reset input (R121) -/
  | resetDec
  /-- the host reads ENC's `RESULT` and `ERR` (R22) -/
  | readEnc
  /-- the host reads DEC's `RESULT` and `ERR` (R22) -/
  | readDec
  /-- the host or another memory agent writes one byte (R10) -/
  | store (addr : Addr addrW) (value : Byte)
  /-- the host reads one byte (R10, R22) -/
  | load (addr : Addr addrW)
  /-- another memory agent reads one byte (R10, R125) -/
  | agentLoad (addr : Addr addrW)
  deriving DecidableEq, Repr

/-- The memory `M` (R26): address and byte pairs, addresses strictly rising, no entry equal to what an unlisted address
reads as (the form is `Memory.wf`, in Ops.lean). -/
abbrev Memory := List Host.Cell

/-- Everything the spec gives a machine of widths `xlen` and `addrW`, and the model's own five last fields. -/
structure Chip (xlen addrW : Nat) where
  /-- ENC's registers -/
  enc : Enc xlen addrW
  /-- DEC's registers -/
  dec : Dec xlen addrW
  /-- the one address space `M` -/
  mem : Memory
  /-- the operand ports -/
  ports : Ports xlen addrW
  /-- what the host last read -/
  host : HostView xlen
  /-- the last byte that another memory agent loaded (log entry 13) -/
  agentByte : Byte
  /-- cells whose content the contract leaves unspecified (U1 to U4, U14; log entry 6) -/
  voids : List Region
  /-- the moves that come next, first first (log entry 7) -/
  schedule : List (Move xlen addrW)
  /-- the counter that the free values are applied to (log entry 5) -/
  fresh : Nat
  deriving DecidableEq, Repr

/-- A machine: its widths, `XLEN` and `ADDR_W`, which are arguments of the model (R6, U15) and which no step changes, and
what it holds (log entry 1). -/
structure State where
  /-- `XLEN` and `ADDR_W` -/
  {xlen addrW : Nat}
  /-- the registers, the memory and the rest -/
  chip : Chip xlen addrW
  deriving DecidableEq, Repr

/-- Why a step stops. -/
inductive Fault where
  /-- Raised by the moves `enc` and `dec` on an idle or finished block, which has no step but a start (R14, R118; log entry 9): a
  stuck state. Safe. -/
  | noStep
  /-- Raised by a token that is to run while DEC is not in `D_FETCH` (R98; log entry 17). Safe. -/
  | notAtToken
  /-- Raised by a start pulse on a busy block: the event cannot happen (R124, U12; log entry 10). Safe. -/
  | startWhileBusy
  /-- Raised by the host reading `RESULT` or `ERR` while `done = 0`: no value (R22, U9). Safe. -/
  | readBeforeDone
  /-- Raised by any agent writing a running operation's buffers, by the host reading them (R22, U11; log entry 12), and
  by another agent reading a cell the block writes: a data race with no defined outcome (R39, R125, U11). Safe. -/
  | race
  deriving DecidableEq, Repr

/-- What the model gives no meaning to. -/
inductive Refusal where
  /-- An instruction with no meaning yet: no arm of `exec` raises it. Safe. -/
  | notModelled (mnemonic : String)
  /-- Raised by a start pulse whose buffer wraps the address space (R27, D12). Safe. -/
  | bufferWraps
  /-- Raised by a DEC start pulse whose `data` and `output` share an address (R42, R128, D16). Safe. -/
  | buffersOverlap
  /-- Raised by a start pulse whose buffers meet those of the other block's running operation (R39, R128). Safe. -/
  | operationsOverlap
  deriving DecidableEq, Repr

/-- ENC right after reset: `st` as R23 says; the rest zero (DESIGN CHOICE, unsafe, log entry 3). -/
def Enc.reset (xlen addrW : Nat) : Enc xlen addrW :=
  { st := .idle, buf := 0#addrW, len := 0#xlen, rd := 0#xlen, wr := 0#xlen, cnt := 0#7, cur := 0#8, result := 0#xlen,
    err := .none }

/-- DEC right after reset: `st` as R23 says; the rest zero (DESIGN CHOICE, unsafe, log entry 3). -/
def Dec.reset (xlen addrW : Nat) : Dec xlen addrW :=
  { st := .idle, data := 0#addrW, len := 0#xlen, out := 0#addrW, maxLen := 0#xlen, rd := 0#xlen, wr := 0#xlen, cnt := 0#7,
    val := 0#8, result := 0#xlen, err := .none }

/-- A machine of any widths right after reset (R23). -/
def Chip.reset (xlen addrW : Nat) : Chip xlen addrW :=
  { enc := Enc.reset xlen addrW
    dec := Dec.reset xlen addrW
    mem := []
    ports := { buf := 0#addrW, encLen := 0#xlen, data := 0#addrW, decLen := 0#xlen, out := 0#addrW, maxLen := 0#xlen }
    host := { result := 0#xlen, err := .none, byte := 0#8 }
    agentByte := 0#8
    voids := []
    schedule := []
    fresh := 0 }

/-- The machine of the default widths right after reset (R23, R6). -/
def State.reset : State := { chip := Chip.reset Config.xlenDefault Config.addrWDefault }

end Sys2Proof.Machine
end

