-- ==== Sys2Proof/Machine/Operands.lean ====
section
/-!
DEFINITION. Operand forms: the one addressing mode (base register plus cursor, R27), the buffers as regions of addresses
(R28), and the one memory access of a transition (R29, R38).
-/

namespace Sys2Proof.Machine

variable {xlen addrW : Nat}

/-- Number of cells of the address space (R26): `2 ^ ADDR_W`. -/
abbrev addrSpace (addrW : Nat) : Nat := 2 ^ addrW

/-- R27: the address of element `i` of the buffer at `base`, `(base + zext(i)) mod 2^ADDR_W`. -/
def elementAddr (base : Addr addrW) (i : Nat) : Addr addrW := base + BitVec.ofNat addrW i

/-- `signed(v)` clipped below at 0: the number of elements of a buffer of signed size `v` (R105's `max(MAXLEN, 0)`). -/
def clipSize (v : Word xlen) : Nat := v.toInt.toNat

/-- The cells of a region. -/
def Region.contains (r : Region) (a : Nat) : Bool := decide (r.base ≤ a) && decide (a < r.base + r.size)

/-- R27, R129: the region runs past the end of the address space. -/
def Region.wraps (addrW : Nat) (r : Region) : Bool := decide (addrSpace addrW < r.base + r.size)

/-- The two regions share an address. -/
def Region.meets (r q : Region) : Bool :=
  decide (0 < r.size) && decide (0 < q.size) && decide (r.base < q.base + q.size) && decide (q.base < r.base + r.size)

/-- The cells of `r` that are not in `w`, as at most two regions. -/
def Region.minus (r w : Region) : List Region :=
  let left : Region := { base := r.base, size := min (r.base + r.size) w.base - r.base }
  let start := max r.base (w.base + w.size)
  let right : Region := { base := start, size := r.base + r.size - start }
  [left, right].filter (fun q => decide (0 < q.size))

/-- An address lies in one of the regions. -/
def inRegions (rs : List Region) (a : Nat) : Bool := rs.any (fun r => r.contains a)

/-- The buffer of `n` elements at `base` holds address `c` (R27), wrapping or not. -/
def inBuffer (base : Addr addrW) (n : Nat) (c : Addr addrW) : Bool := decide ((c - base).toNat < n)

/-- The operand checks of R74 pass: `BUF` is not null and `signed(LEN) > 0`. -/
def encOperandsOk (buf : Addr addrW) (len : Word xlen) : Bool :=
  decide (buf ≠ Config.nullAddr) && !(len.sle 0#xlen)

/-- The operand checks of R97 pass: `DATA` and `OUT` are not null and `signed(LEN) > 0`. -/
def decOperandsOk (data : Addr addrW) (len : Word xlen) (out : Addr addrW) : Bool :=
  decide (data ≠ Config.nullAddr) && decide (out ≠ Config.nullAddr) && !(len.sle 0#xlen)

/-- The addresses of `buffer[0, LEN)` that an operation with these operands may touch (R28); none when its operand
checks fail (R37; log entry 11). -/
def encRegion (buf : Addr addrW) (len : Word xlen) : Region :=
  { base := buf.toNat, size := if encOperandsOk buf len then clipSize len else 0 }

/-- The addresses of `data[0, LEN)` (R28); none when the operand checks fail. -/
def dataRegion (data : Addr addrW) (len : Word xlen) (out : Addr addrW) : Region :=
  { base := data.toNat, size := if decOperandsOk data len out then clipSize len else 0 }

/-- The addresses of `output[0, MAXLEN)` (R28); none when the operand checks fail. -/
def outRegion (data : Addr addrW) (len : Word xlen) (out : Addr addrW) (maxLen : Word xlen) : Region :=
  { base := out.toNat, size := if decOperandsOk data len out then clipSize maxLen else 0 }

/-- `buffer` of ENC's latched operands. -/
def Enc.buffer (e : Enc xlen addrW) : Region := encRegion e.buf e.len

/-- `data` of DEC's latched operands. -/
def Dec.dataBuffer (d : Dec xlen addrW) : Region := dataRegion d.data d.len d.out

/-- `output` of DEC's latched operands. -/
def Dec.outBuffer (d : Dec xlen addrW) : Region := outRegion d.data d.len d.out d.maxLen

/-- Address of the byte ENC reads next: `BUF + rd`. -/
def Enc.readAddr (e : Enc xlen addrW) : Addr addrW := elementAddr e.buf e.rd.toNat

/-- Address of the byte ENC writes next: `BUF + wr`. -/
def Enc.writeAddr (e : Enc xlen addrW) : Addr addrW := elementAddr e.buf e.wr.toNat

/-- Address of the stream byte DEC reads next: `DATA + rd`. -/
def Dec.readAddr (d : Dec xlen addrW) : Addr addrW := elementAddr d.data d.rd.toNat

/-- Address of the byte DEC writes next: `OUT + wr`. -/
def Dec.writeAddr (d : Dec xlen addrW) : Addr addrW := elementAddr d.out d.wr.toNat

/-- R94: no byte more fits: `signed(wr) >= signed(MAXLEN)`. -/
def Dec.full (d : Dec xlen addrW) : Bool := d.maxLen.sle d.wr

/-- The memory access of one transition: at most one, one byte wide (R29, R38). -/
inductive Access (addrW : Nat) where
  | nothing
  | read (addr : Addr addrW)
  | write (addr : Addr addrW) (value : Byte)
  deriving DecidableEq, Repr

end Sys2Proof.Machine
end

