-- ==== Sys2Proof/Machine/Flags.lean ====
section
/-!
DEFINITION. Status: the outputs `done` and `busy` (R16), the numbers of the cause codes (R18) and the sentinel that
each block returns for each cause (R107). The hardware has no other flag (R16).
-/

namespace Sys2Proof.Machine

variable {xlen addrW : Nat}

/-- R16: `done = 1` exactly when `st` is `E_DONE`. -/
def Enc.done (e : Enc xlen addrW) : Bool := decide (e.st = .done)

/-- R16: `busy = 1` exactly when `st` is neither `E_IDLE` nor `E_DONE`. -/
def Enc.busy (e : Enc xlen addrW) : Bool := decide (e.st ≠ .idle) && decide (e.st ≠ .done)

/-- R16: `done = 1` exactly when `st` is `D_DONE`. -/
def Dec.done (d : Dec xlen addrW) : Bool := decide (d.st = .done)

/-- R16: `busy = 1` exactly when `st` is neither `D_IDLE` nor `D_DONE`. -/
def Dec.busy (d : Dec xlen addrW) : Bool := decide (d.st ≠ .idle) && decide (d.st ≠ .done)

/-- R18, R107: the number of a cause in `ERR[2:0]`. -/
def causeCode : Cause → BitVec 3
  | .none => 0#3
  | .invalidArgument => 1#3
  | .invalidLength => 2#3
  | .invalidPayload => 3#3
  | .outputOverflow => 4#3
  | .truncatedStream => 5#3

/-- R107: what `compress` returns for a cause; 0 for the two operand failures, -1 for a bad payload byte. ENC raises no
other cause (log entry 21). -/
def encSentinel : Cause → Word xlen
  | .invalidArgument => 0#xlen
  | .invalidLength => 0#xlen
  | _ => -1#xlen

/-- R107: what `decompress` returns for a cause: -1 for every failure. -/
def decSentinel : Cause → Word xlen
  | _ => -1#xlen

end Sys2Proof.Machine
end

