-- ==== Sys2Proof/Machine/Ops.lean ====
section
/-!
DEFINITION. The named operations over memory and registers: `MemRead`, `MemWrite` (R34, R35) on the canonical memory,
`raise` (R112) and success, the unspecified cells of the contract, and the commit of one block's transition.
-/

namespace Sys2Proof.Machine

variable {xlen addrW : Nat}

/-- The canonical form, for the addresses from `lo` up. -/
def Memory.wfFrom (space : Nat) : Nat → Memory → Bool
  | _, [] => true
  | lo, (k, b) :: rest =>
    decide (lo ≤ k) && decide (k < space) && (b != Config.unlistedByte) && Memory.wfFrom space (k + 1) rest

/-- The canonical form: addresses inside the space and strictly rising, no entry equal to what an unlisted address
reads as. -/
def Memory.wf (addrW : Nat) (m : Memory) : Bool := Memory.wfFrom (addrSpace addrW) 0 m

/-- The content of cell `a`. -/
def Memory.read : Memory → Nat → Byte
  | [], _ => Config.unlistedByte
  | (k, b) :: rest, a => if k = a then b else Memory.read rest a

/-- Set cell `a`, keeping the canonical form. -/
def Memory.write : Memory → Nat → Byte → Memory
  | [], a, v => if v = Config.unlistedByte then [] else [(a, v)]
  | (k, b) :: rest, a, v =>
    if a < k then
      if v = Config.unlistedByte then (k, b) :: rest else (a, v) :: (k, b) :: rest
    else if a = k then
      if v = Config.unlistedByte then rest else (a, v) :: rest
    else (k, b) :: Memory.write rest a v

/-- `MemRead(addr, 1)` (R34). -/
def memRead (m : Memory) (addr : Addr addrW) : Byte := Memory.read m addr.toNat

/-- `MemWrite(addr, 1, v)` (R35). -/
def memWrite (m : Memory) (addr : Addr addrW) (v : Byte) : Memory := Memory.write m addr.toNat v

/-- The byte a transition's access brings in; a transition that reads nothing uses none. -/
def Access.fetch (m : Memory) : Access addrW → Byte
  | .read addr => memRead m addr
  | .write _ _ => 0#8
  | .nothing => 0#8

/-- The memory after a transition's access. -/
def Access.apply (m : Memory) : Access addrW → Memory
  | .write addr v => memWrite m addr v
  | .read _ => m
  | .nothing => m

/-- `raise <Cause>` in ENC (R112): `RESULT`, `ERR`, `st`, in one step, and nothing else. -/
def Enc.raise (cause : Cause) (e : Enc xlen addrW) : Enc xlen addrW :=
  { e with result := encSentinel cause, err := cause, st := .done }

/-- ENC ends in success: `RESULT <- n; ERR <- NONE; st <- E_DONE` (R78, R79). -/
def Enc.finish (n : Word xlen) (e : Enc xlen addrW) : Enc xlen addrW := { e with result := n, err := .none, st := .done }

/-- `raise <Cause>` in DEC (R112). -/
def Dec.raise (cause : Cause) (d : Dec xlen addrW) : Dec xlen addrW :=
  { d with result := decSentinel cause, err := cause, st := .done }

/-- DEC ends in success: `RESULT <- n; ERR <- NONE; st <- D_DONE` (R100). -/
def Dec.finish (n : Word xlen) (d : Dec xlen addrW) : Dec xlen addrW := { d with result := n, err := .none, st := .done }

/-- An operation that owned the writable region `w` has ended with `good` meaningful bytes at its front: the rest of
`w` is unspecified by the contract (R83, R105, R106, R121), the front is not. -/
def settleRegion (w : Region) (good : Nat) (voids : List Region) : List Region :=
  if w.size = 0 then voids
  else
    voids.flatMap (fun r => r.minus w)
      ++ [{ base := w.base + good, size := w.size - good : Region }].filter (fun r => decide (0 < r.size))

/-- The whole buffer of `n` elements at `base` becomes unspecified (R121), with the cells past the end of the address
space counted from 0 where it wraps (an operation whose operand checks fail is not refused for that). -/
def voidBuffer (base : Addr addrW) (n : Nat) (voids : List Region) : List Region :=
  settleRegion { base := 0, size := base.toNat + n - addrSpace addrW } 0
    (settleRegion { base := base.toNat, size := n } 0 voids)

/-- One cell has been given a value by an agent outside the blocks. -/
def settleCell (a : Nat) (voids : List Region) : List Region :=
  voids.flatMap (fun r => r.minus { base := a, size := 1 })

/-- The unspecified cells after ENC has reached `E_DONE`: the stale tail after a success (R83, U4), the whole buffer
after -1 (R84, U3), nothing after an operand failure. -/
def Enc.settle (e : Enc xlen addrW) (voids : List Region) : List Region :=
  match e.err with
  | .none => settleRegion e.buffer e.result.toNat voids
  | .invalidPayload => settleRegion e.buffer 0 voids
  | _ => voids

/-- The unspecified cells after DEC has reached `D_DONE`: `output` beyond the returned length after a success (R106,
U2), all of `output` after an overflow or a truncation (R105, U1), nothing after an operand failure. -/
def Dec.settle (d : Dec xlen addrW) (voids : List Region) : List Region :=
  match d.err with
  | .none => settleRegion d.outBuffer d.result.toNat voids
  | .outputOverflow => settleRegion d.outBuffer 0 voids
  | .truncatedStream => settleRegion d.outBuffer 0 voids
  | _ => voids

/-- ENC's transition takes effect in the machine; where it ends the operation, the unspecified cells are noted. -/
def Chip.commitEnc (s : Chip xlen addrW) (e : Enc xlen addrW) (m : Memory) : Chip xlen addrW :=
  { s with enc := e, mem := m, voids := if e.done then e.settle s.voids else s.voids }

/-- DEC's transition takes effect in the machine; where it ends the operation, the unspecified cells are noted. -/
def Chip.commitDec (s : Chip xlen addrW) (d : Dec xlen addrW) (m : Memory) : Chip xlen addrW :=
  { s with dec := d, mem := m, voids := if d.done then d.settle s.voids else s.voids }

end Sys2Proof.Machine
end

