-- ==== Sys2Proof/Machine/Decoder.lean ====
section
/-!
DEFINITION. DEC, the marker-expansion state machine (R96 to R100), as an access and the registers after it, like ENC.
-/

namespace Sys2Proof.Machine

variable {xlen addrW : Nat}

/-- R100: `D_EXPAND` has a copy left to write and room for it. -/
def Dec.writes (d : Dec xlen addrW) : Bool := decide (d.cnt ≠ 0#7) && !d.full

/-- The one memory access of DEC's transition in its state (the last column of R96's table). -/
def Dec.access (d : Dec xlen addrW) : Access addrW :=
  match d.st with
  | .idle => .nothing
  | .check => .nothing
  | .fetch => .read d.readAddr
  | .value => .read d.readAddr
  | .expand => if d.writes then .write d.writeAddr d.val else .nothing
  | .done => .nothing

/-- State `D_CHECK` (R97). -/
def decCheck (d : Dec xlen addrW) : Dec xlen addrW :=
  if d.data = Config.nullAddr ∨ d.out = Config.nullAddr then d.raise .invalidArgument
  else if d.len.sle 0#xlen then d.raise .invalidLength
  else { d with rd := 0#xlen, wr := 0#xlen, st := .fetch }

/-- State `D_FETCH` (R98); `t` is the byte at `rd`, the first byte of a token. -/
def decFetch (d : Dec xlen addrW) (t : Byte) : Dec xlen addrW :=
  if isMarker t then
    if d.rd + 1#xlen = d.len then { d with rd := d.rd + 1#xlen, cnt := lowSeven t }.raise .truncatedStream
    else { d with rd := d.rd + 1#xlen, cnt := lowSeven t, st := .value }
  else { d with rd := d.rd + 1#xlen, val := t, cnt := 1#7, st := .expand }

/-- State `D_VALUE` (R99); `v` is the byte at `rd`, taken whole. -/
def decValue (d : Dec xlen addrW) (v : Byte) : Dec xlen addrW := { d with val := v, rd := d.rd + 1#xlen, st := .expand }

/-- The token is finished (R100): the operation ends with `RESULT <- wr`, or the next token begins. -/
def Dec.close (d : Dec xlen addrW) : Dec xlen addrW :=
  if d.rd = d.len then d.finish d.wr else { d with st := .fetch }

/-- State `D_EXPAND` (R100). -/
def decExpand (d : Dec xlen addrW) : Dec xlen addrW :=
  if d.cnt = 0#7 then d.close
  else if d.full then d.raise .outputOverflow
  else { d with wr := d.wr + 1#xlen, cnt := d.cnt - 1#7 }

/-- DEC's registers after the transition of its state; an idle or finished block has none (R14) and keeps them. -/
def Dec.next (d : Dec xlen addrW) (b : Byte) : Dec xlen addrW :=
  match d.st with
  | .idle => d
  | .check => decCheck d
  | .fetch => decFetch d b
  | .value => decValue d b
  | .expand => decExpand d
  | .done => d

/-- One transition of DEC (R96): its registers and the memory after it. -/
def Dec.transition (d : Dec xlen addrW) (m : Memory) : Dec xlen addrW × Memory :=
  (d.next (d.access.fetch m), d.access.apply m)

/-- `n` transitions of DEC alone. -/
def Dec.run : Nat → Dec xlen addrW → Memory → Dec xlen addrW × Memory
  | 0, d, m => (d, m)
  | n + 1, d, m => Dec.run n (d.transition m).1 (d.transition m).2

/-- One transition of DEC in the machine; nothing where DEC has no step. -/
def decMove (s : Chip xlen addrW) : Chip xlen addrW :=
  if s.dec.busy then s.commitDec (s.dec.transition s.mem).1 (s.dec.transition s.mem).2 else s

end Sys2Proof.Machine
end

