-- ==== Sys2Proof/Machine/Token.lean ====
section
/-!
DEFINITION. The meanings of the two tokens, from the pseudocode of R135 and R136: the whole token, from `D_FETCH` to the
next `D_FETCH` or to `D_DONE`. The registers a failure leaves are those of the state machine (R108; log entry 19).
-/

namespace Sys2Proof.Machine

variable {xlen addrW : Nat}

/-- "repeat c times" of R136: write a copy of `v`, each after the capacity test of R94; when all are written the token
is closed (R100). -/
def Dec.copies (v : Byte) : Nat → Dec xlen addrW → Memory → Dec xlen addrW × Memory
  | 0, d, m => ({ d with cnt := 0#7 }.close, m)
  | n + 1, d, m =>
    if d.full then ({ d with cnt := BitVec.ofNat 7 (n + 1) }.raise .outputOverflow, m)
    else Dec.copies v n { d with wr := d.wr + 1#xlen } (memWrite m d.writeAddr v)

/-- `LIT v` on DEC's registers and the memory (R135): a run of one. -/
def Dec.litToken (v : BitVec 7) (d : Dec xlen addrW) (m : Memory) : Dec xlen addrW × Memory :=
  Dec.copies (literalByte v) 1 { d with rd := d.rd + 1#xlen, cnt := 1#7, val := literalByte v } m

/-- `RUN c, v` on DEC's registers and the memory (R136): truncation is tested before the value is taken and before
anything is written (R93). -/
def Dec.runToken (c : Count) (v : Byte) (d : Dec xlen addrW) (m : Memory) : Dec xlen addrW × Memory :=
  if d.rd + 1#xlen = d.len then ({ d with rd := d.rd + 1#xlen, cnt := c }.raise .truncatedStream, m)
  else Dec.copies v c.toNat { d with rd := d.rd + 2#xlen, cnt := c, val := v } m

/-- The meaning of `LIT v` (R135). -/
def execLit (v : BitVec 7) (s : State) : Host.Outcome State Fault Refusal :=
  if s.chip.dec.st = .fetch then
    .next ⟨s.chip.commitDec (s.chip.dec.litToken v s.chip.mem).1 (s.chip.dec.litToken v s.chip.mem).2⟩
  else .fault .notAtToken

/-- The meaning of `RUN c, v` (R136). -/
def execRun (c : Count) (v : Byte) (s : State) : Host.Outcome State Fault Refusal :=
  if s.chip.dec.st = .fetch then
    .next ⟨s.chip.commitDec (s.chip.dec.runToken c v s.chip.mem).1 (s.chip.dec.runToken c v s.chip.mem).2⟩
  else .fault .notAtToken

/-- The stream bytes at `rd` that a token may take: the second one only where the stream has it (R54: the byte at index
`LEN` is not read). -/
def Dec.window (d : Dec xlen addrW) (m : Memory) : List Byte :=
  memRead m d.readAddr
    :: (if d.rd + 1#xlen = d.len then [] else [memRead m (elementAddr d.data (d.rd + 1#xlen).toNat)])

end Sys2Proof.Machine
end

