-- ==== Sys2Proof/Machine/Encoder.lean ====
section
/-!
DEFINITION. ENC, the run-fold state machine (R73 to R79). A transition is an access (which cell is read, or written with
what) and the registers after it, given the byte read; each right-hand side reads the state before the step (R7).
-/

namespace Sys2Proof.Machine

variable {xlen addrW : Nat}

/-- R77: the group closes without looking at another byte: the input is exhausted or the cap is reached. -/
def Enc.groupClosed (e : Enc xlen addrW) : Bool := decide (e.rd = e.len) || decide (e.cnt = 127#7)

/-- R78: the group's first output byte: the literal itself, or the marker `0x80 | cnt`. -/
def Enc.firstByte (e : Enc xlen addrW) : Byte := if e.cnt = 1#7 then e.cur else markerByte e.cnt

/-- The one memory access of ENC's transition in its state (the last column of R73's table). -/
def Enc.access (e : Enc xlen addrW) : Access addrW :=
  match e.st with
  | .idle => .nothing
  | .check => .nothing
  | .validate => .read e.readAddr
  | .head => .read e.readAddr
  | .scan => if e.groupClosed then .nothing else .read e.readAddr
  | .emit => .write e.writeAddr e.firstByte
  | .emitv => .write e.writeAddr e.cur
  | .done => .nothing

/-- State `E_CHECK` (R74). -/
def encCheck (e : Enc xlen addrW) : Enc xlen addrW :=
  if e.buf = Config.nullAddr then e.raise .invalidArgument
  else if e.len.sle 0#xlen then e.raise .invalidLength
  else { e with rd := 0#xlen, st := .validate }

/-- State `E_VALIDATE` (R75); `b` is the byte at `rd`. -/
def encValidate (e : Enc xlen addrW) (b : Byte) : Enc xlen addrW :=
  if b.msb then e.raise .invalidPayload
  else if e.rd + 1#xlen = e.len then { e with rd := 0#xlen, wr := 0#xlen, st := .head }
  else { e with rd := e.rd + 1#xlen }

/-- State `E_HEAD` (R76); `b` is the byte at `rd`. -/
def encHead (e : Enc xlen addrW) (b : Byte) : Enc xlen addrW := { e with cur := b, cnt := 1#7, rd := e.rd + 1#xlen, st := .scan }

/-- State `E_SCAN` (R77); `b` is the byte at `rd` where one is read. -/
def encScan (e : Enc xlen addrW) (b : Byte) : Enc xlen addrW :=
  if e.groupClosed then { e with st := .emit }
  else if b = e.cur then { e with cnt := e.cnt + 1#7, rd := e.rd + 1#xlen }
  else { e with st := .emit }

/-- The last output byte of a group has been written: the operation ends, or the next group begins (R78, R79). -/
def encGroupDone (e : Enc xlen addrW) : Enc xlen addrW :=
  if e.rd = e.len then { e with wr := e.wr + 1#xlen }.finish (e.wr + 1#xlen)
  else { e with wr := e.wr + 1#xlen, st := .head }

/-- State `E_EMIT` (R78). -/
def encEmit (e : Enc xlen addrW) : Enc xlen addrW :=
  if e.cnt = 1#7 then encGroupDone e else { e with wr := e.wr + 1#xlen, st := .emitv }

/-- State `E_EMITV` (R79). -/
def encEmitv (e : Enc xlen addrW) : Enc xlen addrW := encGroupDone e

/-- ENC's registers after the transition of its state; an idle or finished block has none (R14) and keeps them. -/
def Enc.next (e : Enc xlen addrW) (b : Byte) : Enc xlen addrW :=
  match e.st with
  | .idle => e
  | .check => encCheck e
  | .validate => encValidate e b
  | .head => encHead e b
  | .scan => encScan e b
  | .emit => encEmit e
  | .emitv => encEmitv e
  | .done => e

/-- One transition of ENC (R73): its registers and the memory after it. -/
def Enc.transition (e : Enc xlen addrW) (m : Memory) : Enc xlen addrW × Memory :=
  (e.next (e.access.fetch m), e.access.apply m)

/-- `n` transitions of ENC alone. -/
def Enc.run : Nat → Enc xlen addrW → Memory → Enc xlen addrW × Memory
  | 0, e, m => (e, m)
  | n + 1, e, m => Enc.run n (e.transition m).1 (e.transition m).2

/-- One transition of ENC in the machine; nothing where ENC has no step. -/
def encMove (s : Chip xlen addrW) : Chip xlen addrW :=
  if s.enc.busy then s.commitEnc (s.enc.transition s.mem).1 (s.enc.transition s.mem).2 else s

end Sys2Proof.Machine
end

