-- ==== Sys2Proof/Machine/HostSide.lean ====
section
/-!
DEFINITION. The moves of the host and of other memory agents: driving ports, start (R14), reset (R121), reading `RESULT`
and `ERR` (R22), reading and writing memory (R10, R125), and the launch conditions that a model refuses (R27, R42, R39).
-/

namespace Sys2Proof.Machine

variable {xlen addrW : Nat}

/-- What a running ENC operation may touch; empty when ENC is not busy. -/
def Chip.encOwned (s : Chip xlen addrW) : List Region := if s.enc.busy then [s.enc.buffer] else []

/-- What a running DEC operation may write; empty when DEC is not busy. -/
def Chip.decOutOwned (s : Chip xlen addrW) : List Region := if s.dec.busy then [s.dec.outBuffer] else []

/-- What a running DEC operation may read; empty when DEC is not busy. -/
def Chip.decDataOwned (s : Chip xlen addrW) : List Region := if s.dec.busy then [s.dec.dataBuffer] else []

/-- Address `c` lies in a buffer that a running operation writes: `buffer[0, LEN)` or `output[0, MAXLEN)` as the operands
name them (R125). -/
def Chip.written (s : Chip xlen addrW) (c : Addr addrW) : Bool :=
  s.enc.busy && inBuffer s.enc.buf (clipSize s.enc.len) c
    || s.dec.busy && inBuffer s.dec.out (clipSize s.dec.maxLen) c

/-- Address `c` lies in a buffer of a running operation, `data[0, LEN)` among them: no other agent may write it (R125) and
the host may not read it (R22, U11; log entry 12). -/
def Chip.owned (s : Chip xlen addrW) (c : Addr addrW) : Bool :=
  s.written c || s.dec.busy && inBuffer s.dec.data (clipSize s.dec.len) c

/-- The host drives ENC's operand ports; no register changes (R14). -/
def moveDriveEnc (buf : Addr addrW) (len : Word xlen) (s : Chip xlen addrW) : Host.Outcome State Fault Refusal :=
  .next ⟨{ s with ports := { s.ports with buf := buf, encLen := len } }⟩

/-- The host drives DEC's operand ports; no register changes (R14). -/
def moveDriveDec (data : Addr addrW) (len : Word xlen) (out : Addr addrW) (maxLen : Word xlen) (s : Chip xlen addrW) :
    Host.Outcome State Fault Refusal :=
  .next ⟨{ s with ports := { s.ports with data := data, decLen := len, out := out, maxLen := maxLen } }⟩

/-- ENC's start step (R14): latch the ports, `st <- E_CHECK`, nothing else; refused where the buffer wraps (R27) or meets
a running DEC operation's buffers (R39). -/
def moveStartEnc (s : Chip xlen addrW) : Host.Outcome State Fault Refusal :=
  let r := encRegion s.ports.buf s.ports.encLen
  if s.enc.busy then .fault .startWhileBusy
  else if r.wraps addrW then .refused .bufferWraps
  else if (s.decOutOwned ++ s.decDataOwned).any (fun q => r.meets q) then .refused .operationsOverlap
  else .next ⟨{ s with enc := { s.enc with buf := s.ports.buf, len := s.ports.encLen, st := .check } }⟩

/-- DEC's start step (R14): latch the ports, `st <- D_CHECK`, nothing else; refused where a buffer wraps (R27), where
`data` meets `output` (R42), or where one of them meets a running ENC operation's buffer (R39). -/
def moveStartDec (s : Chip xlen addrW) : Host.Outcome State Fault Refusal :=
  let p := s.ports
  let rData := dataRegion p.data p.decLen p.out
  let rOut := outRegion p.data p.decLen p.out p.maxLen
  if s.dec.busy then .fault .startWhileBusy
  else if rData.wraps addrW || rOut.wraps addrW then .refused .bufferWraps
  else if rData.meets rOut then .refused .buffersOverlap
  else if s.encOwned.any (fun q => rData.meets q || rOut.meets q) then .refused .operationsOverlap
  else .next ⟨{ s with dec := { s.dec with data := p.data, len := p.decLen, out := p.out, maxLen := p.maxLen, st := .check } }⟩

/-- ENC after a reset step (R121): `st <- E_IDLE`, every other register unspecified: free values. -/
def Enc.afterReset (xlen addrW n : Nat) : Enc xlen addrW :=
  { st := .idle
    buf := Config.freeAddr addrW n
    len := Config.freeWord xlen n
    rd := Config.freeWord xlen (n + 1)
    wr := Config.freeWord xlen (n + 2)
    cnt := Config.freeCount n
    cur := Config.freeByte n
    result := Config.freeWord xlen (n + 3)
    err := Config.freeCause n }

/-- DEC after a reset step (R121): `st <- D_IDLE`, every other register unspecified: free values. -/
def Dec.afterReset (xlen addrW n : Nat) : Dec xlen addrW :=
  { st := .idle
    data := Config.freeAddr addrW n
    len := Config.freeWord xlen n
    out := Config.freeAddr addrW (n + 1)
    maxLen := Config.freeWord xlen (n + 1)
    rd := Config.freeWord xlen (n + 2)
    wr := Config.freeWord xlen (n + 3)
    cnt := Config.freeCount n
    val := Config.freeByte n
    result := Config.freeWord xlen (n + 4)
    err := Config.freeCause n }

/-- ENC's reset step (R121), enabled in every state; no memory access. An abandoned operation's `buffer[0, LEN)`
becomes unspecified (U14), whatever its operand checks would have said. -/
def moveResetEnc (s : Chip xlen addrW) : Host.Outcome State Fault Refusal :=
  .next ⟨{ s with
    enc := Enc.afterReset xlen addrW s.fresh
    voids := if s.enc.busy then voidBuffer s.enc.buf (clipSize s.enc.len) s.voids else s.voids
    fresh := s.fresh + 4 }⟩

/-- DEC's reset step (R121), enabled in every state; no memory access. An abandoned operation's
`output[0, max(MAXLEN, 0))` becomes unspecified (U14), whatever its operand checks would have said. -/
def moveResetDec (s : Chip xlen addrW) : Host.Outcome State Fault Refusal :=
  .next ⟨{ s with
    dec := Dec.afterReset xlen addrW s.fresh
    voids := if s.dec.busy then voidBuffer s.dec.out (clipSize s.dec.maxLen) s.voids else s.voids
    fresh := s.fresh + 5 }⟩

/-- The host reads ENC's `RESULT` and `ERR`: a value only while `done = 1` (R22). -/
def moveReadEnc (s : Chip xlen addrW) : Host.Outcome State Fault Refusal :=
  if s.enc.done then .next ⟨{ s with host := { s.host with result := s.enc.result, err := s.enc.err } }⟩
  else .fault .readBeforeDone

/-- The host reads DEC's `RESULT` and `ERR`: a value only while `done = 1` (R22). -/
def moveReadDec (s : Chip xlen addrW) : Host.Outcome State Fault Refusal :=
  if s.dec.done then .next ⟨{ s with host := { s.host with result := s.dec.result, err := s.dec.err } }⟩
  else .fault .readBeforeDone

/-- The host or another agent writes one byte; inside a running operation's buffers that is a race (R125). -/
def moveStore (addr : Addr addrW) (v : Byte) (s : Chip xlen addrW) : Host.Outcome State Fault Refusal :=
  if s.owned addr then .fault .race
  else .next ⟨{ s with mem := memWrite s.mem addr v, voids := settleCell addr.toNat s.voids }⟩

/-- The byte an agent outside the blocks gets from cell `addr`: its content (R34), or a free value where the contract
leaves the cell unspecified (U1 to U4, U14; log entry 6). -/
def Chip.loaded (addr : Addr addrW) (s : Chip xlen addrW) : Byte :=
  if inRegions s.voids addr.toNat then Config.freeByte s.fresh else memRead s.mem addr

/-- The counter after such a load: a free value has been used, or none. -/
def Chip.freshAfterLoad (addr : Addr addrW) (s : Chip xlen addrW) : Nat :=
  if inRegions s.voids addr.toNat then s.fresh + 1 else s.fresh

/-- The host reads one byte; inside a running operation's buffers that is a race (R22, U11). -/
def moveLoad (addr : Addr addrW) (s : Chip xlen addrW) : Host.Outcome State Fault Refusal :=
  if s.owned addr then .fault .race
  else .next ⟨{ s with host := { s.host with byte := s.loaded addr }, fresh := s.freshAfterLoad addr }⟩

/-- Another agent reads one byte; a cell that a running block writes is a race, its `data` is not (R125, R39). -/
def moveAgentLoad (addr : Addr addrW) (s : Chip xlen addrW) : Host.Outcome State Fault Refusal :=
  if s.written addr then .fault .race
  else .next ⟨{ s with agentByte := s.loaded addr, fresh := s.freshAfterLoad addr }⟩

end Sys2Proof.Machine
end

