-- ==== Sys2Proof/Machine/Moves.lean ====
section
/-!
DEFINITION. One move of one agent (R10), the machine running on when nothing is scheduled (R131), and how a token word is
placed where the next step runs it.
-/

namespace Sys2Proof.Machine

variable {xlen addrW : Nat}

/-- ENC's turn; an idle or finished block has no step (R14, R118). -/
def moveEnc (s : Chip xlen addrW) : Host.Outcome State Fault Refusal :=
  if s.enc.busy then .next ⟨encMove s⟩ else .fault .noStep

/-- DEC's turn for one transition; an idle or finished block has no step (R14, R118). -/
def moveDec (s : Chip xlen addrW) : Host.Outcome State Fault Refusal :=
  if s.dec.busy then .next ⟨decMove s⟩ else .fault .noStep

/-- DEC's turn for the whole token at `rd` (R135, R136). A marker that is the last byte of the stream is no whole token:
`D_FETCH` raises `TRUNCATED_STREAM` on it (R93, R98). -/
def moveToken (s : Chip xlen addrW) : Host.Outcome State Fault Refusal :=
  if s.dec.st = .fetch then
    match decode (s.dec.window s.mem) with
    | .ok (i, _) => exec i ⟨s⟩
    | .error _ => .next ⟨decMove s⟩
  else .fault .notAtToken

/-- One move. -/
def move (mv : Move xlen addrW) (s : Chip xlen addrW) : Host.Outcome State Fault Refusal :=
  match mv with
  | .enc => moveEnc s
  | .dec => moveDec s
  | .token => moveToken s
  | .driveEnc buf len => moveDriveEnc buf len s
  | .driveDec data len out maxLen => moveDriveDec data len out maxLen s
  | .startEnc => moveStartEnc s
  | .startDec => moveStartDec s
  | .resetEnc => moveResetEnc s
  | .resetDec => moveResetDec s
  | .readEnc => moveReadEnc s
  | .readDec => moveReadDec s
  | .store addr v => moveStore addr v s
  | .load addr => moveLoad addr s
  | .agentLoad addr => moveAgentLoad addr s

/-- Nothing is scheduled: a busy block takes its next transition (R131); when both are busy which one is a free choice
(R39); when none is, the machine waits for the host (log entry 9). -/
def freeRun (s : Chip xlen addrW) : Chip xlen addrW :=
  match s.enc.busy, s.dec.busy with
  | false, false => s
  | true, false => encMove s
  | false, true => decMove s
  | true, true =>
    if Config.freeTurn s.fresh then encMove { s with fresh := s.fresh + 1 }
    else decMove { s with fresh := s.fresh + 1 }

/-- Where `placeToken` puts the stream. -/
abbrev streamBase {addrW : Nat} : Addr addrW := BitVec.ofNat addrW 0x100

/-- Where `placeToken` puts the output buffer. -/
abbrev outputBase {addrW : Nat} : Addr addrW := BitVec.ofNat addrW 0x200

/-- DEC in `D_FETCH` at the first byte of a two-byte stream that holds the table word, with room in `output` for any
token, and the whole-token move next (log entry 16). It stands for the host's loads, start and operand check. -/
def placeToken (s : Chip xlen addrW) (nbits w : Nat) : Chip xlen addrW :=
  { s with
    dec := { s.dec with st := .fetch, data := streamBase, len := 2#xlen, out := outputBase, maxLen := 127#xlen, rd := 0#xlen, wr := 0#xlen }
    mem := (tableBytes nbits w).zipIdx.foldl (fun m p => memWrite m (elementAddr (addrW := addrW) streamBase p.2) p.1) s.mem
    schedule := .token :: s.schedule }

end Sys2Proof.Machine
end

