-- ==== Sys2Proof/Machine/Step.lean ====
section
/-! DEFINITION. One step: the next move of the schedule, or the machine running on where nothing is scheduled. -/

namespace Sys2Proof.Machine

/-- One step of the machine (R8, R10). -/
def step (s : State) : Host.Outcome State Fault Refusal :=
  match s.chip.schedule with
  | [] => .next ⟨freeRun s.chip⟩
  | mv :: rest => move mv { s.chip with schedule := rest }

/-- `s` with the table word placed so that the very next step runs it (log entry 16). -/
def State.withFetchWord (s : State) (nbits w : Nat) : State :=
  ⟨placeToken s.chip nbits w⟩

end Sys2Proof.Machine
end

