-- ==== Sys2Proof/Machine/Stream.lean ====
section
/-!
DEFINITION. The contract as functions on byte lists: the token grammar (R50, R51, R58), `validate` (R59), the groups and
the encoding (R68, R69), the decoding (R91), and the bytes of a buffer in memory (R27).
-/

namespace Sys2Proof.Machine

variable {addrW : Nat}

/-- The content of `n` cells from `base`, lowest address first (R27, R30). -/
def bytesAt (m : Memory) (base : Addr addrW) (n : Nat) : List Byte :=
  (List.range n).map (fun i => memRead m (elementAddr base i))

/-- `parse` (R50); `none` is `truncated`. -/
def parse : List Byte → Option (List Instr)
  | [] => some []
  | t :: rest =>
    if isMarker t then
      match rest with
      | [] => none
      | v :: rest' => (parse rest').map (fun is => .run (lowSeven t) v :: is)
    else (parse rest).map (fun is => .lit (lowSeven t) :: is)

/-- The bytes a token stands for (R58). -/
def expandToken : Instr → List Byte
  | .lit v => [literalByte v]
  | .run c v => List.replicate c.toNat v

/-- The expansion of a token list (R58). -/
def expand (is : List Instr) : List Byte := is.flatMap expandToken

/-- R51: the stream parses. -/
def parsable (t : List Byte) : Bool := (parse t).isSome

/-- R51: the stream parses into tokens of the grammar. -/
def wellFormedStream (t : List Byte) : Bool :=
  match parse t with
  | none => false
  | some is => is.all Instr.wellFormed

/-- `validate` (R59): every byte is below 0x80. -/
def validate (s : List Byte) : Bool := s.all (fun b => !b.msb)

/-- The loop of R59's pseudocode over memory, from index `i` on, `n` bytes left. -/
def validateAt (m : Memory) (data : Addr addrW) : Nat → Nat → Bool
  | _, 0 => true
  | i, n + 1 =>
    if (memRead m (elementAddr data i)).msb then false else validateAt m data (i + 1) n

/-- The groups of the input still to come, with a group of `n` bytes `cur` open (R67): the group grows while the next
byte is equal and the cap is not reached. -/
def groupsFrom (cur : Byte) (n : Nat) : List Byte → List (Nat × Byte)
  | [] => [(n, cur)]
  | b :: rest =>
    if b = cur ∧ n < Config.maxRun then groupsFrom cur (n + 1) rest
    else (n, cur) :: groupsFrom b 1 rest

/-- `groups` (R69): `(length, value)` pairs, greedy from the left, capped at 127. -/
def groups : List Byte → List (Nat × Byte)
  | [] => []
  | b :: rest => groupsFrom b 1 rest

/-- `tok(g, v)` (R68). -/
def groupBytes : Nat × Byte → List Byte
  | (g, v) => if g = 1 then [v] else [0x80#8 ||| BitVec.ofNat 8 g, v]

/-- `enc(s)` (R68), for a list of bytes below 0x80. -/
def rleEnc (s : List Byte) : List Byte := (groups s).flatMap groupBytes

/-- What `decompress` returns (R91): the bytes written, or the cause of the failure. -/
inductive DecResult where
  | ok (out : List Byte)
  | fail (cause : Cause)
  deriving DecidableEq, Repr

/-- `go` of R91: the stream still to come, and the bytes written so far. -/
def decGo (cap : Int) : List Byte → List Byte → DecResult
  | [], out => .ok out
  | b :: rest, out =>
    if isMarker b then
      match rest with
      | [] => .fail .truncatedStream
      | v :: rest' =>
        if 1 ≤ (lowSeven b).toNat ∧ cap < (out.length : Int) + ((lowSeven b).toNat : Int) then .fail .outputOverflow
        else decGo cap rest' (out ++ List.replicate (lowSeven b).toNat v)
    else if cap ≤ (out.length : Int) then .fail .outputOverflow
    else decGo cap rest (out ++ [b])

/-- `dec(t, cap)` (R91). -/
def rleDec (t : List Byte) (cap : Int) : DecResult := decGo cap t []

/-- R51: the stream is what `compress` produces for some input: well-formed, every run counts at least 2, and the tokens
are the greedy groups of their own expansion. -/
def canonical (t : List Byte) : Bool :=
  match parse t with
  | none => false
  | some is => is.all Instr.emittable && decide (rleEnc (expand is) = t)

/-- R82: ENC's transitions after the start step on an input that passes: `1 + LEN + Σ (g + 1 + min(g, 2))`. -/
def encSteps (s : List Byte) : Nat :=
  1 + s.length + ((groups s).map (fun p => p.1 + 1 + min p.1 2)).sum

/-- R135, R136: the transitions of one token that does not fail: 3 for a literal, `c + 3` for a run. -/
def tokenSteps : Instr → Nat
  | .lit _ => 3
  | .run c _ => c.toNat + 3

end Sys2Proof.Machine
end

