-- ==== Sys2Proof/Safety.lean ====
section
/-!
DEFINITION. The terms that claims use: a launched operation (R122, R123), the invariants of ENC (R20), of DEC (R21) and of
the whole machine, and what the host may rely on (R120, R125 to R127).
-/

namespace Sys2Proof.Machine

variable {xlen addrW : Nat}

/-- ENC's operands have passed `E_CHECK` and the buffer does not wrap (R20, R122, R129). -/
def Enc.Launched (e : Enc xlen addrW) : Prop :=
  e.buf ≠ Config.nullAddr ∧ 0 < e.len.toInt ∧ e.buf.toNat + e.len.toNat ≤ addrSpace addrW

/-- DEC's operands have passed `D_CHECK`, neither buffer wraps and they share no address (R21, R123, R128, R129). -/
def Dec.Launched (d : Dec xlen addrW) : Prop :=
  d.data ≠ Config.nullAddr ∧ d.out ≠ Config.nullAddr ∧ 0 < d.len.toInt
    ∧ d.data.toNat + d.len.toNat ≤ addrSpace addrW ∧ d.out.toNat + clipSize d.maxLen ≤ addrSpace addrW
    ∧ d.dataBuffer.meets d.outBuffer = false

/-- Element `i` of ENC's buffer as the memory holds it. -/
def Enc.cell (e : Enc xlen addrW) (m : Memory) (i : Nat) : Byte := memRead m (elementAddr e.buf i)

/-- Element `i` of DEC's stream as the memory holds it. -/
def Dec.cell (d : Dec xlen addrW) (m : Memory) (i : Nat) : Byte := memRead m (elementAddr d.data i)

/-- ENC's input that the encode pass has yet to read is below 0x80 (the validate pass has shown it, R48). -/
def Enc.RestValid (e : Enc xlen addrW) (m : Memory) : Prop :=
  ∀ i, e.rd.toNat ≤ i → i < e.len.toNat → (e.cell m i).msb = false

/-- A group is open (R20, states `E_SCAN` and `E_EMIT`): its length, its place, its bytes. -/
def Enc.GroupOpen (e : Enc xlen addrW) (m : Memory) : Prop :=
  1 ≤ e.cnt.toNat ∧ e.cnt.toNat ≤ e.rd.toNat ∧ e.rd.toNat ≤ e.len.toNat ∧ e.wr.toNat ≤ e.rd.toNat - e.cnt.toNat
    ∧ e.cur.msb = false ∧ (∀ i, e.rd.toNat - e.cnt.toNat ≤ i → i < e.rd.toNat → e.cell m i = e.cur) ∧ e.RestValid m

/-- What `RESULT` and `ERR` may hold when ENC is done (R17, R18, R107). -/
def Enc.Reported (e : Enc xlen addrW) : Prop :=
  (e.err = .none ∧ 1 ≤ e.result.toInt ∧ e.result.toInt ≤ e.len.toInt)
    ∨ (e.err = .invalidArgument ∧ e.result = 0#xlen) ∨ (e.err = .invalidLength ∧ e.result = 0#xlen)
    ∨ (e.err = .invalidPayload ∧ e.result = -1#xlen)

/-- What `RESULT` and `ERR` may hold when DEC is done (R17, R18, R107). -/
def Dec.Reported (d : Dec xlen addrW) : Prop :=
  (d.err = .none ∧ 0 ≤ d.result.toInt ∧ d.result.toInt ≤ max d.maxLen.toInt 0)
    ∨ (d.err ≠ .none ∧ d.err ≠ .invalidPayload ∧ d.result = -1#xlen)

/-- ENC's invariant, state by state (R20), on the memory as it stands. -/
def Enc.Inv (e : Enc xlen addrW) (m : Memory) : Prop :=
  match e.st with
  | .idle => True
  | .check => e.buffer.wraps addrW = false
  | .validate => e.Launched ∧ e.rd.toNat < e.len.toNat ∧ ∀ i, i < e.rd.toNat → (e.cell m i).msb = false
  | .head => e.Launched ∧ e.wr.toNat ≤ e.rd.toNat ∧ e.rd.toNat < e.len.toNat ∧ e.RestValid m
  | .scan => e.Launched ∧ e.GroupOpen m
  | .emit => e.Launched ∧ e.GroupOpen m
  | .emitv =>
    e.Launched ∧ 2 ≤ e.cnt.toNat ∧ e.cnt.toNat ≤ e.rd.toNat ∧ e.rd.toNat ≤ e.len.toNat
      ∧ 1 ≤ e.wr.toNat ∧ e.wr.toNat ≤ e.rd.toNat - e.cnt.toNat + 1 ∧ e.cur.msb = false ∧ e.RestValid m
  | .done => e.Reported

/-- DEC's write cursor is a count of bytes that fitted (R21). -/
def Dec.CursorOk (d : Dec xlen addrW) : Prop := 0 ≤ d.wr.toInt ∧ (0 < d.wr.toInt → d.wr.toInt ≤ d.maxLen.toInt)

/-- DEC's invariant, state by state (R21), on the memory as it stands. -/
def Dec.Inv (d : Dec xlen addrW) (m : Memory) : Prop :=
  match d.st with
  | .idle => True
  | .check =>
    d.dataBuffer.wraps addrW = false ∧ d.outBuffer.wraps addrW = false ∧ d.dataBuffer.meets d.outBuffer = false
  | .fetch => d.Launched ∧ d.CursorOk ∧ d.rd.toNat < d.len.toNat
  | .value =>
    d.Launched ∧ d.CursorOk ∧ 1 ≤ d.rd.toNat ∧ d.rd.toNat < d.len.toNat
      ∧ isMarker (d.cell m (d.rd.toNat - 1)) = true ∧ d.cnt = lowSeven (d.cell m (d.rd.toNat - 1))
  | .expand => d.Launched ∧ d.CursorOk ∧ 1 ≤ d.rd.toNat ∧ d.rd.toNat ≤ d.len.toNat
  | .done => d.Reported

/-- R21: `rd` stands on a token boundary of the stream (after the marker, in `D_VALUE`). -/
def Dec.OnBoundary (d : Dec xlen addrW) (m : Memory) : Prop :=
  match d.st with
  | .fetch => parsable (bytesAt m d.data d.rd.toNat) = true
  | .value => parsable (bytesAt m d.data (d.rd.toNat - 1)) = true
  | .expand => parsable (bytesAt m d.data d.rd.toNat) = true
  | .idle => True
  | .check => True
  | .done => True

/-- The operations that run share no address (R39). -/
def Chip.Apart (s : Chip xlen addrW) : Prop :=
  s.enc.busy = true → s.dec.busy = true →
    s.enc.buffer.meets s.dec.dataBuffer = false ∧ s.enc.buffer.meets s.dec.outBuffer = false

/-- The machine's invariant: canonical memory, both blocks' invariants, and running operations apart. -/
def Chip.Inv (s : Chip xlen addrW) : Prop :=
  s.mem.wf addrW = true ∧ s.enc.Inv s.mem ∧ s.dec.Inv s.mem ∧ s.Apart

/-- The machine's invariant with its widths: `XLEN` is at least 9 (R6). -/
def State.Inv (s : State) : Prop := Config.xlenMin ≤ s.xlen ∧ s.chip.Inv

/-- A sequence of turns, first first: true is one transition of ENC, false one of DEC (a block without a step keeps
still). An interleaving of R39. -/
def turns : List Bool → Chip xlen addrW → Chip xlen addrW
  | [], s => s
  | b :: bs, s => turns bs (if b then encMove s else decMove s)

/-- R22, R125, R126, R127: the host may read the cell and rely on what it reads. -/
def Chip.hostMayRead (s : Chip xlen addrW) (c : Addr addrW) : Bool := !s.owned c && !inRegions s.voids c.toNat

/-- R125: another agent may write the cell. -/
def Chip.hostMayWrite (s : Chip xlen addrW) (c : Addr addrW) : Bool := !s.owned c

/-- R120: what the host takes for success of ENC: `RESULT >= 1`. -/
def Enc.succeeded (e : Enc xlen addrW) : Bool := e.done && (1#xlen).sle e.result

/-- R120: what the host takes for success of DEC: `RESULT >= 0`. -/
def Dec.succeeded (d : Dec xlen addrW) : Bool := d.done && (0#xlen).sle d.result

end Sys2Proof.Machine
end

