-- ==== Sys2Proof/Certificates/Slice0/Obligations.lean ====
section
/-! DEFINITION. The statements for the provers, from the numbered rules of spec/. -/

open Sys2Proof Sys2Proof.Machine

/-! Reset -/

/-- R23: after reset both blocks are idle, neither done nor busy, at any widths; the machine's are the defaults of R6. -/
def Obligations.ResetLeavesBothBlocksIdle : Prop :=
  (∀ xlen addrW : Nat, let s := Chip.reset xlen addrW
    s.enc.st = .idle ∧ s.enc.done = false ∧ s.enc.busy = false ∧ s.dec.st = .idle ∧ s.dec.done = false ∧ s.dec.busy = false)
  ∧ State.reset = ⟨Chip.reset 32 32⟩

/-- The machine's invariant holds at reset. -/
def Obligations.ResetMeetsMachineInvariant : Prop := State.reset.Inv

/-- R121: a reset step is enabled in every state, makes the block idle, touches neither memory nor the other block nor the
ports, and leaves an abandoned operation's writable buffer unspecified, in every state of it (the list `voids`: log entry
6). -/
def Obligations.ResetMoveAbandonsTheOperation : Prop :=
  ∀ (xlen addrW : Nat) (s : Chip xlen addrW),
    (∃ t : Chip xlen addrW, move .resetEnc s = .next ⟨t⟩ ∧ t.enc.st = .idle ∧ t.enc.done = false ∧ t.enc.busy = false
      ∧ t.mem = s.mem ∧ t.dec = s.dec ∧ t.ports = s.ports ∧ t.host = s.host ∧ t.agentByte = s.agentByte
      ∧ t.schedule = s.schedule
      ∧ ∀ c : Addr addrW, inRegions t.voids c.toNat =
          (inRegions s.voids c.toNat || s.enc.busy && inBuffer s.enc.buf (clipSize s.enc.len) c))
    ∧ (∃ t : Chip xlen addrW, move .resetDec s = .next ⟨t⟩ ∧ t.dec.st = .idle ∧ t.dec.done = false ∧ t.dec.busy = false
      ∧ t.mem = s.mem ∧ t.enc = s.enc ∧ t.ports = s.ports ∧ t.host = s.host ∧ t.agentByte = s.agentByte
      ∧ t.schedule = s.schedule
      ∧ ∀ c : Addr addrW, inRegions t.voids c.toNat =
          (inRegions s.voids c.toNat || s.dec.busy && inBuffer s.dec.out (clipSize s.dec.maxLen) c))

/-! Encoding and grammar -/

/-- Words written out from R45, R46 and the table of 95 section 2.5, both tokens, at the ends of their fields. -/
def Obligations.TokenWordsDecodeAsTabled : Prop :=
  decode [0x00#8] = .ok (.lit 0#7, []) ∧ decode [0x41#8] = .ok (.lit 65#7, [])
    ∧ decode [0x7F#8, 0x80#8] = .ok (.lit 127#7, [0x80#8])
    ∧ decode [0x81#8, 0x41#8] = .ok (.run 1#7 0x41#8, []) ∧ decode [0xFF#8, 0x58#8] = .ok (.run 127#7 0x58#8, [])
    ∧ decode [0x80#8, 0x41#8] = .ok (.run 0#7 0x41#8, []) ∧ decode [0x82#8, 0x90#8, 0x00#8] = .ok (.run 2#7 0x90#8, [0x00#8])
    ∧ decodeTableWord 8 0x41 = some (.lit 65#7) ∧ decodeTableWord 16 0x4183 = some (.run 3#7 0x41#8)

/-- R56: the complete map of first bytes: below 128 a literal of one byte, from 128 up a run of two. -/
def Obligations.FirstByteSelectsToken : Prop :=
  ∀ (t : Byte) (rest : List Byte),
    (t.toNat < 128 → ∃ v : BitVec 7, v.toNat = t.toNat ∧ decode (t :: rest) = .ok (.lit v, rest))
    ∧ (128 ≤ t.toNat → ∀ v : Byte, ∃ c : Count, c.toNat = t.toNat - 128 ∧ decode (t :: v :: rest) = .ok (.run c v, rest))

/-- R55, R54: the decoder refuses no list but the empty one and a lone marker. -/
def Obligations.DecodeRefusesOnlyEmptyAndTruncated : Prop :=
  ∀ (bs : List Byte) (r : Reject),
    decode bs = .error r ↔ (bs = [] ∧ r = .empty) ∨ (∃ t : Byte, bs = [t] ∧ 128 ≤ t.toNat ∧ r = .truncated)

/-- Decode and encode agree, token by token, with every operand value, whatever follows. -/
def Obligations.DecodeOfEncodeIsToken : Prop :=
  ∀ (i : Instr) (rest : List Byte), decode (encode i ++ rest) = .ok (i, rest)

/-- Decode and encode agree on whole streams: parsing an encoded token list gives it back. -/
def Obligations.ParseOfEncodedStreamIsTokens : Prop :=
  ∀ is : List Instr, parse (encodeStream is) = some is

/-- No bit of a stream is dropped: encoding what a stream parses to gives the stream back. -/
def Obligations.EncodedParseIsStream : Prop :=
  ∀ (bs : List Byte) (is : List Instr), parse bs = some is → encodeStream is = bs

/-- R50: the four equations of `parse`. -/
def Obligations.ParseFollowsItsEquations : Prop :=
  parse [] = some []
    ∧ (∀ (t : Byte) (r : List Byte), t.toNat < 128 → parse (t :: r) = (parse r).map (fun is => .lit (t.setWidth 7) :: is))
    ∧ (∀ (t v : Byte) (r : List Byte), 128 ≤ t.toNat →
        parse (t :: v :: r) = (parse r).map (fun is => .run (BitVec.ofNat 7 (t.toNat % 128)) v :: is))
    ∧ ∀ t : Byte, 128 ≤ t.toNat → parse [t] = none

/-! The functions of the contract -/

/-- R59: `validate` is true iff every byte is below 128; the loop over memory computes it. -/
def Obligations.ValidateScansEveryByte : Prop :=
  ∀ (addrW : Nat) (m : Memory) (data : Addr addrW) (n : Nat),
    (validateAt m data 0 n = true ↔ ∀ i, i < n → (memRead m (elementAddr data i)).toNat < 128)
    ∧ validateAt m data 0 n = validate (bytesAt m data n)

/-- R69: the recursive definition of `groups`, and what the rule derives of it. -/
def Obligations.GroupsAreGreedyCappedRuns : Prop :=
  groups [] = []
    ∧ (∀ (v : Byte) (r : List Byte),
        let g := min ((v :: r).takeWhile (fun b => b == v)).length 127
        groups (v :: r) = (g, v) :: groups ((v :: r).drop g))
    ∧ ∀ s : List Byte,
        ((groups s).map Prod.fst).sum = s.length ∧ (∀ p ∈ groups s, 1 ≤ p.1 ∧ p.1 ≤ 127)
        ∧ (groups s).flatMap (fun p => List.replicate p.1 p.2) = s

/-- R71: a group of length 1 is a literal, a group of length `g` yields `min(g, 2)` bytes, the encoding never outgrows
the input, with equality exactly when every group has length 1 or 2, and is not empty where the input is not. -/
def Obligations.EncodingNeverGrows : Prop :=
  ∀ s : List Byte,
    (∀ p ∈ groups s, p.1 = 1 → groupBytes p = [p.2]) ∧ (∀ p ∈ groups s, (groupBytes p).length = min p.1 2)
    ∧ (rleEnc s).length ≤ s.length ∧ ((rleEnc s).length = s.length ↔ ∀ p ∈ groups s, p.1 ≤ 2)
    ∧ (1 ≤ s.length → 1 ≤ (rleEnc s).length)

/-- R72: what `compress` emits is canonical: every run counts 2 to 127 with a value below 128. -/
def Obligations.EncodingIsCanonical : Prop :=
  ∀ s : List Byte, (∀ b ∈ s, b.toNat < 128) →
    canonical (rleEnc s) = true ∧ wellFormedStream (rleEnc s) = true
    ∧ ∃ is, parse (rleEnc s) = some is ∧ expand is = s
      ∧ ∀ i ∈ is, (∃ v, i = .lit v) ∨ ∃ c v, i = .run c v ∧ 2 ≤ c.toNat ∧ v.toNat < 128

/-- R72, round trip: decoding an encoding into enough room gives the input back, and the encoding is no longer. -/
def Obligations.DecodingOfEncodingRoundTrips : Prop :=
  ∀ (s : List Byte) (cap : Int), (∀ b ∈ s, b.toNat < 128) → 1 ≤ s.length → (s.length : Int) ≤ cap →
    rleDec (rleEnc s) cap = .ok s ∧ (rleEnc s).length ≤ s.length

/-- R89, R58, R92: `decompress` succeeds exactly on the streams that parse and whose expansion fits, in the grammar or
not, and what it gives is the expansion. -/
def Obligations.DecodingSucceedsExactlyOnFittingStreams : Prop :=
  ∀ (t out : List Byte) (cap : Int),
    rleDec t cap = .ok out ↔ ∃ is, parse t = some is ∧ expand is = out ∧ (out = [] ∨ (out.length : Int) ≤ cap)

/-- R104: a success with no output is a stream of `RUN 0, v` only, and every such stream is one, whatever the capacity. -/
def Obligations.ZeroLengthOutputOnlyFromEmptyRuns : Prop :=
  (∀ (t : List Byte) (cap : Int), rleDec t cap = .ok [] →
      ∃ is, parse t = some is ∧ ∀ i ∈ is, ∃ v, i = Instr.run 0#7 v)
    ∧ ∀ (vs : List Byte) (cap : Int), rleDec (encodeStream (vs.map (Instr.run 0#7))) cap = .ok []

/-! ENC, state by state -/

/-- R74. -/
def Obligations.EncCheckTestsOperands : Prop :=
  ∀ (xlen addrW : Nat) (e : Enc xlen addrW) (m : Memory), e.st = .check →
    e.transition m =
      (if e.buf = 0#addrW then { e with result := 0#xlen, err := .invalidArgument, st := .done }
       else if e.len.toInt ≤ 0 then { e with result := 0#xlen, err := .invalidLength, st := .done }
       else { e with rd := 0#xlen, st := .validate }, m)

/-- R75. -/
def Obligations.EncValidateScansOneByte : Prop :=
  ∀ (xlen addrW : Nat) (e : Enc xlen addrW) (m : Memory), e.st = .validate →
    e.transition m =
      (if 128 ≤ (memRead m (elementAddr e.buf e.rd.toNat)).toNat then
         { e with result := -1#xlen, err := .invalidPayload, st := .done }
       else if e.rd + 1#xlen = e.len then { e with rd := 0#xlen, wr := 0#xlen, st := .head }
       else { e with rd := e.rd + 1#xlen }, m)

/-- R76. -/
def Obligations.EncHeadOpensGroup : Prop :=
  ∀ (xlen addrW : Nat) (e : Enc xlen addrW) (m : Memory), e.st = .head →
    e.transition m = ({ e with cur := memRead m (elementAddr e.buf e.rd.toNat), cnt := 1#7, rd := e.rd + 1#xlen, st := .scan }, m)

/-- R77. -/
def Obligations.EncScanExtendsOrClosesGroup : Prop :=
  ∀ (xlen addrW : Nat) (e : Enc xlen addrW) (m : Memory), e.st = .scan →
    e.transition m =
      (if e.rd = e.len ∨ e.cnt.toNat = 127 then { e with st := .emit }
       else if memRead m (elementAddr e.buf e.rd.toNat) = e.cur then { e with cnt := e.cnt + 1#7, rd := e.rd + 1#xlen }
       else { e with st := .emit }, m)

/-- R78, with its `wr <= rd - 1` in the states of R20. -/
def Obligations.EncEmitWritesLiteralOrMarker : Prop :=
  ∀ (xlen addrW : Nat) (e : Enc xlen addrW) (m : Memory), Config.xlenMin ≤ xlen → e.st = .emit →
    e.transition m =
      (if e.cnt.toNat = 1 then
        (if e.rd = e.len then { e with wr := e.wr + 1#xlen, result := e.wr + 1#xlen, err := .none, st := .done }
         else { e with wr := e.wr + 1#xlen, st := .head }, memWrite m (elementAddr e.buf e.wr.toNat) e.cur)
      else ({ e with wr := e.wr + 1#xlen, st := .emitv }, memWrite m (elementAddr e.buf e.wr.toNat) (0x80#8 ||| e.cnt.setWidth 8)))
    ∧ (e.Inv m → e.wr.toNat + 1 ≤ e.rd.toNat)

/-- R79. -/
def Obligations.EncEmitvWritesValue : Prop :=
  ∀ (xlen addrW : Nat) (e : Enc xlen addrW) (m : Memory), e.st = .emitv →
    e.transition m =
      (if e.rd = e.len then { e with wr := e.wr + 1#xlen, result := e.wr + 1#xlen, err := .none, st := .done }
       else { e with wr := e.wr + 1#xlen, st := .head }, memWrite m (elementAddr e.buf e.wr.toNat) e.cur)

/-! ENC, the whole operation -/

/-- R80, first half, R64 row 3, R84: a byte at or above 128 anywhere makes the operation fail with -1, memory unchanged
(this machine's outcome: R84, log entry 20). -/
def Obligations.CompressRejectsBadPayload : Prop :=
  ∀ (xlen addrW : Nat) (e : Enc xlen addrW) (m : Memory) (n : Nat), Config.xlenMin ≤ xlen → e.st = .check → e.Launched →
    (∃ i, i < e.len.toNat ∧ 128 ≤ (e.cell m i).toNat) → e.len.toNat + 1 ≤ n →
    (Enc.run n e m).1.st = .done ∧ (Enc.run n e m).1.result = -1#xlen ∧ (Enc.run n e m).1.err = .invalidPayload
      ∧ (Enc.run n e m).2 = m

/-- R80, second half, R65: the machine computes `enc`: the result is its length, the front of the buffer holds it, every
other cell keeps its content (the tail too: this machine's outcome, R83, log entry 20). -/
def Obligations.CompressWritesEncoding : Prop :=
  ∀ (xlen addrW : Nat) (e : Enc xlen addrW) (m : Memory), Config.xlenMin ≤ xlen → e.st = .check → e.Launched →
    m.wf addrW = true →
    (∀ b ∈ bytesAt m e.buf e.len.toNat, b.toNat < 128) →
    let s := bytesAt m e.buf e.len.toNat
    let r := Enc.run (encSteps s) e m
    r.1.st = .done ∧ r.1.result.toInt = ((rleEnc s).length : Int) ∧ r.1.err = .none
      ∧ bytesAt r.2 e.buf (rleEnc s).length = rleEnc s
      ∧ ∀ a : Addr addrW, (∀ i, i < (rleEnc s).length → a ≠ elementAddr e.buf i) → memRead r.2 a = memRead m a

/-- R82: a success takes exactly `2 + LEN + Σ (g + 1 + min(g, 2))` steps, the start step counted, at most
`4 * LEN + 2`, which is met exactly when every group is a singleton; failed operand checks take 2. -/
def Obligations.CompressTakesExactlyItsSteps : Prop :=
  (∀ (xlen addrW : Nat) (e : Enc xlen addrW) (m : Memory), e.st = .check → e.Launched → m.wf addrW = true →
    (∀ b ∈ bytesAt m e.buf e.len.toNat, b.toNat < 128) →
    let s := bytesAt m e.buf e.len.toNat
    (∀ n, (Enc.run n e m).1.st = .done ↔ encSteps s ≤ n) ∧ 1 + encSteps s ≤ 4 * e.len.toNat + 2
      ∧ (1 + encSteps s = 4 * e.len.toNat + 2 ↔ ∀ p ∈ groups s, p.1 = 1))
  ∧ (∀ (xlen addrW : Nat) (e : Enc xlen addrW) (m : Memory), e.st = .check → e.Launched →
    ∃ n, 1 + n ≤ 4 * e.len.toNat + 2 ∧ (Enc.run n e m).1.st = .done)
  ∧ ∀ (xlen addrW : Nat) (e : Enc xlen addrW) (m : Memory), e.st = .check → (e.buf = 0#addrW ∨ e.len.toInt ≤ 0) →
    (Enc.run 1 e m).1.st = .done

/-- R20: every transition of ENC keeps its invariant. -/
def Obligations.EncInvariantIsKept : Prop :=
  ∀ (xlen addrW : Nat) (e : Enc xlen addrW) (m : Memory), Config.xlenMin ≤ xlen → m.wf addrW = true → e.Inv m →
    (e.transition m).1.Inv (e.transition m).2

/-- R37, R41: ENC reads only inside `buffer[0, LEN)` and writes only below its read cursor. -/
def Obligations.EncAccessesStayInBounds : Prop :=
  ∀ (xlen addrW : Nat) (e : Enc xlen addrW) (m : Memory), Config.xlenMin ≤ xlen → e.Inv m →
    (∀ a, e.access = .read a → ∃ i, i < e.len.toNat ∧ a = elementAddr e.buf i)
    ∧ ∀ a v, e.access = .write a v → ∃ i, i < e.rd.toNat ∧ i < e.len.toNat ∧ a = elementAddr e.buf i

/-- R48: ENC emits literals and value bytes below 128, and markers `0x80 | cnt` from 0x82 to 0xFF only. -/
def Obligations.EncWritesOnlyGrammarBytes : Prop :=
  ∀ (xlen addrW : Nat) (e : Enc xlen addrW) (m : Memory) (a : Addr addrW) (v : Byte), Config.xlenMin ≤ xlen → e.Inv m →
    e.access = .write a v →
    (e.st = .emit ∧ e.cnt.toNat = 1 ∧ v = e.cur ∧ v.toNat < 128)
    ∨ (e.st = .emit ∧ v.toNat = 128 + e.cnt.toNat ∧ 0x82 ≤ v.toNat ∧ v.toNat ≤ 0xFF)
    ∨ (e.st = .emitv ∧ v = e.cur ∧ v.toNat < 128)

/-- R11, R66: what earlier operations left in ENC's registers changes nothing: state, memory and report agree at every
point of the operation. -/
def Obligations.EncForgetsEarlierOperations : Prop :=
  ∀ (xlen addrW : Nat) (e₁ e₂ : Enc xlen addrW) (m : Memory) (n : Nat), e₁.st = .check → e₂.st = .check → e₁.buf = e₂.buf →
    e₁.len = e₂.len →
    (Enc.run n e₁ m).1.st = (Enc.run n e₂ m).1.st ∧ (Enc.run n e₁ m).2 = (Enc.run n e₂ m).2
    ∧ ((Enc.run n e₁ m).1.st = .done →
        (Enc.run n e₁ m).1.result = (Enc.run n e₂ m).1.result ∧ (Enc.run n e₁ m).1.err = (Enc.run n e₂ m).1.err)

/-! DEC, state by state -/

/-- R97. -/
def Obligations.DecCheckTestsOperands : Prop :=
  ∀ (xlen addrW : Nat) (d : Dec xlen addrW) (m : Memory), d.st = .check →
    d.transition m =
      (if d.data = 0#addrW ∨ d.out = 0#addrW then { d with result := -1#xlen, err := .invalidArgument, st := .done }
       else if d.len.toInt ≤ 0 then { d with result := -1#xlen, err := .invalidLength, st := .done }
       else { d with rd := 0#xlen, wr := 0#xlen, st := .fetch }, m)

/-- R98. -/
def Obligations.DecFetchClassifiesFirstByte : Prop :=
  ∀ (xlen addrW : Nat) (d : Dec xlen addrW) (m : Memory), d.st = .fetch →
    let t := memRead m (elementAddr d.data d.rd.toNat)
    d.transition m =
      (if t.toNat < 128 then { d with rd := d.rd + 1#xlen, val := t, cnt := 1#7, st := .expand }
       else if d.rd + 1#xlen = d.len then
         { d with rd := d.rd + 1#xlen, cnt := BitVec.ofNat 7 (t.toNat % 128), result := -1#xlen, err := .truncatedStream, st := .done }
       else { d with rd := d.rd + 1#xlen, cnt := BitVec.ofNat 7 (t.toNat % 128), st := .value }, m)

/-- R99. -/
def Obligations.DecValueTakesWholeByte : Prop :=
  ∀ (xlen addrW : Nat) (d : Dec xlen addrW) (m : Memory), d.st = .value →
    d.transition m = ({ d with val := memRead m (elementAddr d.data d.rd.toNat), rd := d.rd + 1#xlen, st := .expand }, m)

/-- R100; `wr` stays a count of bytes that fit, and `cnt` never goes below 0. -/
def Obligations.DecExpandWritesOrCloses : Prop :=
  ∀ (xlen addrW : Nat) (d : Dec xlen addrW) (m : Memory), Config.xlenMin ≤ xlen → d.st = .expand →
    d.transition m =
      (if d.cnt.toNat = 0 then
        (if d.rd = d.len then { d with result := d.wr, err := .none, st := .done } else { d with st := .fetch }, m)
      else if d.maxLen.toInt ≤ d.wr.toInt then ({ d with result := -1#xlen, err := .outputOverflow, st := .done }, m)
      else ({ d with wr := d.wr + 1#xlen, cnt := d.cnt - 1#7 }, memWrite m (elementAddr d.out d.wr.toNat) d.val))
    ∧ (d.CursorOk → (d.transition m).1.CursorOk) ∧ (d.transition m).1.cnt.toNat ≤ d.cnt.toNat

/-! The tokens -/

/-- R135: where a byte fits, `LIT v` runs: it writes `v`, advances both cursors by 1, and ends the operation with success
where it was the last token. -/
def Obligations.LitTokenCopiesItsByte : Prop :=
  ∀ (xlen addrW : Nat) (v : BitVec 7) (s : Chip xlen addrW), s.dec.st = .fetch → s.dec.wr.toInt < s.dec.maxLen.toInt →
    ∃ t : Chip xlen addrW, exec (.lit v) ⟨s⟩ = .next ⟨t⟩
      ∧ t.mem = memWrite s.mem (elementAddr s.dec.out s.dec.wr.toNat) (v.setWidth 8)
      ∧ t.dec.rd = s.dec.rd + 1#xlen ∧ t.dec.wr = s.dec.wr + 1#xlen ∧ t.dec.cnt = 0#7 ∧ t.dec.val = v.setWidth 8
      ∧ (s.dec.rd + 1#xlen = s.dec.len → t.dec.st = .done ∧ t.dec.result = s.dec.wr + 1#xlen ∧ t.dec.err = .none)
      ∧ (s.dec.rd + 1#xlen ≠ s.dec.len → t.dec.st = .fetch ∧ t.dec.result = s.dec.result ∧ t.dec.err = s.dec.err)

/-- R135, R94, R112: where no byte fits, `LIT v` raises `OUTPUT_OVERFLOW` and writes nothing. -/
def Obligations.LitTokenOverflows : Prop :=
  ∀ (xlen addrW : Nat) (v : BitVec 7) (s : Chip xlen addrW), s.dec.st = .fetch → s.dec.maxLen.toInt ≤ s.dec.wr.toInt →
    ∃ t : Chip xlen addrW, exec (.lit v) ⟨s⟩ = .next ⟨t⟩ ∧ t.dec.st = .done ∧ t.dec.result = -1#xlen
      ∧ t.dec.err = .outputOverflow
      ∧ t.dec.wr = s.dec.wr ∧ t.mem = s.mem

/-- R136: a run whose value byte is in the stream and whose copies fit runs: it writes `c` copies of `v`, advances `rd`
by 2 and `wr` by `c`, and ends the operation with success where it was the last token; a run of no copies always fits. -/
def Obligations.RunTokenWritesItsCopies : Prop :=
  ∀ (xlen addrW : Nat) (c : Count) (v : Byte) (s : Chip xlen addrW), s.dec.st = .fetch → s.dec.rd + 1#xlen ≠ s.dec.len →
    s.mem.wf addrW = true →
    Config.xlenMin ≤ xlen → (c.toNat = 0 ∨ s.dec.wr.toInt + (c.toNat : Int) ≤ s.dec.maxLen.toInt) →
    ∃ t : Chip xlen addrW, exec (.run c v) ⟨s⟩ = .next ⟨t⟩ ∧ t.dec.rd = s.dec.rd + 2#xlen
      ∧ t.dec.wr = s.dec.wr + c.setWidth xlen ∧ t.dec.cnt = 0#7
      ∧ t.dec.val = v
      ∧ (∀ k, k < c.toNat → memRead t.mem (elementAddr s.dec.out (s.dec.wr + BitVec.ofNat xlen k).toNat) = v)
      ∧ (c.toNat = 0 → t.mem = s.mem)
      ∧ (s.dec.rd + 2#xlen = s.dec.len → t.dec.st = .done ∧ t.dec.result = s.dec.wr + c.setWidth xlen ∧ t.dec.err = .none)
      ∧ (s.dec.rd + 2#xlen ≠ s.dec.len → t.dec.st = .fetch ∧ t.dec.result = s.dec.result ∧ t.dec.err = s.dec.err)

/-- R136, R94: a run that does not fit is written up to the capacity and then raises `OUTPUT_OVERFLOW` (what `output` holds
then is this machine's outcome: R105, log entry 20). -/
def Obligations.RunTokenOverflowsAtCapacity : Prop :=
  ∀ (xlen addrW : Nat) (c : Count) (v : Byte) (s : Chip xlen addrW), s.dec.st = .fetch → s.dec.rd + 1#xlen ≠ s.dec.len →
    s.mem.wf addrW = true →
    Config.xlenMin ≤ xlen → 1 ≤ c.toNat → s.dec.maxLen.toInt < s.dec.wr.toInt + (c.toNat : Int) →
    let fit := (s.dec.maxLen.toInt - s.dec.wr.toInt).toNat
    ∃ t : Chip xlen addrW, exec (.run c v) ⟨s⟩ = .next ⟨t⟩ ∧ t.dec.st = .done ∧ t.dec.result = -1#xlen
      ∧ t.dec.err = .outputOverflow
      ∧ t.dec.wr = s.dec.wr + BitVec.ofNat xlen fit
      ∧ (∀ k, k < fit → memRead t.mem (elementAddr s.dec.out (s.dec.wr + BitVec.ofNat xlen k).toNat) = v)
      ∧ ∀ a : Addr addrW, (∀ k, k < fit → a ≠ elementAddr s.dec.out (s.dec.wr + BitVec.ofNat xlen k).toNat) →
          memRead t.mem a = memRead s.mem a

/-- R93, R136: a marker that is the last byte of the stream raises `TRUNCATED_STREAM`, whatever its count, and nothing is
written; so does the scheduled step that would run it (the move `token`: log entry 8). -/
def Obligations.RunTokenTruncated : Prop :=
  (∀ (xlen addrW : Nat) (c : Count) (v : Byte) (s : Chip xlen addrW), s.dec.st = .fetch → s.dec.rd + 1#xlen = s.dec.len →
    ∃ t : Chip xlen addrW, exec (.run c v) ⟨s⟩ = .next ⟨t⟩ ∧ t.dec.st = .done ∧ t.dec.result = -1#xlen
      ∧ t.dec.err = .truncatedStream
      ∧ t.dec.wr = s.dec.wr ∧ t.mem = s.mem)
  ∧ ∀ (xlen addrW : Nat) (s : Chip xlen addrW) (rest : List (Move xlen addrW)), s.schedule = .token :: rest →
    s.dec.st = .fetch → s.dec.rd + 1#xlen = s.dec.len →
      128 ≤ (memRead s.mem (elementAddr s.dec.data s.dec.rd.toNat)).toNat →
      ∃ t : Chip xlen addrW, step ⟨s⟩ = .next ⟨t⟩ ∧ t.dec.st = .done ∧ t.dec.result = -1#xlen ∧ t.dec.err = .truncatedStream
        ∧ t.dec.wr = s.dec.wr ∧ t.mem = s.mem ∧ t.enc = s.enc ∧ t.schedule = rest

/-- The frame of both tokens: everything but DEC's working registers and the stored bytes is unchanged; `RESULT`, `ERR`
and the unspecified cells too unless the operation ended. -/
def Obligations.TokensChangeNothingElse : Prop :=
  ∀ (xlen addrW : Nat) (i : Instr) (s : Chip xlen addrW) (u : State), exec i ⟨s⟩ = .next u →
    ∃ t : Chip xlen addrW, u = ⟨t⟩ ∧ t.enc = s.enc ∧ t.ports = s.ports ∧ t.host = s.host ∧ t.agentByte = s.agentByte
      ∧ t.schedule = s.schedule ∧ t.fresh = s.fresh
      ∧ t.dec.data = s.dec.data ∧ t.dec.len = s.dec.len ∧ t.dec.out = s.dec.out ∧ t.dec.maxLen = s.dec.maxLen
      ∧ (t.dec.st ≠ .done → t.dec.result = s.dec.result ∧ t.dec.err = s.dec.err ∧ t.voids = s.voids)
      ∧ (∀ v, i = .lit v → ∀ c, c ≠ elementAddr s.dec.out s.dec.wr.toNat → memRead t.mem c = memRead s.mem c)
      ∧ ∀ n v, i = .run n v →
          ∀ c, (∀ k, k < n.toNat → c ≠ elementAddr s.dec.out (s.dec.wr + BitVec.ofNat xlen k).toNat) →
            memRead t.mem c = memRead s.mem c

/-- Every token completes from `D_FETCH`, and only from there (R98, R107: no other stop; log entry 17). -/
def Obligations.TokensCompleteFromFetch : Prop :=
  ∀ (xlen addrW : Nat) (i : Instr) (s : Chip xlen addrW),
    (s.dec.st = .fetch → ∃ t : Chip xlen addrW, exec i ⟨s⟩ = .next ⟨t⟩ ∧ (t.dec.st = .fetch ∨ t.dec.st = .done))
    ∧ (s.dec.st ≠ .fetch → exec i ⟨s⟩ = .fault .notAtToken)

/-- R135, R136, "In the machine": the whole token is its transitions of R98 to R100: 3 for a literal, `c + 3` for a run
(log entry 8). -/
def Obligations.TokenEqualsItsTransitions : Prop :=
  ∀ (xlen addrW : Nat) (i : Instr) (s : Chip xlen addrW) (more : List Byte),
    s.dec.st = .fetch → decode (s.dec.window s.mem) = .ok (i, more) →
    exec i ⟨s⟩ = .next ⟨decMove^[tokenSteps i] s⟩

/-- A step runs the decoded token: when the stream's bytes at `rd` decode to `i`, the scheduled token step is `exec` of
`i` on the state with that move taken off the schedule (the move `token`: log entry 8). -/
def Obligations.StepRunsDecodedToken : Prop :=
  ∀ (xlen addrW : Nat) (s : Chip xlen addrW) (rest : List (Move xlen addrW)) (i : Instr) (more : List Byte),
    s.schedule = .token :: rest → s.dec.st = .fetch →
    decode (memRead s.mem (elementAddr s.dec.data s.dec.rd.toNat)
      :: if s.dec.rd + 1#xlen = s.dec.len then [] else [memRead s.mem (elementAddr s.dec.data (s.dec.rd + 1#xlen).toNat)]) = .ok (i, more) →
    step ⟨s⟩ = exec i ⟨{ s with schedule := rest }⟩

/-! DEC, the whole operation -/

/-- R101: the machine computes `dec`: on success the length and the bytes, on failure -1 and the cause; no cell outside
the written output (on success: R106's machine outcome, log entry 20) or `output` (on failure) changes. -/
def Obligations.DecompressComputesDecoding : Prop :=
  ∀ (xlen addrW : Nat) (d : Dec xlen addrW) (m : Memory) (n : Nat), Config.xlenMin ≤ xlen → d.st = .check → d.Launched →
    m.wf addrW = true →
    (∀ out, rleDec (bytesAt m d.data d.len.toNat) d.maxLen.toInt = .ok out → 1 + 2 * d.len.toNat + out.length ≤ n →
      (Dec.run n d m).1.st = .done ∧ (Dec.run n d m).1.result.toInt = (out.length : Int) ∧ (Dec.run n d m).1.err = .none
      ∧ bytesAt (Dec.run n d m).2 d.out out.length = out
      ∧ ∀ a : Addr addrW, (∀ i, i < out.length → a ≠ elementAddr d.out i) →
          memRead (Dec.run n d m).2 a = memRead m a)
    ∧ (∀ c, rleDec (bytesAt m d.data d.len.toNat) d.maxLen.toInt = .fail c → 1 + 2 * d.len.toNat + clipSize d.maxLen ≤ n →
      (Dec.run n d m).1.st = .done ∧ (Dec.run n d m).1.result = -1#xlen ∧ (Dec.run n d m).1.err = c
      ∧ ∀ a : Addr addrW, (∀ i, i < clipSize d.maxLen → a ≠ elementAddr d.out i) →
          memRead (Dec.run n d m).2 a = memRead m a)

/-- R103: the operation ends after at most `2 + 2 * LEN + P` steps, the start step counted, `P` the bytes written,
`P ≤ max(MAXLEN, 0)` and `P ≤ 127 * LEN`; failed operand checks take 2. -/
def Obligations.DecompressEndsWithinItsBound : Prop :=
  (∀ (xlen addrW : Nat) (d : Dec xlen addrW) (m : Memory), d.st = .check → d.Launched → m.wf addrW = true →
    ∃ n, (Dec.run n d m).1.st = .done ∧ 1 + n ≤ 2 + 2 * d.len.toNat + (Dec.run n d m).1.wr.toNat
      ∧ (Dec.run n d m).1.wr.toNat ≤ clipSize d.maxLen ∧ (Dec.run n d m).1.wr.toNat ≤ 127 * d.len.toNat)
  ∧ ∀ (xlen addrW : Nat) (d : Dec xlen addrW) (m : Memory), d.st = .check →
    (d.data = 0#addrW ∨ d.out = 0#addrW ∨ d.len.toInt ≤ 0) →
      (Dec.run 1 d m).1.st = .done

/-- R21: every transition of DEC keeps its invariant. -/
def Obligations.DecInvariantIsKept : Prop :=
  ∀ (xlen addrW : Nat) (d : Dec xlen addrW) (m : Memory), Config.xlenMin ≤ xlen → m.wf addrW = true → d.Inv m →
    (d.transition m).1.Inv (d.transition m).2

/-- R21: DEC's read cursor stays on token boundaries. -/
def Obligations.DecStaysOnTokenBoundaries : Prop :=
  ∀ (xlen addrW : Nat) (d : Dec xlen addrW) (m : Memory), Config.xlenMin ≤ xlen → m.wf addrW = true → d.Inv m →
    d.OnBoundary m → (d.transition m).1.OnBoundary (d.transition m).2

/-- R37, R102: DEC reads only inside `data[0, LEN)` and writes only `output[wr]` with `wr < MAXLEN`. -/
def Obligations.DecAccessesStayInBounds : Prop :=
  ∀ (xlen addrW : Nat) (d : Dec xlen addrW) (m : Memory), Config.xlenMin ≤ xlen → d.Inv m →
    (∀ a, d.access = .read a → ∃ i, i < d.len.toNat ∧ a = elementAddr d.data i)
    ∧ ∀ a v, d.access = .write a v → (d.wr.toNat : Int) < d.maxLen.toInt ∧ a = elementAddr d.out d.wr.toNat

/-- R11, R89: what earlier operations left in DEC's registers changes nothing. -/
def Obligations.DecForgetsEarlierOperations : Prop :=
  ∀ (xlen addrW : Nat) (d₁ d₂ : Dec xlen addrW) (m : Memory) (n : Nat), d₁.st = .check → d₂.st = .check →
    d₁.data = d₂.data → d₁.len = d₂.len →
    d₁.out = d₂.out → d₁.maxLen = d₂.maxLen →
    (Dec.run n d₁ m).1.st = (Dec.run n d₂ m).1.st ∧ (Dec.run n d₁ m).2 = (Dec.run n d₂ m).2
    ∧ ((Dec.run n d₁ m).1.st = .done →
        (Dec.run n d₁ m).1.result = (Dec.run n d₂ m).1.result ∧ (Dec.run n d₁ m).1.err = (Dec.run n d₂ m).1.err)

/-! Failures and reports -/

/-- R113, R112, R107: the step that raises a failure writes no memory and leaves the sentinel of its cause. -/
def Obligations.FailuresWriteNoMemory : Prop :=
  (∀ (xlen addrW : Nat) (e : Enc xlen addrW) (m : Memory), e.busy = true → (e.transition m).1.st = .done →
    (e.transition m).1.err ≠ .none →
    (e.transition m).2 = m ∧ (e.transition m).1.rd = e.rd ∧ (e.transition m).1.wr = e.wr
    ∧ (((e.transition m).1.err = .invalidArgument ∨ (e.transition m).1.err = .invalidLength)
      ∧ (e.transition m).1.result = 0#xlen
      ∨ (e.transition m).1.err = .invalidPayload ∧ (e.transition m).1.result = -1#xlen))
  ∧ ∀ (xlen addrW : Nat) (d : Dec xlen addrW) (m : Memory), d.busy = true → (d.transition m).1.st = .done →
    (d.transition m).1.err ≠ .none →
      (d.transition m).2 = m ∧ (d.transition m).1.wr = d.wr ∧ (d.transition m).1.result = -1#xlen
      ∧ (d.transition m).1.err ≠ .invalidPayload

/-- R18, R17, R120: when a block is done, `ERR` is 0 exactly when the host sees success in `RESULT`. -/
def Obligations.SuccessIsErrZero : Prop :=
  (∀ (xlen addrW : Nat) (e : Enc xlen addrW) (m : Memory), Config.xlenMin ≤ xlen → e.Inv m → e.done = true →
    (causeCode e.err = 0#3 ↔ 1 ≤ e.result.toInt))
  ∧ ∀ (xlen addrW : Nat) (d : Dec xlen addrW) (m : Memory), Config.xlenMin ≤ xlen → d.Inv m → d.done = true →
    (causeCode d.err = 0#3 ↔ 0 ≤ d.result.toInt)

/-- R83, R84, R105, R106: which cells an ended operation leaves unspecified (the list `voids`: log entry 6). -/
def Obligations.UnspecifiedCellsAfterAnOperation : Prop :=
  (∀ (xlen addrW : Nat) (s : Chip xlen addrW) (a : Nat), s.enc.busy = true → (encMove s).enc.st = .done →
    ((encMove s).enc.err = .none → s.enc.buffer.contains a = true →
      (inRegions (encMove s).voids a = true ↔ s.enc.buffer.base + (encMove s).enc.result.toNat ≤ a))
    ∧ ((encMove s).enc.err = .invalidPayload → s.enc.buffer.contains a = true → inRegions (encMove s).voids a = true)
    ∧ (s.enc.buffer.contains a = false → inRegions (encMove s).voids a = inRegions s.voids a))
  ∧ ∀ (xlen addrW : Nat) (s : Chip xlen addrW) (a : Nat), s.dec.busy = true → (decMove s).dec.st = .done →
    ((decMove s).dec.err = .none → s.dec.outBuffer.contains a = true →
      (inRegions (decMove s).voids a = true ↔ s.dec.outBuffer.base + (decMove s).dec.result.toNat ≤ a))
    ∧ ((decMove s).dec.err = .outputOverflow ∨ (decMove s).dec.err = .truncatedStream →
        s.dec.outBuffer.contains a = true → inRegions (decMove s).voids a = true)
    ∧ (s.dec.outBuffer.contains a = false → inRegions (decMove s).voids a = inRegions s.voids a)

/-! The host's side -/

/-- R14, R124: driving ports changes no register; a busy block has no start step (log entry 10); that of an idle or
finished block latches every operand from the ports (log entry 14), goes to the check state, and changes nothing else:
where the operand checks will fail, whatever the buffers, and otherwise where the buffers do not wrap and meet neither each
other nor a running operation's (log entry 11). -/
def Obligations.StartLatchesThePorts : Prop :=
  (∀ (xlen addrW : Nat) (s : Chip xlen addrW) (buf : Addr addrW) (len : Word xlen),
    move (.driveEnc buf len) s = .next ⟨{ s with ports := { s.ports with buf := buf, encLen := len } }⟩)
  ∧ (∀ (xlen addrW : Nat) (s : Chip xlen addrW) (data : Addr addrW) (len : Word xlen) (out : Addr addrW) (maxLen : Word xlen),
    move (.driveDec data len out maxLen) s
      = .next ⟨{ s with ports := { s.ports with data := data, decLen := len, out := out, maxLen := maxLen } }⟩)
  ∧ (∀ (xlen addrW : Nat) (s : Chip xlen addrW), s.enc.busy = true → move .startEnc s = .fault .startWhileBusy)
  ∧ (∀ (xlen addrW : Nat) (s : Chip xlen addrW), s.dec.busy = true → move .startDec s = .fault .startWhileBusy)
  ∧ (∀ (xlen addrW : Nat) (s : Chip xlen addrW), s.enc.busy = false →
    s.ports.buf = 0#addrW ∨ s.ports.encLen.toInt ≤ 0 ∨
      (s.ports.buf.toNat + clipSize s.ports.encLen ≤ 2 ^ addrW
        ∧ (s.dec.busy = true → ∀ a, s.ports.buf.toNat ≤ a → a < s.ports.buf.toNat + clipSize s.ports.encLen →
            s.dec.dataBuffer.contains a = false ∧ s.dec.outBuffer.contains a = false)) →
    move .startEnc s = .next ⟨{ s with enc := { s.enc with buf := s.ports.buf, len := s.ports.encLen, st := .check } }⟩)
  ∧ ∀ (xlen addrW : Nat) (s : Chip xlen addrW), s.dec.busy = false →
    s.ports.data = 0#addrW ∨ s.ports.out = 0#addrW ∨ s.ports.decLen.toInt ≤ 0 ∨
      (s.ports.data.toNat + clipSize s.ports.decLen ≤ 2 ^ addrW ∧ s.ports.out.toNat + clipSize s.ports.maxLen ≤ 2 ^ addrW
        ∧ (∀ a, s.ports.data.toNat ≤ a → a < s.ports.data.toNat + clipSize s.ports.decLen →
            ¬ (s.ports.out.toNat ≤ a ∧ a < s.ports.out.toNat + clipSize s.ports.maxLen))
        ∧ (s.enc.busy = true → ∀ a,
            (s.ports.data.toNat ≤ a ∧ a < s.ports.data.toNat + clipSize s.ports.decLen)
              ∨ (s.ports.out.toNat ≤ a ∧ a < s.ports.out.toNat + clipSize s.ports.maxLen) →
            s.enc.buffer.contains a = false)) →
    move .startDec s = .next ⟨{ s with
      dec := { s.dec with
        data := s.ports.data, len := s.ports.decLen, out := s.ports.out, maxLen := s.ports.maxLen, st := .check } }⟩

/-- R27, R42, R39, R128, R129: launches the spec gives no meaning are refused, each by its name (log entry 11). -/
def Obligations.LaunchesWithoutMeaningAreRefused : Prop :=
  (∀ (xlen addrW : Nat) (s : Chip xlen addrW), s.enc.busy = false → s.ports.buf ≠ 0#addrW → 0 < s.ports.encLen.toInt →
    2 ^ addrW < s.ports.buf.toNat + s.ports.encLen.toNat → move .startEnc s = .refused .bufferWraps)
  ∧ (∀ (xlen addrW : Nat) (s : Chip xlen addrW) (a : Nat), s.enc.busy = false → s.dec.busy = true →
    s.ports.buf ≠ 0#addrW → 0 < s.ports.encLen.toInt → s.ports.buf.toNat + s.ports.encLen.toNat ≤ 2 ^ addrW →
    s.ports.buf.toNat ≤ a → a < s.ports.buf.toNat + s.ports.encLen.toNat →
    (s.dec.dataBuffer.contains a = true ∨ s.dec.outBuffer.contains a = true) →
    move .startEnc s = .refused .operationsOverlap)
  ∧ (∀ (xlen addrW : Nat) (s : Chip xlen addrW), s.dec.busy = false → s.ports.data ≠ 0#addrW → s.ports.out ≠ 0#addrW →
    0 < s.ports.decLen.toInt →
    (2 ^ addrW < s.ports.data.toNat + s.ports.decLen.toNat ∨ 2 ^ addrW < s.ports.out.toNat + clipSize s.ports.maxLen) →
    move .startDec s = .refused .bufferWraps)
  ∧ (∀ (xlen addrW : Nat) (s : Chip xlen addrW) (a : Nat), s.dec.busy = false → s.ports.data ≠ 0#addrW →
    s.ports.out ≠ 0#addrW → 0 < s.ports.decLen.toInt →
    s.ports.data.toNat + s.ports.decLen.toNat ≤ 2 ^ addrW → s.ports.out.toNat + clipSize s.ports.maxLen ≤ 2 ^ addrW →
    s.ports.data.toNat ≤ a → a < s.ports.data.toNat + s.ports.decLen.toNat →
    s.ports.out.toNat ≤ a → a < s.ports.out.toNat + clipSize s.ports.maxLen →
    move .startDec s = .refused .buffersOverlap)
  ∧ ∀ (xlen addrW : Nat) (s : Chip xlen addrW) (a : Nat), s.dec.busy = false → s.enc.busy = true →
    s.ports.data ≠ 0#addrW → s.ports.out ≠ 0#addrW → 0 < s.ports.decLen.toInt →
    s.ports.data.toNat + s.ports.decLen.toNat ≤ 2 ^ addrW → s.ports.out.toNat + clipSize s.ports.maxLen ≤ 2 ^ addrW →
    (∀ b, s.ports.data.toNat ≤ b → b < s.ports.data.toNat + s.ports.decLen.toNat →
      ¬ (s.ports.out.toNat ≤ b ∧ b < s.ports.out.toNat + clipSize s.ports.maxLen)) →
    ((s.ports.data.toNat ≤ a ∧ a < s.ports.data.toNat + s.ports.decLen.toNat)
      ∨ (s.ports.out.toNat ≤ a ∧ a < s.ports.out.toNat + clipSize s.ports.maxLen)) →
    s.enc.buffer.contains a = true → move .startDec s = .refused .operationsOverlap

/-- R22: the host reads `RESULT` and `ERR` while `done = 1`, and has no value before (log entry 13). -/
def Obligations.ReportsAreReadOnlyWhenDone : Prop :=
  ∀ (xlen addrW : Nat) (s : Chip xlen addrW),
    (s.enc.st = .done →
      move .readEnc s = .next ⟨{ s with host := { s.host with result := s.enc.result, err := s.enc.err } }⟩)
    ∧ (s.enc.st ≠ .done → move .readEnc s = .fault .readBeforeDone)
    ∧ (s.dec.st = .done →
      move .readDec s = .next ⟨{ s with host := { s.host with result := s.dec.result, err := s.dec.err } }⟩)
    ∧ (s.dec.st ≠ .done → move .readDec s = .fault .readBeforeDone)

/-- R125, R39, R35: a store by the host or another agent into a running operation's buffers is a race; any other sets that
cell and no other, and changes no register (log entry 12); that cell alone is no longer unspecified (log entry 6). -/
def Obligations.StoresOfOtherAgents : Prop :=
  ∀ (xlen addrW : Nat) (s : Chip xlen addrW) (c : Addr addrW) (v : Byte),
    let encHas := s.enc.busy = true ∧ inBuffer s.enc.buf (clipSize s.enc.len) c = true
    let dataHas := s.dec.busy = true ∧ inBuffer s.dec.data (clipSize s.dec.len) c = true
    let outHas := s.dec.busy = true ∧ inBuffer s.dec.out (clipSize s.dec.maxLen) c = true
    (encHas ∨ dataHas ∨ outHas → move (.store c v) s = .fault .race)
    ∧ (¬ encHas → ¬ dataHas → ¬ outHas → s.mem.wf addrW = true →
      ∃ t : Chip xlen addrW, move (.store c v) s = .next ⟨t⟩ ∧ memRead t.mem c = v
        ∧ (∀ b, b ≠ c → memRead t.mem b = memRead s.mem b)
        ∧ t.enc = s.enc ∧ t.dec = s.dec ∧ t.ports = s.ports ∧ t.host = s.host ∧ t.agentByte = s.agentByte
        ∧ t.schedule = s.schedule ∧ t.fresh = s.fresh
        ∧ inRegions t.voids c.toNat = false ∧ ∀ a, a ≠ c.toNat → inRegions t.voids a = inRegions s.voids a)

/-- R22, R125, R39, R34: the host's load of a running operation's buffers, and another agent's load of a cell that a running
block writes, are races (log entry 12); any other load changes nothing but the byte the reader holds, which is the cell's
content, or a free value where the contract leaves the cell unspecified (log entry 6). -/
def Obligations.LoadsOfOtherAgents : Prop :=
  ∀ (xlen addrW : Nat) (s : Chip xlen addrW) (c : Addr addrW),
    let encHas := s.enc.busy = true ∧ inBuffer s.enc.buf (clipSize s.enc.len) c = true
    let dataHas := s.dec.busy = true ∧ inBuffer s.dec.data (clipSize s.dec.len) c = true
    let outHas := s.dec.busy = true ∧ inBuffer s.dec.out (clipSize s.dec.maxLen) c = true
    let got (b : Byte) (n : Nat) : Prop :=
      (inRegions s.voids c.toNat = false → b = memRead s.mem c ∧ n = s.fresh)
        ∧ (inRegions s.voids c.toNat = true → b = Config.freeByte s.fresh ∧ n = s.fresh + 1)
    (encHas ∨ dataHas ∨ outHas → move (.load c) s = .fault .race)
    ∧ (¬ encHas → ¬ dataHas → ¬ outHas →
      ∃ b n, move (.load c) s = .next ⟨{ s with host := { s.host with byte := b }, fresh := n }⟩ ∧ got b n)
    ∧ (encHas ∨ outHas → move (.agentLoad c) s = .fault .race)
    ∧ (¬ encHas → ¬ outHas →
      ∃ b n, move (.agentLoad c) s = .next ⟨{ s with agentByte := b, fresh := n }⟩ ∧ got b n)

/-! The whole machine -/

/-- R10, R131, R14, R118, R39: a step is the next move of the schedule; a block's turn is one transition; with nothing
scheduled the only busy block takes it, and when both are busy one of them does; an idle block has no step, and an idle
machine waits (the schedule and the free choice: log entry 7; the idle block's stop and the wait: log entry 9). -/
def Obligations.BlockTurnTakesOneTransition : Prop :=
  ∀ (xlen addrW : Nat) (s : Chip xlen addrW),
    (∀ mv rest, s.schedule = mv :: rest → step ⟨s⟩ = move mv { s with schedule := rest })
    ∧ (s.enc.busy = true → move .enc s = .next ⟨encMove s⟩
      ∧ (s.schedule = [] → s.dec.busy = false → step ⟨s⟩ = .next ⟨encMove s⟩)
      ∧ (encMove s).enc = (s.enc.transition s.mem).1 ∧ (encMove s).mem = (s.enc.transition s.mem).2
      ∧ (encMove s).dec = s.dec ∧ (encMove s).ports = s.ports)
    ∧ (s.dec.busy = true → move .dec s = .next ⟨decMove s⟩
      ∧ (s.schedule = [] → s.enc.busy = false → step ⟨s⟩ = .next ⟨decMove s⟩)
      ∧ (decMove s).dec = (s.dec.transition s.mem).1 ∧ (decMove s).mem = (s.dec.transition s.mem).2
      ∧ (decMove s).enc = s.enc ∧ (decMove s).ports = s.ports)
    ∧ (s.enc.busy = true → s.dec.busy = true → s.schedule = [] →
      ∃ n, step ⟨s⟩ = .next ⟨encMove { s with fresh := n }⟩ ∨ step ⟨s⟩ = .next ⟨decMove { s with fresh := n }⟩)
    ∧ (s.enc.busy = false → move .enc s = .fault .noStep)
    ∧ (s.dec.busy = false → move .dec s = .fault .noStep)
    ∧ (s.enc.busy = false → s.dec.busy = false → s.schedule = [] → step ⟨s⟩ = .next ⟨s⟩)

/-- Every step keeps the machine's invariant (canonical memory, both blocks' invariants, running operations apart) and its
widths, whatever move comes next. -/
def Obligations.StepKeepsMachineInvariant : Prop :=
  ∀ s t : State, s.Inv → step s = .next t → t.Inv ∧ t.xlen = s.xlen ∧ t.addrW = s.addrW

/-- R39, P5: under every interleaving of their transitions, two operations on disjoint buffers each get the registers and
the cells they would have alone (a block without a step keeps still in its turn). -/
def Obligations.EveryInterleavingGivesEachItsOwnResult : Prop :=
  ∀ (xlen addrW : Nat) (s : Chip xlen addrW) (bs : List Bool), Config.xlenMin ≤ xlen → s.Inv →
    let alone₁ := Enc.run (bs.count true) s.enc s.mem
    let alone₂ := Dec.run (bs.count false) s.dec s.mem
    (turns bs s).enc = alone₁.1 ∧ (turns bs s).dec = alone₂.1
    ∧ ∀ c : Addr addrW, memRead (turns bs s).mem c =
        if s.enc.busy = true ∧ s.enc.buffer.contains c.toNat = true then memRead alone₁.2 c else memRead alone₂.2 c
end

