-- ==== Sys2Proof/Laws/Memory.lean ====
section
/-!
SUPPORT. What the memory operations do (R34, R35): the canonical form is kept, a read after a write to the same cell gives
the value written, a write leaves every other cell alone.
-/

namespace Sys2Proof.Machine

variable {xlen addrW : Nat}

@[simp] theorem Memory.read_nil (a : Nat) : Memory.read [] a = Config.unlistedByte := rfl

theorem Memory.wfFrom_mono {sp lo lo' : Nat} (h : lo' ≤ lo) :
    ∀ {m : Memory}, Memory.wfFrom sp lo m = true → Memory.wfFrom sp lo' m = true
  | [], _ => rfl
  | (k, b) :: rest, hm => by
    simp only [Memory.wfFrom, Bool.and_eq_true, decide_eq_true_eq] at hm ⊢
    exact ⟨⟨⟨by omega, hm.1.1.2⟩, hm.1.2⟩, hm.2⟩

theorem Memory.read_below {sp lo : Nat} :
    ∀ {m : Memory}, Memory.wfFrom sp lo m = true → ∀ a, a < lo → Memory.read m a = Config.unlistedByte
  | [], _, _, _ => rfl
  | (k, b) :: rest, hm, a, ha => by
    simp only [Memory.wfFrom, Bool.and_eq_true, decide_eq_true_eq] at hm
    rw [Memory.read, if_neg (by omega)]
    exact Memory.read_below hm.2 a (by omega)

/-- A write leaves every other cell alone, canonical or not. -/
theorem Memory.read_write_other :
    ∀ (m : Memory) {a b : Nat} (v : Byte), a ≠ b → Memory.read (Memory.write m a v) b = Memory.read m b
  | [], a, b, v, h => by
    rw [Memory.write]; split
    · rfl
    · simp [Memory.read, h]
  | (k, c) :: rest, a, b, v, h => by
    have ih := Memory.read_write_other rest v h
    rw [Memory.write]
    split
    · split
      · rfl
      · rw [Memory.read, if_neg h]
    · split
      · next hk =>
        subst hk
        split
        · rw [Memory.read, if_neg h]
        · simp [Memory.read, h]
      · by_cases hk : k = b
        · simp [Memory.read, hk]
        · simp [Memory.read, hk, ih]

/-- A read after a write to the same cell gives the value written. -/
theorem Memory.read_write_same {sp lo : Nat} :
    ∀ {m : Memory}, Memory.wfFrom sp lo m = true → ∀ (a : Nat) (v : Byte), Memory.read (Memory.write m a v) a = v
  | [], _, a, v => by
    rw [Memory.write]; split
    · next h => exact h.symm
    · simp [Memory.read]
  | (k, c) :: rest, hm, a, v => by
    have hr := hm
    simp only [Memory.wfFrom, Bool.and_eq_true, decide_eq_true_eq] at hr
    have ih := Memory.read_write_same hr.2 a v
    rw [Memory.write]
    split
    · next hak =>
      split
      · next hv =>
        rw [Memory.read, if_neg (by omega), Memory.read_below hr.2 a (by omega), hv]
      · simp [Memory.read]
    · split
      · next hak =>
        split
        · next hv => rw [hv]; exact Memory.read_below hr.2 a (by omega)
        · simp [Memory.read]
      · next h => rw [Memory.read, if_neg (fun e => h e.symm)]; exact ih

/-- A write inside the space keeps the canonical form. -/
theorem Memory.write_wfFrom {sp lo : Nat} :
    ∀ {m : Memory}, Memory.wfFrom sp lo m = true → ∀ (a : Nat) (v : Byte), lo ≤ a → a < sp →
      Memory.wfFrom sp lo (Memory.write m a v) = true
  | [], _, a, v, hlo, ha => by
    rw [Memory.write]; split
    · rfl
    · next hv => simp [Memory.wfFrom, hlo, ha, hv]
  | (k, c) :: rest, hm, a, v, hlo, ha => by
    have hr := hm
    simp only [Memory.wfFrom, Bool.and_eq_true, decide_eq_true_eq] at hr
    have up : Memory.wfFrom sp lo rest = true := Memory.wfFrom_mono (by omega) hr.2
    rw [Memory.write]
    split
    · split
      · exact hm
      · next hv => simp [Memory.wfFrom, hlo, ha, hv, hr, show a + 1 ≤ k by omega]
    · split
      · next hk =>
        split
        · exact up
        · next hv => simp [Memory.wfFrom, hv, hk, hr]
      · simp only [Memory.wfFrom, Bool.and_eq_true, decide_eq_true_eq]
        exact ⟨hr.1, Memory.write_wfFrom hr.2 a v (by omega) ha⟩

theorem reset_mem_wf : Memory.wf addrW (Chip.reset xlen addrW).mem = true := rfl

/-- `MemWrite` keeps the canonical form. -/
theorem memWrite_wf {m : Memory} (h : m.wf addrW = true) (a : Addr addrW) (v : Byte) : (memWrite m a v).wf addrW = true :=
  Memory.write_wfFrom h a.toNat v (Nat.zero_le _) a.isLt

/-- R35: a later `MemRead` of the cell returns what `MemWrite` stored. -/
theorem memRead_memWrite_same {m : Memory} (h : m.wf addrW = true) (a : Addr addrW) (v : Byte) :
    memRead (memWrite m a v) a = v :=
  Memory.read_write_same h a.toNat v

/-- R35: `MemWrite` changes no other cell. -/
theorem memRead_memWrite_other (m : Memory) {a b : Addr addrW} (v : Byte) (h : a ≠ b) :
    memRead (memWrite m a v) b = memRead m b :=
  Memory.read_write_other m v (fun e => h (BitVec.eq_of_toNat_eq e))

/-- The two laws as one. -/
theorem memRead_memWrite {m : Memory} (h : m.wf addrW = true) (a b : Addr addrW) (v : Byte) :
    memRead (memWrite m a v) b = if a = b then v else memRead m b := by
  split
  · next e => subst e; exact memRead_memWrite_same h a v
  · next e => exact memRead_memWrite_other m v e

/-- An access keeps the canonical form. -/
theorem Access.apply_wf {m : Memory} (h : m.wf addrW = true) (x : Access addrW) : (x.apply m).wf addrW = true := by
  cases x <;> first | exact h | exact memWrite_wf h _ _

/-- An access changes no cell but the one it writes. -/
theorem Access.apply_other (m : Memory) (x : Access addrW) (b : Addr addrW) (h : ∀ a v, x = .write a v → a ≠ b) :
    memRead (x.apply m) b = memRead m b := by
  cases x with
  | write a v => exact memRead_memWrite_other m v (h a v rfl)
  | read a => rfl
  | nothing => rfl

@[simp] theorem Access.apply_read (m : Memory) (a : Addr addrW) : (Access.read a).apply m = m := rfl
@[simp] theorem Access.apply_nothing (m : Memory) : (Access.nothing : Access addrW).apply m = m := rfl
@[simp] theorem Access.apply_write (m : Memory) (a : Addr addrW) (v : Byte) : (Access.write a v).apply m = memWrite m a v := rfl
@[simp] theorem Access.fetch_read (m : Memory) (a : Addr addrW) : (Access.read a).fetch m = memRead m a := rfl

/-- The address of an element of a buffer that does not wrap (R27). -/
theorem elementAddr_toNat (base : Addr addrW) (i : Nat) (h : base.toNat + i < addrSpace addrW) :
    (elementAddr base i).toNat = base.toNat + i := by
  have hi : i % 2 ^ addrW = i := Nat.mod_eq_of_lt (by unfold addrSpace at h; omega)
  rw [elementAddr, BitVec.toNat_add, BitVec.toNat_ofNat, hi, Nat.mod_eq_of_lt h]

/-- Different elements of a buffer have different addresses. -/
theorem elementAddr_inj (base : Addr addrW) {i j : Nat} (hi : i < addrSpace addrW) (hj : j < addrSpace addrW)
    (h : elementAddr base i = elementAddr base j) : i = j := by
  have h' := congrArg BitVec.toNat ((BitVec.add_right_inj base).mp h)
  rwa [BitVec.toNat_ofNat, BitVec.toNat_ofNat, Nat.mod_eq_of_lt hi, Nat.mod_eq_of_lt hj] at h'

/-- An element of a buffer is in the buffer, wrapping or not. -/
theorem inBuffer_elementAddr (base : Addr addrW) {i n : Nat} (h : i < n) : inBuffer base n (elementAddr base i) = true := by
  have e : elementAddr base i - base = BitVec.ofNat addrW i := by rw [elementAddr, BitVec.add_comm, BitVec.add_sub_cancel]
  rw [inBuffer, e, BitVec.toNat_ofNat, decide_eq_true_eq]
  exact Nat.lt_of_le_of_lt (Nat.mod_le _ _) h

/-- Where a buffer does not wrap, its addresses are those of the region. -/
theorem inBuffer_eq_contains (base : Addr addrW) (n : Nat) (c : Addr addrW) (h : base.toNat + n ≤ addrSpace addrW) :
    inBuffer base n c = Region.contains { base := base.toNat, size := n } c.toNat := by
  have hb := base.isLt
  have hc := c.isLt
  rw [Bool.eq_iff_iff, inBuffer, Region.contains, Bool.and_eq_true]
  simp only [decide_eq_true_eq, BitVec.toNat_sub]
  unfold addrSpace at h
  by_cases hle : base.toNat ≤ c.toNat
  · rw [show 2 ^ addrW - base.toNat + c.toNat = c.toNat - base.toNat + 2 ^ addrW by omega, Nat.add_mod_right,
      Nat.mod_eq_of_lt (by omega)]
    omega
  · rw [Nat.mod_eq_of_lt (by omega)]
    omega

@[simp] theorem bytesAt_length (m : Memory) (base : Addr addrW) (n : Nat) : (bytesAt m base n).length = n := by
  simp [bytesAt]

@[simp] theorem bytesAt_zero (m : Memory) (base : Addr addrW) : bytesAt m base 0 = [] := rfl

theorem bytesAt_succ (m : Memory) (base : Addr addrW) (n : Nat) :
    bytesAt m base (n + 1) = bytesAt m base n ++ [memRead m (elementAddr base n)] := by
  simp [bytesAt, List.range_succ]

end Sys2Proof.Machine
end

