-- ==== Sys2Proof/Laws/State.lean ====
section
/-!
SUPPORT. One lemma per field per named update (raise, finish, commit, reset), true by rfl, so that no later proof unfolds
a record update.
-/

namespace Sys2Proof.Machine

variable {xlen addrW : Nat}

@[simp] theorem Enc.raise_st (c : Cause) (e : Enc xlen addrW) : (e.raise c).st = .done := rfl
@[simp] theorem Enc.raise_buf (c : Cause) (e : Enc xlen addrW) : (e.raise c).buf = e.buf := rfl
@[simp] theorem Enc.raise_len (c : Cause) (e : Enc xlen addrW) : (e.raise c).len = e.len := rfl
@[simp] theorem Enc.raise_rd (c : Cause) (e : Enc xlen addrW) : (e.raise c).rd = e.rd := rfl
@[simp] theorem Enc.raise_wr (c : Cause) (e : Enc xlen addrW) : (e.raise c).wr = e.wr := rfl
@[simp] theorem Enc.raise_cnt (c : Cause) (e : Enc xlen addrW) : (e.raise c).cnt = e.cnt := rfl
@[simp] theorem Enc.raise_cur (c : Cause) (e : Enc xlen addrW) : (e.raise c).cur = e.cur := rfl
@[simp] theorem Enc.raise_result (c : Cause) (e : Enc xlen addrW) : (e.raise c).result = encSentinel c := rfl
@[simp] theorem Enc.raise_err (c : Cause) (e : Enc xlen addrW) : (e.raise c).err = c := rfl

@[simp] theorem Enc.finish_st (n : Word xlen) (e : Enc xlen addrW) : (e.finish n).st = .done := rfl
@[simp] theorem Enc.finish_buf (n : Word xlen) (e : Enc xlen addrW) : (e.finish n).buf = e.buf := rfl
@[simp] theorem Enc.finish_len (n : Word xlen) (e : Enc xlen addrW) : (e.finish n).len = e.len := rfl
@[simp] theorem Enc.finish_rd (n : Word xlen) (e : Enc xlen addrW) : (e.finish n).rd = e.rd := rfl
@[simp] theorem Enc.finish_wr (n : Word xlen) (e : Enc xlen addrW) : (e.finish n).wr = e.wr := rfl
@[simp] theorem Enc.finish_cnt (n : Word xlen) (e : Enc xlen addrW) : (e.finish n).cnt = e.cnt := rfl
@[simp] theorem Enc.finish_cur (n : Word xlen) (e : Enc xlen addrW) : (e.finish n).cur = e.cur := rfl
@[simp] theorem Enc.finish_result (n : Word xlen) (e : Enc xlen addrW) : (e.finish n).result = n := rfl
@[simp] theorem Enc.finish_err (n : Word xlen) (e : Enc xlen addrW) : (e.finish n).err = .none := rfl

@[simp] theorem Dec.raise_st (c : Cause) (d : Dec xlen addrW) : (d.raise c).st = .done := rfl
@[simp] theorem Dec.raise_data (c : Cause) (d : Dec xlen addrW) : (d.raise c).data = d.data := rfl
@[simp] theorem Dec.raise_len (c : Cause) (d : Dec xlen addrW) : (d.raise c).len = d.len := rfl
@[simp] theorem Dec.raise_out (c : Cause) (d : Dec xlen addrW) : (d.raise c).out = d.out := rfl
@[simp] theorem Dec.raise_maxLen (c : Cause) (d : Dec xlen addrW) : (d.raise c).maxLen = d.maxLen := rfl
@[simp] theorem Dec.raise_rd (c : Cause) (d : Dec xlen addrW) : (d.raise c).rd = d.rd := rfl
@[simp] theorem Dec.raise_wr (c : Cause) (d : Dec xlen addrW) : (d.raise c).wr = d.wr := rfl
@[simp] theorem Dec.raise_cnt (c : Cause) (d : Dec xlen addrW) : (d.raise c).cnt = d.cnt := rfl
@[simp] theorem Dec.raise_val (c : Cause) (d : Dec xlen addrW) : (d.raise c).val = d.val := rfl
@[simp] theorem Dec.raise_result (c : Cause) (d : Dec xlen addrW) : (d.raise c).result = decSentinel c := rfl
@[simp] theorem Dec.raise_err (c : Cause) (d : Dec xlen addrW) : (d.raise c).err = c := rfl

@[simp] theorem Dec.finish_st (n : Word xlen) (d : Dec xlen addrW) : (d.finish n).st = .done := rfl
@[simp] theorem Dec.finish_data (n : Word xlen) (d : Dec xlen addrW) : (d.finish n).data = d.data := rfl
@[simp] theorem Dec.finish_len (n : Word xlen) (d : Dec xlen addrW) : (d.finish n).len = d.len := rfl
@[simp] theorem Dec.finish_out (n : Word xlen) (d : Dec xlen addrW) : (d.finish n).out = d.out := rfl
@[simp] theorem Dec.finish_maxLen (n : Word xlen) (d : Dec xlen addrW) : (d.finish n).maxLen = d.maxLen := rfl
@[simp] theorem Dec.finish_rd (n : Word xlen) (d : Dec xlen addrW) : (d.finish n).rd = d.rd := rfl
@[simp] theorem Dec.finish_wr (n : Word xlen) (d : Dec xlen addrW) : (d.finish n).wr = d.wr := rfl
@[simp] theorem Dec.finish_cnt (n : Word xlen) (d : Dec xlen addrW) : (d.finish n).cnt = d.cnt := rfl
@[simp] theorem Dec.finish_val (n : Word xlen) (d : Dec xlen addrW) : (d.finish n).val = d.val := rfl
@[simp] theorem Dec.finish_result (n : Word xlen) (d : Dec xlen addrW) : (d.finish n).result = n := rfl
@[simp] theorem Dec.finish_err (n : Word xlen) (d : Dec xlen addrW) : (d.finish n).err = .none := rfl

@[simp] theorem Chip.commitEnc_enc (s : Chip xlen addrW) (e : Enc xlen addrW) (m : Memory) : (s.commitEnc e m).enc = e := rfl
@[simp] theorem Chip.commitEnc_dec (s : Chip xlen addrW) (e : Enc xlen addrW) (m : Memory) : (s.commitEnc e m).dec = s.dec := rfl
@[simp] theorem Chip.commitEnc_mem (s : Chip xlen addrW) (e : Enc xlen addrW) (m : Memory) : (s.commitEnc e m).mem = m := rfl
@[simp] theorem Chip.commitEnc_ports (s : Chip xlen addrW) (e : Enc xlen addrW) (m : Memory) : (s.commitEnc e m).ports = s.ports := rfl
@[simp] theorem Chip.commitEnc_host (s : Chip xlen addrW) (e : Enc xlen addrW) (m : Memory) : (s.commitEnc e m).host = s.host := rfl
@[simp] theorem Chip.commitEnc_agentByte (s : Chip xlen addrW) (e : Enc xlen addrW) (m : Memory) : (s.commitEnc e m).agentByte = s.agentByte := rfl
@[simp] theorem Chip.commitEnc_schedule (s : Chip xlen addrW) (e : Enc xlen addrW) (m : Memory) : (s.commitEnc e m).schedule = s.schedule := rfl
@[simp] theorem Chip.commitEnc_fresh (s : Chip xlen addrW) (e : Enc xlen addrW) (m : Memory) : (s.commitEnc e m).fresh = s.fresh := rfl
@[simp] theorem Chip.commitEnc_voids (s : Chip xlen addrW) (e : Enc xlen addrW) (m : Memory) : (s.commitEnc e m).voids = if e.done then e.settle s.voids else s.voids := rfl

@[simp] theorem Chip.commitDec_enc (s : Chip xlen addrW) (d : Dec xlen addrW) (m : Memory) : (s.commitDec d m).enc = s.enc := rfl
@[simp] theorem Chip.commitDec_dec (s : Chip xlen addrW) (d : Dec xlen addrW) (m : Memory) : (s.commitDec d m).dec = d := rfl
@[simp] theorem Chip.commitDec_mem (s : Chip xlen addrW) (d : Dec xlen addrW) (m : Memory) : (s.commitDec d m).mem = m := rfl
@[simp] theorem Chip.commitDec_ports (s : Chip xlen addrW) (d : Dec xlen addrW) (m : Memory) : (s.commitDec d m).ports = s.ports := rfl
@[simp] theorem Chip.commitDec_host (s : Chip xlen addrW) (d : Dec xlen addrW) (m : Memory) : (s.commitDec d m).host = s.host := rfl
@[simp] theorem Chip.commitDec_agentByte (s : Chip xlen addrW) (d : Dec xlen addrW) (m : Memory) : (s.commitDec d m).agentByte = s.agentByte := rfl
@[simp] theorem Chip.commitDec_schedule (s : Chip xlen addrW) (d : Dec xlen addrW) (m : Memory) : (s.commitDec d m).schedule = s.schedule := rfl
@[simp] theorem Chip.commitDec_fresh (s : Chip xlen addrW) (d : Dec xlen addrW) (m : Memory) : (s.commitDec d m).fresh = s.fresh := rfl
@[simp] theorem Chip.commitDec_voids (s : Chip xlen addrW) (d : Dec xlen addrW) (m : Memory) : (s.commitDec d m).voids = if d.done then d.settle s.voids else s.voids := rfl

@[simp] theorem Chip.reset_enc : (Chip.reset xlen addrW).enc = Enc.reset xlen addrW := rfl
@[simp] theorem Chip.reset_dec : (Chip.reset xlen addrW).dec = Dec.reset xlen addrW := rfl
@[simp] theorem Chip.reset_mem : (Chip.reset xlen addrW).mem = [] := rfl
@[simp] theorem Chip.reset_voids : (Chip.reset xlen addrW).voids = [] := rfl
@[simp] theorem Chip.reset_schedule : (Chip.reset xlen addrW).schedule = [] := rfl
@[simp] theorem Chip.reset_fresh : (Chip.reset xlen addrW).fresh = 0 := rfl

end Sys2Proof.Machine
end

