-- ==== Sys2Proof/Laws/Blocks.lean ====
section
/-!
SUPPORT. What a transition, a token and a move can do: operands are kept, memory changes only where the access writes,
and the shape of every answer of `exec`.
-/

namespace Sys2Proof.Machine

variable {xlen addrW : Nat}

@[simp] theorem Dec.close_data (d : Dec xlen addrW) : d.close.data = d.data := by unfold Dec.close; split <;> rfl
@[simp] theorem Dec.close_len (d : Dec xlen addrW) : d.close.len = d.len := by unfold Dec.close; split <;> rfl
@[simp] theorem Dec.close_out (d : Dec xlen addrW) : d.close.out = d.out := by unfold Dec.close; split <;> rfl
@[simp] theorem Dec.close_maxLen (d : Dec xlen addrW) : d.close.maxLen = d.maxLen := by unfold Dec.close; split <;> rfl
@[simp] theorem Dec.close_rd (d : Dec xlen addrW) : d.close.rd = d.rd := by unfold Dec.close; split <;> rfl
@[simp] theorem Dec.close_wr (d : Dec xlen addrW) : d.close.wr = d.wr := by unfold Dec.close; split <;> rfl
@[simp] theorem Dec.close_cnt (d : Dec xlen addrW) : d.close.cnt = d.cnt := by unfold Dec.close; split <;> rfl
@[simp] theorem Dec.close_val (d : Dec xlen addrW) : d.close.val = d.val := by unfold Dec.close; split <;> rfl

@[simp] theorem encGroupDone_buf (e : Enc xlen addrW) : (encGroupDone e).buf = e.buf := by unfold encGroupDone; split <;> rfl
@[simp] theorem encGroupDone_len (e : Enc xlen addrW) : (encGroupDone e).len = e.len := by unfold encGroupDone; split <;> rfl

/-- R14: ENC's operand registers do not change in a transition. -/
theorem Enc.next_operands (e : Enc xlen addrW) (b : Byte) : (e.next b).buf = e.buf ∧ (e.next b).len = e.len := by
  unfold Enc.next
  split
  · exact ⟨rfl, rfl⟩
  · unfold encCheck; repeat' split
    all_goals exact ⟨rfl, rfl⟩
  · unfold encValidate; repeat' split
    all_goals exact ⟨rfl, rfl⟩
  · exact ⟨rfl, rfl⟩
  · unfold encScan; repeat' split
    all_goals exact ⟨rfl, rfl⟩
  · unfold encEmit; split
    · exact ⟨encGroupDone_buf e, encGroupDone_len e⟩
    · exact ⟨rfl, rfl⟩
  · exact ⟨encGroupDone_buf e, encGroupDone_len e⟩
  · exact ⟨rfl, rfl⟩

/-- R14: DEC's operand registers do not change in a transition. -/
theorem Dec.next_operands (d : Dec xlen addrW) (b : Byte) :
    (d.next b).data = d.data ∧ (d.next b).len = d.len ∧ (d.next b).out = d.out ∧ (d.next b).maxLen = d.maxLen := by
  unfold Dec.next
  split
  · exact ⟨rfl, rfl, rfl, rfl⟩
  · unfold decCheck; repeat' split
    all_goals exact ⟨rfl, rfl, rfl, rfl⟩
  · unfold decFetch; repeat' split
    all_goals exact ⟨rfl, rfl, rfl, rfl⟩
  · exact ⟨rfl, rfl, rfl, rfl⟩
  · unfold decExpand; repeat' split
    · exact ⟨d.close_data, d.close_len, d.close_out, d.close_maxLen⟩
    all_goals exact ⟨rfl, rfl, rfl, rfl⟩
  · exact ⟨rfl, rfl, rfl, rfl⟩

/-- An idle or finished ENC has no step (R14): its transition keeps everything. -/
theorem Enc.transition_of_not_busy {e : Enc xlen addrW} (h : e.busy = false) (m : Memory) : e.transition m = (e, m) := by
  unfold Enc.busy at h
  cases hs : e.st <;> simp [hs] at h <;> simp [Enc.transition, Enc.next, Enc.access, hs]

/-- An idle or finished DEC has no step (R14): its transition keeps everything. -/
theorem Dec.transition_of_not_busy {d : Dec xlen addrW} (h : d.busy = false) (m : Memory) : d.transition m = (d, m) := by
  unfold Dec.busy at h
  cases hs : d.st <;> simp [hs] at h <;> simp [Dec.transition, Dec.next, Dec.access, hs]

/-- The copies of a run keep DEC's operands. -/
theorem Dec.copies_operands (v : Byte) : ∀ (n : Nat) (d : Dec xlen addrW) (m : Memory),
    (Dec.copies v n d m).1.data = d.data ∧ (Dec.copies v n d m).1.len = d.len
      ∧ (Dec.copies v n d m).1.out = d.out ∧ (Dec.copies v n d m).1.maxLen = d.maxLen
  | 0, d, m => by simp [Dec.copies]
  | n + 1, d, m => by
    rw [Dec.copies]; split
    · exact ⟨rfl, rfl, rfl, rfl⟩
    · simpa using Dec.copies_operands v n { d with wr := d.wr + 1#xlen } (memWrite m d.writeAddr v)

/-- The copies of a run keep the canonical memory. -/
theorem Dec.copies_wf (v : Byte) : ∀ (n : Nat) (d : Dec xlen addrW) {m : Memory}, m.wf addrW = true → (Dec.copies v n d m).2.wf addrW = true
  | 0, _, _, h => h
  | n + 1, d, m, h => by
    rw [Dec.copies]; split
    · exact h
    · exact Dec.copies_wf v n _ (memWrite_wf h _ _)

/-- Everything `LIT` can do: run the token from `D_FETCH`, or stop by name. -/
theorem execLit_cases (v : BitVec 7) (s : Chip xlen addrW) :
    (s.dec.st = .fetch ∧ execLit v ⟨s⟩ = .next ⟨s.commitDec (s.dec.litToken v s.mem).1 (s.dec.litToken v s.mem).2⟩)
      ∨ (s.dec.st ≠ .fetch ∧ execLit v ⟨s⟩ = .fault .notAtToken) := by
  by_cases h : s.dec.st = .fetch <;> simp [execLit, h]

/-- Everything `RUN` can do: run the token from `D_FETCH`, or stop by name. -/
theorem execRun_cases (c : Count) (v : Byte) (s : Chip xlen addrW) :
    (s.dec.st = .fetch ∧ execRun c v ⟨s⟩ = .next ⟨s.commitDec (s.dec.runToken c v s.mem).1 (s.dec.runToken c v s.mem).2⟩)
      ∨ (s.dec.st ≠ .fetch ∧ execRun c v ⟨s⟩ = .fault .notAtToken) := by
  by_cases h : s.dec.st = .fetch <;> simp [execRun, h]

/-- ENC's move in the machine, where ENC is busy. -/
theorem encMove_busy {s : Chip xlen addrW} (h : s.enc.busy = true) :
    encMove s = s.commitEnc (s.enc.transition s.mem).1 (s.enc.transition s.mem).2 := by simp [encMove, h]

/-- DEC's move in the machine, where DEC is busy. -/
theorem decMove_busy {s : Chip xlen addrW} (h : s.dec.busy = true) :
    decMove s = s.commitDec (s.dec.transition s.mem).1 (s.dec.transition s.mem).2 := by simp [decMove, h]

end Sys2Proof.Machine
end

