-- ==== Sys2Proof/Laws/Decode.lean ====
section
/-!
SUPPORT. The fields of a token byte (R47, R48): what the encoder puts in, the decoder takes out.
-/

namespace Sys2Proof

@[simp] theorem isMarker_markerByte : ∀ c : Count, isMarker (markerByte c) = true := by decide
@[simp] theorem isMarker_literalByte : ∀ v : BitVec 7, isMarker (literalByte v) = false := by decide
@[simp] theorem lowSeven_markerByte : ∀ c : Count, lowSeven (markerByte c) = c := by decide
@[simp] theorem lowSeven_literalByte : ∀ v : BitVec 7, lowSeven (literalByte v) = v := by decide

theorem literalByte_lowSeven : ∀ t : Byte, isMarker t = false → literalByte (lowSeven t) = t := by decide
theorem markerByte_lowSeven : ∀ t : Byte, isMarker t = true → markerByte (lowSeven t) = t := by decide

/-- `kind = 1` is `byte ≥ 128` (R47, R59). -/
theorem isMarker_iff : ∀ t : Byte, isMarker t = true ↔ 128 ≤ t.toNat := by decide

@[simp] theorem encodeStream_nil : encodeStream [] = [] := rfl
@[simp] theorem encodeStream_cons (i : Instr) (is : List Instr) :
    encodeStream (i :: is) = encode i ++ encodeStream is := by simp [encodeStream]

namespace Machine

@[simp] theorem parse_nil : parse [] = some [] := by rw [parse]
theorem parse_literal (t : Byte) (rest : List Byte) (h : isMarker t = false) :
    parse (t :: rest) = (parse rest).map (fun is => .lit (lowSeven t) :: is) := by rw [parse.eq_def]; simp [h]
theorem parse_run (t v : Byte) (rest : List Byte) (h : isMarker t = true) :
    parse (t :: v :: rest) = (parse rest).map (fun is => .run (lowSeven t) v :: is) := by
  rw [parse.eq_def]; simp [h]
theorem parse_truncated (t : Byte) (h : isMarker t = true) : parse [t] = none := by rw [parse.eq_def]; simp [h]

@[simp] theorem expand_nil : expand [] = [] := rfl
@[simp] theorem expand_cons (i : Instr) (is : List Instr) : expand (i :: is) = expandToken i ++ expand is := by
  simp [expand]

@[simp] theorem decGo_nil (cap : Int) (out : List Byte) : decGo cap [] out = .ok out := by rw [decGo.eq_def]

end Machine

end Sys2Proof
end

