-- ==== Sys2Proof/Laws/Moves.lean ====
section
/-!
SUPPORT. What a step and each move can do, said once: from "answers next t" the conditions that held and what `t` is.
-/

namespace Sys2Proof.Machine

variable {xlen addrW : Nat}

theorem step_next {s : Chip xlen addrW} {t : State} (h : step ⟨s⟩ = .next t) :
    (s.schedule = [] ∧ t = ⟨freeRun s⟩)
      ∨ ∃ mv rest, s.schedule = mv :: rest ∧ move mv { s with schedule := rest } = .next t := by
  unfold step at h
  split at h
  next hs => exact .inl ⟨hs, by cases h; rfl⟩
  next mv rest hs => exact .inr ⟨mv, rest, hs, h⟩

theorem moveEnc_next {s : Chip xlen addrW} {t : State} (h : moveEnc s = .next t) : s.enc.busy = true ∧ t = ⟨encMove s⟩ := by
  unfold moveEnc at h
  split at h
  next hb => exact ⟨hb, by cases h; rfl⟩
  next => cases h

theorem moveDec_next {s : Chip xlen addrW} {t : State} (h : moveDec s = .next t) : s.dec.busy = true ∧ t = ⟨decMove s⟩ := by
  unfold moveDec at h
  split at h
  next hb => exact ⟨hb, by cases h; rfl⟩
  next => cases h

theorem moveToken_next {s : Chip xlen addrW} {t : State} (h : moveToken s = .next t) :
    s.dec.st = .fetch ∧ ((∃ i more, decode (s.dec.window s.mem) = .ok (i, more) ∧ exec i ⟨s⟩ = .next t)
      ∨ ((∃ r, decode (s.dec.window s.mem) = .error r) ∧ t = ⟨decMove s⟩)) := by
  unfold moveToken at h
  split at h
  next hf =>
    refine ⟨hf, ?_⟩
    split at h
    next i more hd => exact .inl ⟨i, more, hd, h⟩
    next r hd => exact .inr ⟨⟨r, hd⟩, by cases h; rfl⟩
  next => cases h

theorem moveStartEnc_next {s : Chip xlen addrW} {t : State} (h : moveStartEnc s = .next t) :
    s.enc.busy = false ∧ (encRegion s.ports.buf s.ports.encLen).wraps addrW = false
      ∧ (s.decOutOwned ++ s.decDataOwned).any (fun q => (encRegion s.ports.buf s.ports.encLen).meets q) = false
      ∧ t = ⟨{ s with enc := { s.enc with buf := s.ports.buf, len := s.ports.encLen, st := .check } }⟩ := by
  simp only [moveStartEnc] at h
  split at h
  next => cases h
  next hb =>
    split at h
    next => cases h
    next hw =>
      split at h
      next => cases h
      next hm =>
        exact ⟨by simpa using hb, by simpa only [Bool.not_eq_true] using hw, by simpa only [Bool.not_eq_true] using hm, by cases h; rfl⟩

theorem moveStartDec_next {s : Chip xlen addrW} {t : State} (h : moveStartDec s = .next t) :
    let rData := dataRegion s.ports.data s.ports.decLen s.ports.out
    let rOut := outRegion s.ports.data s.ports.decLen s.ports.out s.ports.maxLen
    s.dec.busy = false ∧ (rData.wraps addrW || rOut.wraps addrW) = false ∧ rData.meets rOut = false
      ∧ s.encOwned.any (fun q => rData.meets q || rOut.meets q) = false
      ∧ t = ⟨{ s with dec := { s.dec with
                data := s.ports.data, len := s.ports.decLen, out := s.ports.out, maxLen := s.ports.maxLen, st := .check } }⟩ := by
  simp only [moveStartDec] at h
  split at h
  next => cases h
  next hb =>
    split at h
    next => cases h
    next hw =>
      split at h
      next => cases h
      next hm =>
        split at h
        next => cases h
        next ho =>
          exact ⟨by simpa using hb, by simpa only [Bool.not_eq_true] using hw, by simpa only [Bool.not_eq_true] using hm,
            by simpa only [Bool.not_eq_true] using ho, by cases h; rfl⟩

theorem moveStore_next {s : Chip xlen addrW} {t : State} {a : Addr addrW} {v : Byte} (h : moveStore a v s = .next t) :
    s.owned a = false ∧ t = ⟨{ s with mem := memWrite s.mem a v, voids := settleCell a.toNat s.voids }⟩ := by
  unfold moveStore at h
  split at h
  next => cases h
  next hl => exact ⟨by simpa only [Bool.not_eq_true] using hl, by cases h; rfl⟩

theorem moveLoad_next {s : Chip xlen addrW} {t : State} {a : Addr addrW} (h : moveLoad a s = .next t) :
    s.owned a = false ∧ t = ⟨{ s with host := { s.host with byte := s.loaded a }, fresh := s.freshAfterLoad a }⟩ := by
  unfold moveLoad at h
  split at h
  next => cases h
  next hl => exact ⟨by simpa only [Bool.not_eq_true] using hl, by cases h; rfl⟩

theorem moveAgentLoad_next {s : Chip xlen addrW} {t : State} {a : Addr addrW} (h : moveAgentLoad a s = .next t) :
    s.written a = false ∧ t = ⟨{ s with agentByte := s.loaded a, fresh := s.freshAfterLoad a }⟩ := by
  unfold moveAgentLoad at h
  split at h
  next => cases h
  next hl => exact ⟨by simpa only [Bool.not_eq_true] using hl, by cases h; rfl⟩

theorem moveReadEnc_next {s : Chip xlen addrW} {t : State} (h : moveReadEnc s = .next t) :
    s.enc.done = true ∧ t = ⟨{ s with host := { s.host with result := s.enc.result, err := s.enc.err } }⟩ := by
  unfold moveReadEnc at h
  split at h
  next hd => exact ⟨hd, by cases h; rfl⟩
  next => cases h

theorem moveReadDec_next {s : Chip xlen addrW} {t : State} (h : moveReadDec s = .next t) :
    s.dec.done = true ∧ t = ⟨{ s with host := { s.host with result := s.dec.result, err := s.dec.err } }⟩ := by
  unfold moveReadDec at h
  split at h
  next hd => exact ⟨hd, by cases h; rfl⟩
  next => cases h

end Sys2Proof.Machine
end

