-- ==== Sys2Proof/Laws/PerInstr.lean ====
section
/-!
SUPPORT. A statement made per instruction: the length of a token's encoding is told by bit 7 of its first byte (R49).
-/

namespace Sys2Proof.Laws

/-- R49: bit 7 of the first byte alone decides the length of the token: 1 byte, or 2. -/
def EncodedLength.Statement (i : Instr) : Prop :=
  ∃ t rest, encode i = t :: rest ∧ (encode i).length = if t.msb then 2 else 1

theorem EncodedLength.lit (v : BitVec 7) : EncodedLength.Statement (.lit v) :=
  ⟨literalByte v, [], rfl, by rw [if_neg]; rfl; exact ne_true_of_eq_false (isMarker_literalByte v)⟩

theorem EncodedLength.run (c : Count) (v : Byte) : EncodedLength.Statement (.run c v) :=
  ⟨markerByte c, [v], rfl, by rw [if_pos]; rfl; exact isMarker_markerByte c⟩

end Sys2Proof.Laws
end

