-- ==== Sys2Proof/Laws/Regions.lean ====
section
/-!
SUPPORT. What the region operations do: membership in a difference of regions, and which cells an ended operation leaves
unspecified.
-/

namespace Sys2Proof.Machine

theorem Region.contains_iff (r : Region) (a : Nat) :
    r.contains a = true ↔ r.base ≤ a ∧ a < r.base + r.size := by
  simp [Region.contains]

/-- The regions of `r.minus w` hold exactly the cells of `r` that `w` does not hold. -/
theorem inRegions_minus (r w : Region) (a : Nat) :
    inRegions (r.minus w) a = (r.contains a && !w.contains a) := by
  rw [Bool.eq_iff_iff]
  simp only [inRegions, Region.minus, List.any_eq_true, List.mem_filter, List.mem_cons, List.not_mem_nil, or_false,
    decide_eq_true_eq, Bool.and_eq_true, Bool.not_eq_true', Region.contains_iff]
  rw [← Bool.not_eq_true, Region.contains_iff]
  constructor
  · rintro ⟨q, ⟨rfl | rfl, _⟩, h⟩ <;> simp only [] at h <;> constructor <;> omega
  · rintro ⟨h, hw⟩
    by_cases hl : a < w.base
    · exact ⟨_, ⟨.inl rfl, by simp only []; omega⟩, by simp only []; omega⟩
    · exact ⟨_, ⟨.inr rfl, by simp only []; omega⟩, by simp only []; omega⟩

@[simp] theorem inRegions_nil (a : Nat) : inRegions [] a = false := rfl

@[simp] theorem inRegions_append (xs ys : List Region) (a : Nat) :
    inRegions (xs ++ ys) a = (inRegions xs a || inRegions ys a) := by
  simp [inRegions, List.any_append]

/-- Cutting `w` out of a list of regions. -/
theorem inRegions_flatMap_minus (w : Region) (a : Nat) :
    ∀ rs : List Region, inRegions (rs.flatMap (fun r => r.minus w)) a = (inRegions rs a && !w.contains a)
  | [] => rfl
  | r :: rs => by
    have ih := inRegions_flatMap_minus w a rs
    rw [List.flatMap_cons, inRegions_append, inRegions_minus, ih]
    simp only [inRegions, List.any_cons]
    cases r.contains a <;> cases (rs.any fun r => r.contains a) <;> cases w.contains a <;> rfl

theorem inRegions_filter_nonempty (q : Region) (a : Nat) :
    inRegions ([q].filter (fun r => decide (0 < r.size))) a = q.contains a := by
  by_cases h : 0 < q.size
  · simp [inRegions, h]
  · have hc : q.contains a = false := by
      rw [← Bool.not_eq_true, Region.contains_iff]; omega
    simp [inRegions, h, hc]

/-- Which cells are unspecified once an operation that owned `w` has ended with `good` meaningful bytes: those that were
and are outside `w`, and those of `w` past the meaningful ones. -/
theorem inRegions_settleRegion (w : Region) (good : Nat) (voids : List Region) (a : Nat) :
    inRegions (settleRegion w good voids) a
      = ((inRegions voids a && !w.contains a) || (w.contains a && decide (w.base + good ≤ a))) := by
  unfold settleRegion
  split
  · next h =>
    have hw : w.contains a = false := by rw [← Bool.not_eq_true, Region.contains_iff]; omega
    simp [hw]
  · rw [inRegions_append, inRegions_flatMap_minus, inRegions_filter_nonempty]
    congr 1
    rw [Bool.eq_iff_iff]
    simp only [Region.contains_iff, Bool.and_eq_true, decide_eq_true_eq]
    omega

/-- Which cells are unspecified once a whole buffer has become so: those that were, and its own, wrapping or not. -/
theorem inRegions_voidBuffer {addrW : Nat} (base : Addr addrW) (n : Nat) (voids : List Region) (c : Addr addrW) :
    inRegions (voidBuffer base n voids) c.toNat = (inRegions voids c.toNat || inBuffer base n c) := by
  have hb := base.isLt
  have hc := c.isLt
  have hin : inBuffer base n c = true ↔
      (base.toNat ≤ c.toNat ∧ c.toNat < base.toNat + n) ∨ c.toNat < base.toNat + n - 2 ^ addrW := by
    rw [inBuffer, decide_eq_true_eq, BitVec.toNat_sub]
    by_cases hle : base.toNat ≤ c.toNat
    · rw [show 2 ^ addrW - base.toNat + c.toNat = c.toNat - base.toNat + 2 ^ addrW by omega, Nat.add_mod_right,
        Nat.mod_eq_of_lt (by omega)]
      omega
    · rw [Nat.mod_eq_of_lt (by omega)]
      omega
  rw [Bool.eq_iff_iff, voidBuffer, inRegions_settleRegion, inRegions_settleRegion]
  simp only [Bool.or_eq_true, Bool.and_eq_true, Bool.not_eq_true', ← Bool.not_eq_true, Region.contains_iff, hin,
    decide_eq_true_eq, addrSpace]
  cases inRegions voids c.toNat <;> simp <;> omega

/-- A cell that an outside agent wrote is no longer unspecified; the others are as they were. -/
theorem inRegions_settleCell (b : Nat) (voids : List Region) (a : Nat) :
    inRegions (settleCell b voids) a = (inRegions voids a && decide (a ≠ b)) := by
  unfold settleCell
  rw [inRegions_flatMap_minus]
  congr 1
  rw [Bool.eq_iff_iff, Bool.not_eq_true', ← Bool.not_eq_true, Region.contains_iff]
  simp only [decide_eq_true_eq]
  omega

/-- Regions that do not meet share no cell. -/
theorem Region.not_contains_of_meets_false {r q : Region} (h : r.meets q = false) {a : Nat}
    (hr : r.contains a = true) : q.contains a = false := by
  rw [Region.contains_iff] at hr
  rw [← Bool.not_eq_true, Region.contains_iff]
  simp only [Region.meets, Bool.and_eq_false_iff, decide_eq_false_iff_not] at h
  omega

end Sys2Proof.Machine
end

