-- ==== Sys2Proof/Laws/Words.lean ====
section
/-!
SUPPORT. Arithmetic of cursors and signed lengths at any width (R7): where the spec's bounds hold nothing wraps.
-/

namespace Sys2Proof.Machine

variable {xlen addrW : Nat}

/-- `signed(v)` of a positive length is its unsigned value, and lies in the lower half of the range. -/
theorem toInt_of_pos {v : Word xlen} (h : 0 < v.toInt) : v.toInt = v.toNat ∧ 2 * v.toNat < 2 ^ xlen := by
  rw [BitVec.toInt_eq_toNat_cond] at h ⊢
  have := v.isLt
  split at h <;> rename_i hc
  · exact ⟨by rw [if_pos hc], hc⟩
  · omega

/-- The same for a cursor or a capacity that is not negative. -/
theorem toInt_of_nonneg {v : Word xlen} (h : 0 ≤ v.toInt) : v.toInt = v.toNat ∧ 2 * v.toNat < 2 ^ xlen := by
  rw [BitVec.toInt_eq_toNat_cond] at h ⊢
  have := v.isLt
  split at h <;> rename_i hc
  · exact ⟨by rw [if_pos hc], hc⟩
  · omega

/-- A cursor below some word advances without wrapping. -/
theorem toNat_succ {v w : Word xlen} (h : v.toNat < w.toNat) : (v + 1#xlen).toNat = v.toNat + 1 := by
  have := w.isLt
  rw [BitVec.toNat_add, BitVec.toNat_ofNat, Nat.mod_eq_of_lt (a := 1) (by omega), Nat.mod_eq_of_lt (by omega)]

/-- A cursor below some word as signed numbers advances by 1 as a signed number. -/
theorem toInt_succ {v w : Word xlen} (hx : Config.xlenMin ≤ xlen) (h : v.toInt < w.toInt) :
    (v + 1#xlen).toInt = v.toInt + 1 := by
  have h1 : (1#xlen).toInt = 1 := by
    rw [BitVec.toInt_eq_toNat_cond, BitVec.toNat_ofNat]
    have : 2 ^ 9 ≤ 2 ^ xlen := Nat.pow_le_pow_right (by omega) hx
    rw [Nat.mod_eq_of_lt (by omega), if_pos (by omega)]
    rfl
  have hw := BitVec.toInt_lt (x := w)
  have hv := BitVec.le_toInt v
  obtain ⟨k, rfl⟩ : ∃ k, xlen = k + 1 := ⟨xlen - 1, by unfold Config.xlenMin at hx; omega⟩
  have hp : ((2 ^ (k + 1) : Nat) : Int) = 2 * 2 ^ k := by push_cast; ring
  rw [BitVec.toInt_add, h1, Int.bmod_eq_of_le] <;> simp only [Nat.add_sub_cancel] at hw hv <;> rw [hp] <;> omega

/-- A number below 512 is itself as a word (`XLEN >= 9`). -/
theorem toNat_ofNat_small (hx : Config.xlenMin ≤ xlen) {k : Nat} (hk : k < 512) : (BitVec.ofNat xlen k).toNat = k := by
  have : 2 ^ 9 ≤ 2 ^ xlen := Nat.pow_le_pow_right (by omega) hx
  rw [BitVec.toNat_ofNat, Nat.mod_eq_of_lt (by omega)]

/-- A count as a word (`XLEN >= 9`). -/
theorem toNat_setWidth_count (hx : Config.xlenMin ≤ xlen) (c : Count) : (c.setWidth xlen).toNat = c.toNat := by
  have : 2 ^ 9 ≤ 2 ^ xlen := Nat.pow_le_pow_right (by omega) hx
  have := c.isLt
  rw [BitVec.toNat_setWidth, Nat.mod_eq_of_lt (by omega)]

/-- The signed comparison of R94. -/
theorem Dec.full_iff (d : Dec xlen addrW) : d.full = true ↔ d.maxLen.toInt ≤ d.wr.toInt := by
  rw [Dec.full, BitVec.sle_iff_toInt_le]

/-- The length test of R74 and R97. -/
theorem sle_zero_iff (v : Word xlen) : v.sle 0#xlen = true ↔ v.toInt ≤ 0 := by
  rw [BitVec.sle_iff_toInt_le, BitVec.toInt_zero]

/-- The operand checks of R74, as numbers. -/
theorem encOperandsOk_iff (buf : Addr addrW) (len : Word xlen) :
    encOperandsOk buf len = true ↔ buf ≠ 0#addrW ∧ 0 < len.toInt := by
  rw [encOperandsOk, Bool.and_eq_true, decide_eq_true_eq, Bool.not_eq_true', ← Bool.not_eq_true, sle_zero_iff]
  exact and_congr_right fun _ => by omega

/-- The operand checks of R97, as numbers. -/
theorem decOperandsOk_iff (data : Addr addrW) (len : Word xlen) (out : Addr addrW) :
    decOperandsOk data len out = true ↔ data ≠ 0#addrW ∧ out ≠ 0#addrW ∧ 0 < len.toInt := by
  rw [decOperandsOk, Bool.and_eq_true, Bool.and_eq_true, decide_eq_true_eq, decide_eq_true_eq, Bool.not_eq_true',
    ← Bool.not_eq_true, sle_zero_iff, and_assoc]
  exact and_congr_right fun _ => and_congr_right fun _ => by omega

end Sys2Proof.Machine
end

