-- ==== Sys2Proof/Tests/Slice0.lean ====
section
/-!
SUPPORT. Small tests with expected values from the spec's tables and worked examples (95, R61, R85, R86, R95, R101), and
for every obligation with hypotheses a concrete state and operands that meet them (`witness_<Name>`).
-/

namespace Sys2Proof.Tests

open Sys2Proof Sys2Proof.Machine

/-- The word types have the widths Config names; the reset machine has the default widths of R6. -/
theorem test_widths :
    Byte = BitVec Config.byteW ∧ Count = BitVec 7 ∧ Config.maxRun = 2 ^ 7 - 1 ∧ State.reset.xlen = 32 ∧ State.reset.addrW = 32
      ∧ Config.xlenMin ≤ State.reset.xlen :=
  ⟨rfl, rfl, rfl, rfl, rfl, by decide⟩

/-- The widths are arguments (R6): at `XLEN = 9`, `ADDR_W = 10`, 255 is the largest length and 256 reads as negative. -/
theorem test_other_widths :
    (encCheck { Enc.reset 9 10 with st := .check, buf := 0x100#10, len := 255#9 }).st = .validate
      ∧ (encCheck { Enc.reset 9 10 with st := .check, buf := 0x100#10, len := 256#9 }).err = .invalidLength
      ∧ elementAddr (0x3FF#10) 1 = 0#10 := by decide

/-! ### Helpers: the buffer of R76's example at 0x100, the stream of R101's example at 0x300 -/

/-- `41 41 42` at 0x100 and `83 41 42 82 43` at 0x300. -/
def image : Memory :=
  [(0x100, 0x41#8), (0x101, 0x41#8), (0x102, 0x42#8), (0x300, 0x83#8), (0x301, 0x41#8), (0x302, 0x42#8), (0x303, 0x82#8), (0x304, 0x43#8)]

/-- The same with a byte at or above 0x80 in the buffer. -/
def badImage : Memory := memWrite image 0x102#32 0x80#8

/-- ENC on the buffer at 0x100. -/
def encAt (st : EncSt) (rd wr : Word 32) (cnt : Count) : Enc 32 32 :=
  { Enc.reset 32 32 with st := st, buf := 0x100#32, len := 3#32, rd := rd, wr := wr, cnt := cnt, cur := 0x41#8 }

/-- DEC on the stream at 0x300, `output` at 0x200 with room for `cap` bytes. -/
def decAt (st : DecSt) (rd wr : Word 32) (cnt : Count) (cap : Word 32) : Dec 32 32 :=
  { Dec.reset 32 32 with st := st, data := 0x300#32, len := 5#32, out := 0x200#32, maxLen := cap, rd := rd, wr := wr, cnt := cnt, val := 0x41#8 }

/-- The machine with those two blocks. -/
def machineAt (e : Enc 32 32) (d : Dec 32 32) : Chip 32 32 := { Chip.reset 32 32 with enc := e, dec := d, mem := image }

/-- The next state of an outcome, if it is one. -/
def after (o : Host.Outcome State Fault Refusal) : Option State :=
  match o with
  | .next t => some t
  | .fault _ => none
  | .refused _ => none

/-! ### Well-formedness (R51 to R53) -/

theorem test_wellFormed_refuses_count_zero : (Instr.run 0#7 0x41#8).countOk = false := by decide

theorem test_wellFormed_refuses_high_value : (Instr.run 2#7 0x90#8).valueOk = false := by decide

theorem test_wellFormed_accepts :
    (Instr.lit 127#7).wellFormed = true ∧ (Instr.run 1#7 0x7F#8).wellFormed = true ∧ (Instr.run 1#7 0x7F#8).emittable = false := by
  decide

/-! ### Encodings, bit by bit (R45, R46, 95 section 2.5) -/

theorem test_decode_lit : decode [0b01000010#8] = .ok (.lit 0b1000010#7, []) := by rfl

theorem test_decode_run : decode [0b10000011#8, 0b01000001#8] = .ok (.run 0b0000011#7 0b01000001#8, []) := by rfl

theorem test_decode_value_is_no_marker : decode [0b10000001#8, 0b10000001#8] = .ok (.run 1#7 0x81#8, []) := by rfl

theorem test_decode_lone_marker : decode [0b10000101#8] = .error .truncated := by rfl

theorem test_encode : encode (.lit 127#7) = [0x7F#8] ∧ encode (.run 127#7 0x58#8) = [0xFF#8, 0x58#8] := by decide

theorem test_table_words :
    decodeTableWord 8 0x00 = some (.lit 0#7) ∧ decodeTableWord 16 0x4183 = some (.run 3#7 0x41#8)
      ∧ decodeTableWord 8 0x80 = some (.run 0#7 0x00#8) := by decide

/-! ### The tokens, one step each -/

/-- Placed after reset, `LIT 'A'` is the first instruction that runs: one byte out (R135). -/
theorem test_step_lit :
    (after (step (State.reset.withFetchWord 8 0x41))).map (fun t => (t.chip.dec.st, t.chip.dec.rd.toNat, t.chip.dec.wr.toNat, memRead t.chip.mem 0x200#32))
      = some (.fetch, 1, 1, 0x41#8) := by decide

/-- Placed after reset, `RUN 3,'A'` writes three bytes and ends with `RESULT = 3` (R136's example). -/
theorem test_step_run :
    (after (step (State.reset.withFetchWord 16 0x4183))).map
        (fun t => (t.chip.dec.st, t.chip.dec.result.toInt, t.chip.dec.err, bytesAt t.chip.mem 0x200#32 4))
      = some (.done, 3, .none, [0x41#8, 0x41#8, 0x41#8, 0x00#8]) := by decide

/-- 95: `41` into capacity 0: -1, `OUTPUT_OVERFLOW`, nothing written. -/
theorem test_lit_overflow :
    (after (exec (.lit 0x41#7) ⟨machineAt (Enc.reset 32 32) (decAt .fetch 2#32 0#32 0#7 0#32)⟩)).map
        (fun t => (t.chip.dec.result.toInt, t.chip.dec.err, t.chip.mem == image)) = some (-1, .outputOverflow, true) := by decide

/-- 95: a run of 5 into capacity 3: three bytes written, then -1, `OUTPUT_OVERFLOW`. -/
theorem test_run_overflow :
    (after (exec (.run 5#7 0x41#8) ⟨machineAt (Enc.reset 32 32) (decAt .fetch 0#32 0#32 0#7 3#32)⟩)).map
        (fun t => (t.chip.dec.result.toInt, t.chip.dec.err, t.chip.dec.wr.toNat, t.chip.dec.cnt, bytesAt t.chip.mem 0x200#32 4))
      = some (-1, .outputOverflow, 3, 2#7, [0x41#8, 0x41#8, 0x41#8, 0x00#8]) := by decide

/-! ### ENC and DEC, one transition each (R86, R101) -/

theorem test_enc_head :
    ((encAt .head 0#32 0#32 0#7).transition image).1 = encAt .scan 1#32 0#32 1#7 := by decide

theorem test_enc_scan_differs :
    ((encAt .scan 2#32 0#32 2#7).transition image).1 = encAt .emit 2#32 0#32 2#7 := by decide

theorem test_enc_emit_marker :
    let r := (encAt .emit 2#32 0#32 2#7).transition image
    r.1 = encAt .emitv 2#32 1#32 2#7 ∧ memRead r.2 0x100#32 = 0x82#8 := by decide

theorem test_enc_validate_bad :
    let r := (encAt .validate 2#32 0#32 0#7).transition badImage
    r.1.st = .done ∧ r.1.result = -1#32 ∧ r.1.err = .invalidPayload ∧ r.1.rd = 2#32 ∧ r.2 = badImage := by decide

theorem test_dec_fetch_marker :
    ((decAt .fetch 0#32 0#32 0#7 6#32).transition image).1 = decAt .value 1#32 0#32 3#7 6#32 := by decide

theorem test_dec_expand_writes :
    let r := (decAt .expand 2#32 0#32 3#7 6#32).transition image
    r.1 = decAt .expand 2#32 1#32 2#7 6#32 ∧ memRead r.2 0x200#32 = 0x41#8 := by decide

theorem test_dec_check_null_first :
    let d := { decAt .check 0#32 0#32 0#7 6#32 with out := 0#32, len := 0#32 }
    (d.transition image).1.err = .invalidArgument ∧ (d.transition image).1.result = -1#32 := by decide

/-! ### The functions (R61, R85, R95) -/

theorem test_validate : validate [0x00#8, 0x7F#8] = true ∧ validate [0x41#8, 0x42#8, 0xC8#8, 0x01#8] = false := by decide

theorem test_enc_scenario3 :
    rleEnc [0x41#8, 0x41#8, 0x41#8, 0x42#8, 0x43#8, 0x43#8] = [0x83#8, 0x41#8, 0x42#8, 0x82#8, 0x43#8] := by decide

theorem test_enc_cap : groups (List.replicate 128 0x00#8) = [(127, 0x00#8), (1, 0x00#8)] := by decide

theorem test_dec_stream_order :
    rleDec [0x41#8, 0x85#8] 9 = .fail .truncatedStream ∧ rleDec [0x41#8, 0x85#8] 0 = .fail .outputOverflow
      ∧ rleDec [0x80#8, 0x80#8] (-1) = .ok [] := by decide

theorem test_canonical :
    canonical [0x81#8, 0x41#8] = false ∧ wellFormedStream [0x81#8, 0x41#8] = true ∧ canonical [0x82#8, 0x41#8] = true := by decide

/-! ### Host, handshake and reset (95 section 2.6) -/

theorem test_idle_after_reset : (Chip.reset 32 32).enc.done = false ∧ (Chip.reset 32 32).enc.busy = false ∧ step State.reset = .next State.reset := by
  exact ⟨by decide, by decide, rfl⟩

theorem test_start_while_busy :
    move .startEnc (machineAt (encAt .scan 1#32 0#32 1#7) (Dec.reset 32 32)) = .fault .startWhileBusy := by rfl

theorem test_read_after_done :
    (after (move .readEnc (machineAt { encAt .done 3#32 3#32 1#7 with result := 3#32 } (Dec.reset 32 32)))).map
      (fun t => (t.chip.host.result.toInt, t.chip.host.err)) = some (3, .none) := by decide

/-! ### Witnesses: the hypotheses of each obligation can be met, clause by clause, at the ends of their ranges -/

/-- Every witness is at `XLEN = 32`, which meets the premise `Config.xlenMin ≤ xlen` that many of them share. -/
theorem witness_width : Config.xlenMin ≤ 32 := by decide

/-- Both blocks in mid-operation on disjoint buffers (95 P5), ENC about to write its marker, DEC its first copy. -/
def both : Chip 32 32 := machineAt (encAt .emit 2#32 0#32 2#7) (decAt .expand 2#32 0#32 3#7 6#32)

/-- Both blocks idle, the ports driven with the buffers of the two examples. -/
def driven (buf out : Addr 32) (maxLen : Word 32) : Chip 32 32 :=
  { machineAt (Enc.reset 32 32) (Dec.reset 32 32) with ports := { buf := buf, encLen := 3#32, data := 0x300#32, decLen := 5#32, out := out, maxLen := maxLen } }

theorem emit_inv : (encAt .emit 2#32 0#32 2#7).Inv image := by
  simp only [Enc.Inv, encAt, Enc.Launched, Enc.GroupOpen, Enc.RestValid, Enc.reset]; decide

theorem expand_inv : (decAt .expand 2#32 0#32 3#7 6#32).Inv image := by
  simp only [Dec.Inv, decAt, Dec.Launched, Dec.CursorOk, Dec.reset]; decide

/-- The ends of a buffer; DEC reset in `D_CHECK` with operands that will fail their checks. -/
theorem witness_ResetMoveAbandonsTheOperation :
    let f : Dec 32 32 := { decAt .check 0#32 0#32 0#7 6#32 with data := 0#32 }
    both.enc.busy = true ∧ inBuffer both.enc.buf (clipSize both.enc.len) 0x102#32 = true
      ∧ inBuffer both.enc.buf (clipSize both.enc.len) 0x103#32 = false
      ∧ f.busy = true ∧ inBuffer f.out (clipSize f.maxLen) 0x205#32 = true ∧ inBuffer f.out (clipSize f.maxLen) 0x206#32 = false
      ∧ f.outBuffer.contains 0x205 = false := by decide

theorem witness_FirstByteSelectsToken : (0x7F#8).toNat < 128 ∧ 128 ≤ (0x80#8).toNat := by decide

theorem witness_EncodedParseIsStream : parse [0x83#8, 0x41#8, 0x42#8] = some [.run 3#7 0x41#8, .lit 0x42#7] := by decide

theorem witness_ParseFollowsItsEquations : (0x00#8).toNat < 128 ∧ 128 ≤ (0xFF#8).toNat := by decide

theorem witness_GroupsAreGreedyCappedRuns : (127, 0x58#8) ∈ groups (List.replicate 130 0x58#8) := by decide

theorem witness_EncodingNeverGrows : (1, 0x41#8) ∈ groups [0x41#8] ∧ 1 ≤ [0x41#8].length := by decide

theorem witness_EncodingIsCanonical : ∀ b ∈ [0x7F#8, 0x00#8], b.toNat < 128 := by decide

theorem witness_DecodingOfEncodingRoundTrips :
    (∀ b ∈ [0x7F#8], b.toNat < 128) ∧ 1 ≤ [0x7F#8].length ∧ (([0x7F#8] : List Byte).length : Int) ≤ 1 := by decide

theorem witness_ZeroLengthOutputOnlyFromEmptyRuns : rleDec [0x80#8, 0x41#8] 0 = .ok [] := by decide

/-- A null base, the largest non-positive length, the smallest length that passes. -/
theorem witness_EncCheckTestsOperands :
    ({ encAt .check 0#32 0#32 0#7 with buf := 0#32 }.transition image).1.err = .invalidArgument
      ∧ ({ encAt .check 0#32 0#32 0#7 with len := 0#32 }.transition image).1.err = .invalidLength
      ∧ ({ encAt .check 0#32 0#32 0#7 with len := 1#32 }.transition image).1.st = .validate := by decide

theorem witness_EncValidateScansOneByte :
    ((encAt .validate 1#32 0#32 0#7).transition image).1.rd = 2#32
      ∧ ((encAt .validate 2#32 0#32 0#7).transition image).1.st = .head
      ∧ ((encAt .validate 2#32 0#32 0#7).transition badImage).1.st = .done := by decide

theorem witness_EncHeadOpensGroup : (encAt .head 0#32 0#32 0#7).st = .head := by decide

/-- Input exhausted, cap reached, equal byte, differing byte. -/
theorem witness_EncScanExtendsOrClosesGroup :
    ((encAt .scan 3#32 0#32 1#7).transition image).1.st = .emit ∧ ((encAt .scan 1#32 0#32 127#7).transition image).1.st = .emit
      ∧ ((encAt .scan 1#32 0#32 126#7).transition image).1.cnt = 127#7
      ∧ ((encAt .scan 2#32 0#32 1#7).transition image).1.st = .emit := by decide

theorem witness_EncEmitWritesLiteralOrMarker :
    ((encAt .emit 3#32 2#32 1#7).transition image).1.st = .done ∧ ((encAt .emit 2#32 0#32 1#7).transition image).1.st = .head
      ∧ ((encAt .emit 2#32 0#32 2#7).transition image).1.st = .emitv ∧ (encAt .emit 2#32 0#32 2#7).Inv image :=
  ⟨by decide, by decide, by decide, emit_inv⟩

theorem witness_EncEmitvWritesValue :
    ((encAt .emitv 3#32 1#32 2#7).transition image).1.result = 2#32
      ∧ ((encAt .emitv 2#32 1#32 2#7).transition image).1.st = .head := by decide

theorem witness_CompressRejectsBadPayload :
    let e := encAt .check 0#32 0#32 0#7
    e.st = .check ∧ e.Launched ∧ (∃ i, i < e.len.toNat ∧ 128 ≤ (e.cell badImage i).toNat) ∧ e.len.toNat + 1 ≤ 4 := by
  simp only [Enc.Launched]; exact ⟨by decide, by decide, ⟨2, by decide⟩, by decide⟩

theorem witness_CompressWritesEncoding :
    let e := encAt .check 0#32 0#32 0#7
    e.st = .check ∧ e.Launched ∧ image.wf 32 = true ∧ ∀ b ∈ bytesAt image e.buf e.len.toNat, b.toNat < 128 := by
  simp only [Enc.Launched]; decide

theorem witness_CompressTakesExactlyItsSteps :
    let e := encAt .check 0#32 0#32 0#7
    e.st = .check ∧ e.Launched ∧ image.wf 32 = true ∧ (∀ b ∈ bytesAt image e.buf e.len.toNat, b.toNat < 128)
      ∧ { e with len := 0#32 }.len.toInt ≤ 0 ∧ { e with buf := 0#32 }.buf = 0#32 := by
  simp only [Enc.Launched]; decide

theorem witness_EncInvariantIsKept : image.wf 32 = true ∧ (encAt .emit 2#32 0#32 2#7).Inv image := ⟨by decide, emit_inv⟩

/-- The read at the last index, the write at index 0. -/
theorem witness_EncAccessesStayInBounds :
    (encAt .head 2#32 2#32 2#7).Inv image ∧ (encAt .head 2#32 2#32 2#7).access = .read 0x102#32
      ∧ (encAt .emit 2#32 0#32 2#7).Inv image ∧ (encAt .emit 2#32 0#32 2#7).access = .write 0x100#32 0x82#8 :=
  ⟨by simp only [Enc.Inv, encAt, Enc.Launched, Enc.RestValid, Enc.reset]; decide, by decide, emit_inv, by decide⟩

/-- A literal, a marker, a value byte. -/
theorem witness_EncWritesOnlyGrammarBytes :
    (encAt .emit 1#32 0#32 1#7).Inv image ∧ (encAt .emit 1#32 0#32 1#7).access = .write 0x100#32 0x41#8
      ∧ (encAt .emit 2#32 0#32 2#7).Inv image ∧ (encAt .emit 2#32 0#32 2#7).access = .write 0x100#32 0x82#8
      ∧ (encAt .emitv 2#32 1#32 2#7).Inv image ∧ (encAt .emitv 2#32 1#32 2#7).access = .write 0x101#32 0x41#8 := by
  refine ⟨?_, by decide, emit_inv, by decide, ?_, by decide⟩ <;>
    simp only [Enc.Inv, encAt, Enc.Launched, Enc.GroupOpen, Enc.RestValid, Enc.reset] <;> decide

theorem witness_EncForgetsEarlierOperations :
    let e₁ := encAt .check 0#32 0#32 0#7
    let e₂ := { encAt .check 7#32 9#32 5#7 with cur := 0x7F#8, result := 5#32, err := .invalidPayload }
    e₁.st = .check ∧ e₂.st = .check ∧ e₁.buf = e₂.buf ∧ e₁.len = e₂.len ∧ (Enc.run 1 { e₁ with len := 0#32 } image).1.st = .done := by
  decide

/-- `DATA` null, `OUT` null, `LEN` 0, `LEN` 1. -/
theorem witness_DecCheckTestsOperands :
    let d := decAt .check 0#32 0#32 0#7 6#32
    ({ d with data := 0#32 }.transition image).1.err = .invalidArgument ∧ ({ d with out := 0#32 }.transition image).1.err = .invalidArgument
      ∧ ({ d with len := 0#32 }.transition image).1.err = .invalidLength ∧ ({ d with len := 1#32 }.transition image).1.st = .fetch := by
  decide

/-- A literal, a marker with its value byte, a marker that is the last byte. -/
theorem witness_DecFetchClassifiesFirstByte :
    ((decAt .fetch 2#32 3#32 0#7 6#32).transition image).1.cnt = 1#7 ∧ ((decAt .fetch 3#32 4#32 0#7 6#32).transition image).1.st = .value
      ∧ ({ decAt .fetch 3#32 4#32 0#7 6#32 with len := 4#32 }.transition image).1.err = .truncatedStream := by decide

theorem witness_DecValueTakesWholeByte : (decAt .value 1#32 0#32 3#7 6#32).st = .value := by decide

/-- Closing at the end and before it, the last byte that fits, the first that does not. -/
theorem witness_DecExpandWritesOrCloses :
    ((decAt .expand 5#32 6#32 0#7 6#32).transition image).1.result = 6#32 ∧ ((decAt .expand 2#32 3#32 0#7 6#32).transition image).1.st = .fetch
      ∧ ((decAt .expand 5#32 5#32 1#7 6#32).transition image).1.wr = 6#32
      ∧ ((decAt .expand 5#32 6#32 1#7 6#32).transition image).1.err = .outputOverflow ∧ (decAt .expand 5#32 6#32 1#7 6#32).CursorOk := by
  simp only [Dec.CursorOk]; decide

/-- The last byte that fits; the literal is the last token, and it is not. -/
theorem witness_LitTokenCopiesItsByte :
    (decAt .fetch 4#32 5#32 0#7 6#32).st = .fetch ∧ (decAt .fetch 4#32 5#32 0#7 6#32).wr.toInt < (decAt .fetch 4#32 5#32 0#7 6#32).maxLen.toInt
      ∧ (decAt .fetch 4#32 5#32 0#7 6#32).rd + 1#32 = (decAt .fetch 4#32 5#32 0#7 6#32).len
      ∧ (decAt .fetch 3#32 5#32 0#7 6#32).rd + 1#32 ≠ (decAt .fetch 3#32 5#32 0#7 6#32).len := by decide

theorem witness_LitTokenOverflows :
    (decAt .fetch 4#32 6#32 0#7 6#32).st = .fetch ∧ (decAt .fetch 4#32 6#32 0#7 6#32).maxLen.toInt ≤ (decAt .fetch 4#32 6#32 0#7 6#32).wr.toInt := by
  decide

/-- The exact fit of three copies, and a run of none where nothing fits; the last token, and one before it. -/
theorem witness_RunTokenWritesItsCopies :
    let d := decAt .fetch 3#32 3#32 0#7 6#32
    let d₀ := decAt .fetch 0#32 6#32 0#7 6#32
    d.st = .fetch ∧ d.rd + 1#32 ≠ d.len ∧ image.wf 32 = true ∧ d.wr.toInt + ((3#7).toNat : Int) ≤ d.maxLen.toInt ∧ d.rd + 2#32 = d.len
      ∧ d₀.st = .fetch ∧ d₀.rd + 1#32 ≠ d₀.len ∧ (0#7).toNat = 0 ∧ d₀.rd + 2#32 ≠ d₀.len := by decide

/-- One copy too many. -/
theorem witness_RunTokenOverflowsAtCapacity :
    let d := decAt .fetch 0#32 3#32 0#7 6#32
    d.st = .fetch ∧ d.rd + 1#32 ≠ d.len ∧ image.wf 32 = true ∧ 1 ≤ (4#7).toNat ∧ d.maxLen.toInt < d.wr.toInt + ((4#7).toNat : Int) := by decide

theorem witness_RunTokenTruncated :
    let s : Chip 32 32 := { machineAt (Enc.reset 32 32) { decAt .fetch 3#32 3#32 0#7 6#32 with len := 4#32 } with schedule := [.token] }
    s.schedule = .token :: [] ∧ s.dec.st = .fetch ∧ s.dec.rd + 1#32 = s.dec.len
      ∧ 128 ≤ (memRead s.mem (elementAddr s.dec.data s.dec.rd.toNat)).toNat := by decide

theorem witness_TokensChangeNothingElse :
    (∃ t : Chip 32 32, exec (.lit 0x42#7) ⟨machineAt (Enc.reset 32 32) (decAt .fetch 2#32 3#32 0#7 6#32)⟩ = .next ⟨t⟩ ∧ t.dec.st ≠ .done)
      ∧ ∃ t : Chip 32 32, exec (.run 3#7 0x41#8) ⟨machineAt (Enc.reset 32 32) (decAt .fetch 0#32 0#32 0#7 6#32)⟩ = .next ⟨t⟩ ∧ t.dec.st ≠ .done :=
  ⟨⟨_, rfl, by decide⟩, ⟨_, rfl, by decide⟩⟩

theorem witness_TokensCompleteFromFetch :
    (decAt .fetch 0#32 0#32 0#7 6#32).st = .fetch ∧ (decAt .value 1#32 0#32 3#7 6#32).st ≠ .fetch := by decide

/-- A literal and a run. -/
theorem witness_TokenEqualsItsTransitions :
    (decAt .fetch 2#32 3#32 0#7 6#32).st = .fetch ∧ decode ((decAt .fetch 2#32 3#32 0#7 6#32).window image) = .ok (.lit 0x42#7, [0x82#8])
      ∧ decode ((decAt .fetch 0#32 0#32 0#7 6#32).window image) = .ok (.run 3#7 0x41#8, []) := ⟨by decide, by rfl, by rfl⟩

theorem witness_StepRunsDecodedToken :
    let s : Chip 32 32 := { machineAt (Enc.reset 32 32) (decAt .fetch 0#32 0#32 0#7 6#32) with schedule := [.token] }
    s.schedule = .token :: [] ∧ s.dec.st = .fetch ∧
      decode (memRead s.mem (elementAddr s.dec.data s.dec.rd.toNat)
        :: if s.dec.rd + 1#32 = s.dec.len then [] else [memRead s.mem (elementAddr s.dec.data (s.dec.rd + 1#32).toNat)])
        = .ok (.run 3#7 0x41#8, []) := ⟨by decide, by decide, by rfl⟩

/-- The exact fit, and one byte short. -/
theorem witness_DecompressComputesDecoding :
    let d := decAt .check 0#32 0#32 0#7 6#32
    let d' := decAt .check 0#32 0#32 0#7 5#32
    d.st = .check ∧ d.Launched ∧ image.wf 32 = true
      ∧ rleDec (bytesAt image d.data d.len.toNat) d.maxLen.toInt = .ok [0x41#8, 0x41#8, 0x41#8, 0x42#8, 0x43#8, 0x43#8]
      ∧ 1 + 2 * d.len.toNat + 6 ≤ 17
      ∧ d'.st = .check ∧ d'.Launched ∧ rleDec (bytesAt image d'.data d'.len.toNat) d'.maxLen.toInt = .fail .outputOverflow
      ∧ 1 + 2 * d'.len.toNat + clipSize d'.maxLen ≤ 16 := by
  simp only [Dec.Launched]; decide

theorem witness_DecompressEndsWithinItsBound :
    let d := decAt .check 0#32 0#32 0#7 6#32
    d.st = .check ∧ d.Launched ∧ image.wf 32 = true ∧ { d with data := 0#32 }.data = 0#32 ∧ { d with out := 0#32 }.out = 0#32
      ∧ { d with len := 0#32 }.len.toInt ≤ 0 := by
  simp only [Dec.Launched]; decide

theorem witness_DecInvariantIsKept : image.wf 32 = true ∧ (decAt .expand 2#32 0#32 3#7 6#32).Inv image := ⟨by decide, expand_inv⟩

theorem witness_DecStaysOnTokenBoundaries :
    image.wf 32 = true ∧ (decAt .expand 2#32 0#32 3#7 6#32).Inv image ∧ (decAt .expand 2#32 0#32 3#7 6#32).OnBoundary image :=
  ⟨by decide, expand_inv, by simp only [Dec.OnBoundary, decAt, Dec.reset]; decide⟩

/-- The read at the last index, the write at the last index. -/
theorem witness_DecAccessesStayInBounds :
    (decAt .value 4#32 4#32 2#7 6#32).Inv image ∧ (decAt .value 4#32 4#32 2#7 6#32).access = .read 0x304#32
      ∧ (decAt .expand 5#32 5#32 1#7 6#32).Inv image ∧ (decAt .expand 5#32 5#32 1#7 6#32).access = .write 0x205#32 0x41#8 := by
  refine ⟨?_, by decide, ?_, by decide⟩ <;> simp only [Dec.Inv, decAt, Dec.Launched, Dec.CursorOk, Dec.cell, Dec.reset] <;> decide

theorem witness_DecForgetsEarlierOperations :
    let d₁ := decAt .check 0#32 0#32 0#7 6#32
    let d₂ := { decAt .check 7#32 9#32 5#7 6#32 with val := 0x7F#8, result := 5#32, err := .truncatedStream }
    d₁.st = .check ∧ d₂.st = .check ∧ d₁.data = d₂.data ∧ d₁.len = d₂.len ∧ d₁.out = d₂.out ∧ d₁.maxLen = d₂.maxLen
      ∧ (Dec.run 1 { d₁ with len := 0#32 } image).1.st = .done := by decide

theorem witness_FailuresWriteNoMemory :
    let e := encAt .validate 2#32 0#32 0#7
    let d := decAt .expand 2#32 6#32 3#7 6#32
    e.busy = true ∧ (e.transition badImage).1.st = .done ∧ (e.transition badImage).1.err ≠ .none
      ∧ d.busy = true ∧ (d.transition image).1.st = .done ∧ (d.transition image).1.err ≠ .none := by decide

/-- The smallest success and a failure of each block. -/
theorem witness_SuccessIsErrZero :
    let e := { encAt .done 3#32 1#32 3#7 with result := 1#32 }
    let d := decAt .done 5#32 0#32 0#7 6#32
    e.Inv image ∧ e.done = true ∧ { e with result := -1#32, err := .invalidPayload }.Inv image
      ∧ d.Inv image ∧ d.done = true ∧ { d with result := -1#32, err := .outputOverflow }.Inv image := by
  simp only [Enc.Inv, Enc.Reported, encAt, Enc.reset, Dec.Inv, Dec.Reported, decAt, Dec.reset]; decide

/-- Success and -1 of ENC, success and overflow of DEC; the last cell of the buffer and the first beyond it. -/
theorem witness_UnspecifiedCellsAfterAnOperation :
    let s := machineAt (encAt .emitv 3#32 1#32 2#7) (decAt .expand 5#32 5#32 0#7 6#32)
    let f := { machineAt (encAt .validate 2#32 0#32 0#7) (decAt .expand 5#32 6#32 1#7 6#32) with mem := badImage }
    s.enc.busy = true ∧ (encMove s).enc.st = .done ∧ (encMove s).enc.err = .none ∧ s.enc.buffer.contains 0x102 = true
      ∧ s.enc.buffer.contains 0x103 = false ∧ (encMove f).enc.err = .invalidPayload
      ∧ s.dec.busy = true ∧ (decMove s).dec.st = .done ∧ (decMove s).dec.err = .none ∧ s.dec.outBuffer.contains 0x205 = true
      ∧ s.dec.outBuffer.contains 0x206 = false ∧ (decMove f).dec.err = .outputOverflow := by decide

/-- Buffers that end exactly at the top of the address space; one block started while the other runs. -/
theorem witness_StartLatchesThePorts :
    let s := driven 0xFFFFFFFD#32 0xFFFFFF00#32 0x100#32
    let t := { driven 0x100#32 0x200#32 6#32 with dec := decAt .fetch 0#32 0#32 0#7 6#32 }
    let u := { driven 0x100#32 0x200#32 6#32 with enc := encAt .head 0#32 0#32 0#7 }
    both.enc.busy = true ∧ both.dec.busy = true
      ∧ s.enc.busy = false ∧ s.ports.buf.toNat + clipSize s.ports.encLen ≤ 2 ^ 32
      ∧ (t.enc.busy = false ∧ t.ports.buf.toNat + clipSize t.ports.encLen ≤ 2 ^ 32 ∧ t.dec.busy = true ∧ ∀ a, t.ports.buf.toNat ≤ a → a < t.ports.buf.toNat + clipSize t.ports.encLen →
        t.dec.dataBuffer.contains a = false ∧ t.dec.outBuffer.contains a = false)
      ∧ s.dec.busy = false ∧ s.ports.data.toNat + clipSize s.ports.decLen ≤ 2 ^ 32
      ∧ s.ports.out.toNat + clipSize s.ports.maxLen ≤ 2 ^ 32
      ∧ (∀ a, s.ports.data.toNat ≤ a → a < s.ports.data.toNat + clipSize s.ports.decLen →
        ¬ (s.ports.out.toNat ≤ a ∧ a < s.ports.out.toNat + clipSize s.ports.maxLen))
      ∧ u.dec.busy = false ∧ u.ports.data.toNat + clipSize u.ports.decLen ≤ 2 ^ 32
      ∧ u.ports.out.toNat + clipSize u.ports.maxLen ≤ 2 ^ 32
      ∧ (∀ a, u.ports.data.toNat ≤ a → a < u.ports.data.toNat + clipSize u.ports.decLen →
        ¬ (u.ports.out.toNat ≤ a ∧ a < u.ports.out.toNat + clipSize u.ports.maxLen))
      ∧ u.enc.busy = true ∧ ∀ a,
        (u.ports.data.toNat ≤ a ∧ a < u.ports.data.toNat + clipSize u.ports.decLen)
          ∨ (u.ports.out.toNat ≤ a ∧ a < u.ports.out.toNat + clipSize u.ports.maxLen) → u.enc.buffer.contains a = false := by
  refine ⟨by decide, by decide, by decide, by decide, by decide, by decide, by decide, by decide, by decide,
    by decide, by decide, by decide, by decide, by decide, ?_⟩
  intro a h
  simp [driven, machineAt, encAt, Enc.reset, Enc.buffer, encRegion, encOperandsOk, clipSize, Region.contains, Config.nullAddr] at h ⊢
  omega

/-- Launches whose operand checks will fail and whose named buffers wrap: `DATA` null, `BUF` null, a length of 0. -/
theorem witness_StartLatchesThePorts_failing :
    let s := { driven 0#32 0xFFFFFFFF#32 6#32 with ports := { (driven 0#32 0xFFFFFFFF#32 6#32).ports with data := 0#32 } }
    let t := { driven 0xFFFFFFFF#32 0#32 6#32 with ports := { (driven 0xFFFFFFFF#32 0#32 6#32).ports with encLen := 0#32 } }
    s.enc.busy = false ∧ s.dec.busy = false ∧ s.ports.buf = 0#32 ∧ s.ports.data = 0#32 ∧ 2 ^ 32 < s.ports.out.toNat + clipSize s.ports.maxLen
      ∧ t.ports.encLen.toInt ≤ 0 ∧ t.ports.out = 0#32 := by decide

/-- One cell past the top of the address space; buffers that share their last or first cell. -/
theorem witness_LaunchesWithoutMeaningAreRefused :
    let s := driven 0xFFFFFFFE#32 0xFFFFFF00#32 0x101#32
    let t := { driven 0x2FE#32 0x304#32 6#32 with dec := decAt .fetch 0#32 0#32 0#7 6#32 }
    let w := driven 0x100#32 0x304#32 6#32
    let u := { driven 0x100#32 0x102#32 6#32 with enc := encAt .head 0#32 0#32 0#7 }
    (s.enc.busy = false ∧ s.ports.buf ≠ 0#32 ∧ 0 < s.ports.encLen.toInt ∧ 2 ^ 32 < s.ports.buf.toNat + s.ports.encLen.toNat)
      ∧ (t.enc.busy = false ∧ t.dec.busy = true ∧ t.ports.buf ≠ 0#32 ∧ 0 < t.ports.encLen.toInt ∧ t.ports.buf.toNat + t.ports.encLen.toNat ≤ 2 ^ 32 ∧ t.ports.buf.toNat ≤ 0x300
        ∧ 0x300 < t.ports.buf.toNat + t.ports.encLen.toNat ∧ t.dec.dataBuffer.contains 0x300 = true)
      ∧ (s.dec.busy = false ∧ s.ports.data ≠ 0#32 ∧ s.ports.out ≠ 0#32 ∧ 0 < s.ports.decLen.toInt
        ∧ 2 ^ 32 < s.ports.out.toNat + clipSize s.ports.maxLen)
      ∧ (w.dec.busy = false ∧ w.ports.data ≠ 0#32 ∧ w.ports.out ≠ 0#32 ∧ 0 < w.ports.decLen.toInt ∧ w.ports.data.toNat + w.ports.decLen.toNat ≤ 2 ^ 32
        ∧ w.ports.out.toNat + clipSize w.ports.maxLen ≤ 2 ^ 32 ∧ w.ports.data.toNat ≤ 0x304
        ∧ 0x304 < w.ports.data.toNat + w.ports.decLen.toNat ∧ w.ports.out.toNat ≤ 0x304
        ∧ 0x304 < w.ports.out.toNat + clipSize w.ports.maxLen)
      ∧ u.dec.busy = false ∧ u.enc.busy = true ∧ u.ports.data ≠ 0#32 ∧ u.ports.out ≠ 0#32 ∧ 0 < u.ports.decLen.toInt
        ∧ u.ports.data.toNat + u.ports.decLen.toNat ≤ 2 ^ 32 ∧ u.ports.out.toNat + clipSize u.ports.maxLen ≤ 2 ^ 32
        ∧ (∀ b, u.ports.data.toNat ≤ b → b < u.ports.data.toNat + u.ports.decLen.toNat →
          ¬ (u.ports.out.toNat ≤ b ∧ b < u.ports.out.toNat + clipSize u.ports.maxLen))
        ∧ (u.ports.out.toNat ≤ 0x102 ∧ 0x102 < u.ports.out.toNat + clipSize u.ports.maxLen)
        ∧ u.enc.buffer.contains 0x102 = true := by decide

theorem witness_ReportsAreReadOnlyWhenDone :
    (encAt .done 3#32 3#32 1#7).st = .done ∧ both.enc.st ≠ .done ∧ (decAt .done 5#32 6#32 0#7 6#32).st = .done ∧ both.dec.st ≠ .done := by decide

/-- The last cell of each buffer, and the first cell beyond it. -/
theorem witness_StoresOfOtherAgents :
    let in' (base : Addr 32) (n : Word 32) (c : Addr 32) := inBuffer base (clipSize n) c
    both.enc.busy = true ∧ in' both.enc.buf both.enc.len 0x102#32 = true ∧ both.dec.busy = true
      ∧ in' both.dec.data both.dec.len 0x304#32 = true ∧ in' both.dec.out both.dec.maxLen 0x205#32 = true
      ∧ in' both.enc.buf both.enc.len 0x103#32 = false ∧ in' both.dec.data both.dec.len 0x103#32 = false
      ∧ in' both.dec.out both.dec.maxLen 0x103#32 = false ∧ both.mem.wf 32 = true := by decide

/-- A cell of each buffer, of which another agent may read the `data` one, and free cells. -/
theorem witness_LoadsOfOtherAgents :
    let in' (base : Addr 32) (n : Word 32) (c : Addr 32) := inBuffer base (clipSize n) c
    both.enc.busy = true ∧ in' both.enc.buf both.enc.len 0x100#32 = true ∧ both.dec.busy = true
      ∧ in' both.dec.out both.dec.maxLen 0x200#32 = true ∧ in' both.dec.data both.dec.len 0x304#32 = true
      ∧ in' both.enc.buf both.enc.len 0x304#32 = false ∧ in' both.dec.out both.dec.maxLen 0x304#32 = false
      ∧ both.owned 0x103#32 = false ∧ both.owned 0x206#32 = false := by decide

/-- A cell with a content and one without, on a chip whose `output` beyond the result is unspecified. -/
theorem witness_LoadsOfOtherAgents_void :
    let s := { both with voids := [{ base := 0x206, size := 1 }] }
    s.owned 0x103#32 = false ∧ inRegions s.voids (0x103#32).toNat = false
      ∧ s.owned 0x206#32 = false ∧ inRegions s.voids (0x206#32).toNat = true := by
  refine ⟨by decide, by decide, by decide, by decide⟩

/-- The host may not load a running operation's `data` (R22), another agent may (R125). -/
theorem test_load_of_data :
    both.owned 0x300#32 = true ∧ after (move (.load 0x300#32) both) = none
      ∧ (after (move (.agentLoad 0x300#32) both)).map (fun t => t.chip.agentByte) = some 0x83#8 := by decide

theorem witness_BlockTurnTakesOneTransition :
    both.enc.busy = true ∧ both.dec.busy = true ∧ both.schedule = []
      ∧ (machineAt (encAt .emit 2#32 0#32 2#7) (Dec.reset 32 32)).dec.busy = false
      ∧ (machineAt (Enc.reset 32 32) (decAt .expand 2#32 0#32 3#7 6#32)).enc.busy = false
      ∧ (Chip.reset 32 32).enc.busy = false ∧ (Chip.reset 32 32).dec.busy = false ∧ (Chip.reset 32 32).schedule = []
      ∧ { both with schedule := [.startEnc] }.schedule = .startEnc :: [] := by decide

theorem both_inv : both.Inv :=
  ⟨by decide, emit_inv, expand_inv, fun _ _ => by decide⟩

theorem witness_StepKeepsMachineInvariant :
    ∃ t, State.Inv ⟨{ both with schedule := [.enc] }⟩ ∧ step ⟨{ both with schedule := [.enc] }⟩ = .next t :=
  ⟨_, ⟨by decide, by decide, emit_inv, expand_inv, fun _ _ => by decide⟩, rfl⟩

theorem witness_EveryInterleavingGivesEachItsOwnResult :
    Config.xlenMin ≤ 32 ∧ both.Inv ∧ both.enc.busy = true ∧ both.dec.busy = true ∧ both.enc.buffer.contains (0x102#32).toNat = true :=
  ⟨by decide, both_inv, by decide, by decide, by decide⟩

end Sys2Proof.Tests
end

section
/-!
PROOFS. Facts about regions, signed sizes and the cells of a launched operation's buffers that the invariants need.
-/

namespace Sys2Proof.Machine

variable {xlen addrW : Nat}

/-- R27: a region that does not wrap ends inside the address space. -/
theorem Region.wraps_eq_false_iff (r : Region) : r.wraps addrW = false ↔ r.base + r.size ≤ addrSpace addrW := by
  simp [Region.wraps]

theorem Region.meets_comm (r q : Region) : r.meets q = q.meets r := by
  rw [Bool.eq_iff_iff]
  simp only [Region.meets, Bool.and_eq_true, decide_eq_true_eq]
  omega

/-- Regions without a common cell do not meet. -/
theorem Region.meets_eq_false_of_disjoint {r q : Region} (h : ∀ a, r.contains a = true → q.contains a = false) :
    r.meets q = false := by
  have h' := h (max r.base q.base)
  rw [← Bool.not_eq_true, Region.contains_iff, Region.contains_iff] at h'
  rw [← Bool.not_eq_true]
  simp only [Region.meets, Bool.and_eq_true, decide_eq_true_eq]
  omega

/-- The size of a buffer whose signed length is positive is that length. -/
theorem clipSize_of_pos {v : Word xlen} (h : 0 < v.toInt) : clipSize v = v.toNat := by
  rw [clipSize, (toInt_of_pos h).1, Int.toNat_natCast]

theorem toNat_pos_of_toInt_pos {v : Word xlen} (h : 0 < v.toInt) : 0 < v.toNat := by
  have := (toInt_of_pos h).1
  omega

/-- A cursor that has not reached its end is below it. -/
theorem toNat_lt_of_le_of_ne {v w : Word xlen} (hle : v.toNat ≤ w.toNat) (hne : v ≠ w) : v.toNat < w.toNat :=
  Nat.lt_of_le_of_ne hle fun e => hne (BitVec.eq_of_toNat_eq e)

/-- A cell of a region is none of the cells outside it. -/
theorem ne_of_contains {r : Region} {a b : Addr addrW} (ha : r.contains a.toNat = true) (hb : r.contains b.toNat = false) :
    a ≠ b := by
  rintro rfl
  simp [ha] at hb

/-- An element of a buffer that does not wrap lies in the buffer's region. -/
theorem contains_elementAddr {base : Addr addrW} {n i : Nat} (hi : i < n) (hw : base.toNat + n ≤ addrSpace addrW) :
    Region.contains { base := base.toNat, size := n } (elementAddr base i).toNat = true := by
  rw [← inBuffer_eq_contains base n _ hw]
  exact inBuffer_elementAddr base hi

/-- A write outside a buffer, wrapping or not, leaves the buffer's elements as they are. -/
theorem memRead_memWrite_outside {base a : Addr addrW} {n i : Nat} (hi : i < n) (ha : inBuffer base n a = false)
    (m : Memory) (v : Byte) : memRead (memWrite m a v) (elementAddr base i) = memRead m (elementAddr base i) :=
  memRead_memWrite_other m v (by rintro rfl; simp [inBuffer_elementAddr base hi] at ha)

/-! ### ENC's buffer -/

/-- The region of a launched ENC operation is `buffer[0, LEN)`. -/
theorem Enc.Launched.buffer_eq {e : Enc xlen addrW} (h : e.Launched) :
    e.buffer = { base := e.buf.toNat, size := e.len.toNat } := by
  obtain ⟨hbuf, hlen, -⟩ := h
  rw [Enc.buffer, encRegion, if_pos ((encOperandsOk_iff _ _).mpr ⟨hbuf, hlen⟩), clipSize_of_pos hlen]

/-- Operands that pass `E_CHECK` on a buffer that does not wrap make a launched operation. -/
theorem Enc.launched_of_check {e : Enc xlen addrW} (hbuf : e.buf ≠ Config.nullAddr) (hlen : 0 < e.len.toInt)
    (hw : e.buffer.wraps addrW = false) : e.Launched := by
  refine ⟨hbuf, hlen, ?_⟩
  rwa [Enc.buffer, encRegion, if_pos ((encOperandsOk_iff _ _).mpr ⟨hbuf, hlen⟩), clipSize_of_pos hlen,
    Region.wraps_eq_false_iff] at hw

theorem Enc.Launched.len_pos {e : Enc xlen addrW} (h : e.Launched) : 0 < e.len.toInt := h.2.1

theorem Enc.Launched.fits {e : Enc xlen addrW} (h : e.Launched) : e.buf.toNat + e.len.toNat ≤ addrSpace addrW := h.2.2

theorem Enc.Launched.clipSize_len {e : Enc xlen addrW} (h : e.Launched) : clipSize e.len = e.len.toNat :=
  clipSize_of_pos h.len_pos

theorem Enc.Launched.contains_element {e : Enc xlen addrW} (h : e.Launched) {i : Nat} (hi : i < e.len.toNat) :
    e.buffer.contains (elementAddr e.buf i).toNat = true := by
  rw [h.buffer_eq]
  exact contains_elementAddr hi h.fits

/-- A write at the write cursor leaves the other elements of the buffer as they are. -/
theorem Enc.Launched.cell_memWrite {e : Enc xlen addrW} (h : e.Launched) (m : Memory) (v : Byte) {i : Nat}
    (hi : i < e.len.toNat) (hwr : e.wr.toNat < i) : e.cell (memWrite m e.writeAddr v) i = e.cell m i := by
  have := h.fits
  refine memRead_memWrite_other m v fun he => ?_
  have := elementAddr_inj e.buf (by omega) (by omega) he
  omega

/-! ### DEC's buffers -/

/-- The region of a launched DEC operation's stream is `data[0, LEN)`. -/
theorem Dec.Launched.dataBuffer_eq {d : Dec xlen addrW} (h : d.Launched) :
    d.dataBuffer = { base := d.data.toNat, size := d.len.toNat } := by
  obtain ⟨hdata, hout, hlen, -⟩ := h
  rw [Dec.dataBuffer, dataRegion, if_pos ((decOperandsOk_iff _ _ _).mpr ⟨hdata, hout, hlen⟩), clipSize_of_pos hlen]

/-- The region of a launched DEC operation's output is `output[0, MAXLEN)`. -/
theorem Dec.Launched.outBuffer_eq {d : Dec xlen addrW} (h : d.Launched) :
    d.outBuffer = { base := d.out.toNat, size := clipSize d.maxLen } := by
  obtain ⟨hdata, hout, hlen, -⟩ := h
  rw [Dec.outBuffer, outRegion, if_pos ((decOperandsOk_iff _ _ _).mpr ⟨hdata, hout, hlen⟩)]

/-- Operands that pass `D_CHECK` on buffers that neither wrap nor meet make a launched operation. -/
theorem Dec.launched_of_check {d : Dec xlen addrW} (hdata : d.data ≠ Config.nullAddr) (hout : d.out ≠ Config.nullAddr)
    (hlen : 0 < d.len.toInt) (hwd : d.dataBuffer.wraps addrW = false) (hwo : d.outBuffer.wraps addrW = false)
    (hm : d.dataBuffer.meets d.outBuffer = false) : d.Launched := by
  have hok := (decOperandsOk_iff d.data d.len d.out).mpr ⟨hdata, hout, hlen⟩
  rw [Dec.dataBuffer, dataRegion, if_pos hok, clipSize_of_pos hlen, Region.wraps_eq_false_iff] at hwd
  rw [Dec.outBuffer, outRegion, if_pos hok, Region.wraps_eq_false_iff] at hwo
  exact ⟨hdata, hout, hlen, hwd, hwo, hm⟩

theorem Dec.Launched.len_pos {d : Dec xlen addrW} (h : d.Launched) : 0 < d.len.toInt := h.2.2.1

theorem Dec.Launched.buffers_apart {d : Dec xlen addrW} (h : d.Launched) : d.dataBuffer.meets d.outBuffer = false := by
  obtain ⟨-, -, -, -, -, hm⟩ := h
  exact hm

theorem Dec.Launched.clipSize_len {d : Dec xlen addrW} (h : d.Launched) : clipSize d.len = d.len.toNat :=
  clipSize_of_pos h.len_pos

theorem Dec.Launched.contains_stream {d : Dec xlen addrW} (h : d.Launched) {i : Nat} (hi : i < d.len.toNat) :
    d.dataBuffer.contains (elementAddr d.data i).toNat = true := by
  rw [h.dataBuffer_eq]
  obtain ⟨-, -, -, hspace, -⟩ := h
  exact contains_elementAddr hi hspace

theorem Dec.Launched.contains_output {d : Dec xlen addrW} (h : d.Launched) {i : Nat} (hi : i < clipSize d.maxLen) :
    d.outBuffer.contains (elementAddr d.out i).toNat = true := by
  rw [h.outBuffer_eq]
  obtain ⟨-, -, -, -, hspace, -⟩ := h
  exact contains_elementAddr hi hspace

/-- The write cursor of a block with room for a byte is an index of `output`. -/
theorem Dec.wr_lt_of_not_full {d : Dec xlen addrW} (hc : d.CursorOk) (hf : d.full = false) :
    d.wr.toNat < clipSize d.maxLen := by
  rw [← Bool.not_eq_true, Dec.full_iff] at hf
  have := (toInt_of_nonneg hc.1).1
  rw [clipSize]
  omega

/-- R42: a write to `output` leaves the stream as it is. -/
theorem Dec.Launched.cell_memWrite {d : Dec xlen addrW} (h : d.Launched) (hc : d.CursorOk) (hf : d.full = false)
    (m : Memory) (v : Byte) {i : Nat} (hi : i < d.len.toNat) : d.cell (memWrite m d.writeAddr v) i = d.cell m i := by
  have hout := h.contains_output (Dec.wr_lt_of_not_full hc hf)
  have hdata := Region.not_contains_of_meets_false h.buffers_apart (h.contains_stream hi)
  exact memRead_memWrite_other m v (ne_of_contains hout hdata)

end Sys2Proof.Machine
end

section
/-!
PROOFS. ENC (R73 to R79): the transition of each state as one equation, the invariant of each state as one equivalence,
and that every transition keeps it (R20).
-/

namespace Sys2Proof.Machine

variable {xlen addrW : Nat} {e : Enc xlen addrW} {m : Memory}

theorem Enc.transition_check (hs : e.st = .check) : e.transition m = (encCheck e, m) := by
  simp [Enc.transition, Enc.next, Enc.access, hs]

theorem Enc.transition_validate (hs : e.st = .validate) : e.transition m = (encValidate e (e.cell m e.rd.toNat), m) := by
  simp [Enc.transition, Enc.next, Enc.access, hs, Enc.cell, Enc.readAddr]

theorem Enc.transition_head (hs : e.st = .head) : e.transition m = (encHead e (e.cell m e.rd.toNat), m) := by
  simp [Enc.transition, Enc.next, Enc.access, hs, Enc.cell, Enc.readAddr]

/-- Where the group is closed no byte is read, and `encScan` looks at none. -/
theorem Enc.transition_scan (hs : e.st = .scan) : e.transition m = (encScan e (e.cell m e.rd.toNat), m) := by
  cases hc : e.groupClosed <;>
    simp [Enc.transition, Enc.next, Enc.access, hs, hc, encScan, Enc.cell, Enc.readAddr]

theorem Enc.transition_emit (hs : e.st = .emit) : e.transition m = (encEmit e, memWrite m e.writeAddr e.firstByte) := by
  simp [Enc.transition, Enc.next, Enc.access, hs]

theorem Enc.transition_emitv (hs : e.st = .emitv) : e.transition m = (encEmitv e, memWrite m e.writeAddr e.cur) := by
  simp [Enc.transition, Enc.next, Enc.access, hs]

/-! ### The invariant, state by state -/

theorem Enc.inv_check (hs : e.st = .check) : e.Inv m ↔ e.buffer.wraps addrW = false := by
  simp only [Enc.Inv, hs]

theorem Enc.inv_validate (hs : e.st = .validate) :
    e.Inv m ↔ e.Launched ∧ e.rd.toNat < e.len.toNat ∧ ∀ i, i < e.rd.toNat → (e.cell m i).msb = false := by
  simp only [Enc.Inv, hs]

theorem Enc.inv_head (hs : e.st = .head) :
    e.Inv m ↔ e.Launched ∧ e.wr.toNat ≤ e.rd.toNat ∧ e.rd.toNat < e.len.toNat ∧ e.RestValid m := by
  simp only [Enc.Inv, hs]

theorem Enc.inv_scan (hs : e.st = .scan) : e.Inv m ↔ e.Launched ∧ e.GroupOpen m := by
  simp only [Enc.Inv, hs]

theorem Enc.inv_emit (hs : e.st = .emit) : e.Inv m ↔ e.Launched ∧ e.GroupOpen m := by
  simp only [Enc.Inv, hs]

theorem Enc.inv_emitv (hs : e.st = .emitv) :
    e.Inv m ↔ e.Launched ∧ 2 ≤ e.cnt.toNat ∧ e.cnt.toNat ≤ e.rd.toNat ∧ e.rd.toNat ≤ e.len.toNat
      ∧ 1 ≤ e.wr.toNat ∧ e.wr.toNat ≤ e.rd.toNat - e.cnt.toNat + 1 ∧ e.cur.msb = false ∧ e.RestValid m := by
  simp only [Enc.Inv, hs]

theorem Enc.inv_done (hs : e.st = .done) : e.Inv m ↔ e.Reported := by
  simp only [Enc.Inv, hs]

/-! ### Each state's transition keeps it -/

/-- R74. -/
theorem encCheck_inv (hs : e.st = .check) (h : e.Inv m) : (encCheck e).Inv m := by
  rw [Enc.inv_check hs] at h
  unfold encCheck
  split
  · exact (Enc.inv_done rfl).mpr (.inr (.inl ⟨rfl, rfl⟩))
  next hbuf =>
    split
    · exact (Enc.inv_done rfl).mpr (.inr (.inr (.inl ⟨rfl, rfl⟩)))
    next hlen =>
      have hpos : 0 < e.len.toInt := by rwa [sle_zero_iff, not_le] at hlen
      exact (Enc.inv_validate rfl).mpr ⟨Enc.launched_of_check hbuf hpos h, by simpa using toNat_pos_of_toInt_pos hpos, by simp⟩

/-- R75: the bytes below `rd` have been seen, and the one at `rd` is being seen. -/
theorem encValidate_inv (hs : e.st = .validate) (h : e.Inv m) : (encValidate e (e.cell m e.rd.toNat)).Inv m := by
  obtain ⟨hL, hrd, hseen⟩ := (Enc.inv_validate hs).mp h
  have hsucc := toNat_succ hrd
  unfold encValidate
  split
  · exact (Enc.inv_done rfl).mpr (.inr (.inr (.inr ⟨rfl, rfl⟩)))
  next hb =>
    have hseen' : ∀ i, i < e.rd.toNat + 1 → (e.cell m i).msb = false := fun i hi => by
      rcases Nat.lt_succ_iff_lt_or_eq.mp hi with hi | rfl
      · exact hseen i hi
      · simpa using hb
    split
    next hend =>
      refine (Enc.inv_head rfl).mpr ⟨hL, le_rfl, by simpa using toNat_pos_of_toInt_pos hL.len_pos, fun i _ hi => hseen' i ?_⟩
      rwa [← hsucc, hend]
    next hend =>
      refine (Enc.inv_validate (e := { e with rd := e.rd + 1#xlen }) hs).mpr ⟨hL, toNat_lt_of_le_of_ne ?_ hend, fun i hi => hseen' i ?_⟩
      · rw [hsucc]; exact hrd
      · rwa [← hsucc]

/-- R76. -/
theorem encHead_inv (hs : e.st = .head) (h : e.Inv m) : (encHead e (e.cell m e.rd.toNat)).Inv m := by
  obtain ⟨hL, hwr, hrd, hrest⟩ := (Enc.inv_head hs).mp h
  have hsucc := toNat_succ hrd
  refine (Enc.inv_scan rfl).mpr ⟨hL, le_rfl, ?_, ?_, ?_, hrest _ le_rfl hrd, fun i hlo hi => ?_, fun i hlo hi => hrest i ?_ hi⟩
    <;> simp only [encHead, hsucc, BitVec.reduceToNat] at *
  · omega
  · omega
  · omega
  · obtain rfl : i = e.rd.toNat := by omega
    rfl
  · omega

/-- R77: an equal byte joins the open group. -/
theorem encScan_inv (hs : e.st = .scan) (h : e.Inv m) : (encScan e (e.cell m e.rd.toNat)).Inv m := by
  obtain ⟨hL, hg⟩ := (Enc.inv_scan hs).mp h
  have hemit : ({ e with st := .emit } : Enc xlen addrW).Inv m := (Enc.inv_emit rfl).mpr ⟨hL, hg⟩
  obtain ⟨hcnt, hcntrd, hrd, hwr, hcur, hgroup, hrest⟩ := hg
  unfold encScan
  split
  · exact hemit
  next hopen =>
    split
    next hb =>
      simp only [Enc.groupClosed, Bool.or_eq_true, decide_eq_true_eq, not_or] at hopen
      have hlt := toNat_lt_of_le_of_ne hrd hopen.1
      have hsucc := toNat_succ hlt
      have hcsucc : (e.cnt + 1#7).toNat = e.cnt.toNat + 1 := by
        have := hopen.2
        bv_omega
      refine (Enc.inv_scan (e := { e with cnt := e.cnt + 1#7, rd := e.rd + 1#xlen }) hs).mpr
        ⟨hL, ?_, ?_, ?_, ?_, hcur, fun i hlo hi => ?_, fun i hlo hi => hrest i ?_ hi⟩
        <;> simp only [hsucc, hcsucc] at *
      · omega
      · omega
      · omega
      · omega
      · rcases Nat.lt_succ_iff_lt_or_eq.mp hi with hi | rfl
        · exact hgroup i (by omega) hi
        · exact hb
      · omega
    · exact hemit

/-- The end of a group (R78, R79): `RESULT` is a count of bytes within `LEN`, or the next group begins behind `wr`. -/
theorem encGroupDone_inv (hL : e.Launched) (hwr : e.wr.toNat < e.rd.toNat) (hrd : e.rd.toNat ≤ e.len.toNat)
    (hrest : e.RestValid m) : (encGroupDone e).Inv m := by
  have hsucc := toNat_succ hwr
  unfold encGroupDone
  split
  next hend =>
    obtain ⟨hlen, hhalf⟩ := toInt_of_pos hL.len_pos
    have hint : (e.wr + 1#xlen).toInt = (e.wr + 1#xlen).toNat := BitVec.toInt_eq_toNat_of_lt (by omega)
    exact (Enc.inv_done rfl).mpr (.inl ⟨rfl, by simp only [Enc.finish_result]; omega, by simp only [Enc.finish_result, Enc.finish_len]; omega⟩)
  next hend => exact (Enc.inv_head rfl).mpr ⟨hL, by simp only [hsucc]; omega, toNat_lt_of_le_of_ne hrd hend, hrest⟩

/-- ENC writes behind its read cursor, so the input still to come is as it was (R41). -/
theorem Enc.RestValid.memWrite (hrest : e.RestValid m) (hL : e.Launched) (hwr : e.wr.toNat < e.rd.toNat) (v : Byte) :
    e.RestValid (memWrite m e.writeAddr v) := fun i hlo hi => by
  rw [hL.cell_memWrite m v hi (by omega)]
  exact hrest i hlo hi

/-- R78. -/
theorem encEmit_inv (hs : e.st = .emit) (h : e.Inv m) : (encEmit e).Inv (memWrite m e.writeAddr e.firstByte) := by
  obtain ⟨hL, hcnt, hcntrd, hrd, hwr, hcur, -, hrest⟩ := (Enc.inv_emit hs).mp h
  have hlt : e.wr.toNat < e.rd.toNat := by omega
  have hrest' := hrest.memWrite hL hlt e.firstByte
  unfold encEmit
  split
  · exact encGroupDone_inv hL hlt hrd hrest'
  next hone =>
    have hsucc := toNat_succ hlt
    have htwo : 2 ≤ e.cnt.toNat := by bv_omega
    exact (Enc.inv_emitv rfl).mpr
      ⟨hL, htwo, hcntrd, hrd, by simp only [hsucc]; omega, by simp only [hsucc]; omega, hcur, hrest'⟩

/-- R79. -/
theorem encEmitv_inv (hs : e.st = .emitv) (h : e.Inv m) : (encEmitv e).Inv (memWrite m e.writeAddr e.cur) := by
  obtain ⟨hL, hcnt, hcntrd, hrd, -, hwr, -, hrest⟩ := (Enc.inv_emitv hs).mp h
  have hlt : e.wr.toNat < e.rd.toNat := by omega
  exact encGroupDone_inv hL hlt hrd (hrest.memWrite hL hlt e.cur)

/-- R20: every transition of ENC keeps its invariant. -/
theorem Enc.transition_inv (h : e.Inv m) : (e.transition m).1.Inv (e.transition m).2 := by
  cases hs : e.st with
  | idle => rwa [Enc.transition_of_not_busy (by simp [Enc.busy, hs])]
  | check => rw [Enc.transition_check hs]; exact encCheck_inv hs h
  | validate => rw [Enc.transition_validate hs]; exact encValidate_inv hs h
  | head => rw [Enc.transition_head hs]; exact encHead_inv hs h
  | scan => rw [Enc.transition_scan hs]; exact encScan_inv hs h
  | emit => rw [Enc.transition_emit hs]; exact encEmit_inv hs h
  | emitv => rw [Enc.transition_emitv hs]; exact encEmitv_inv hs h
  | done => rwa [Enc.transition_of_not_busy (by simp [Enc.busy, hs])]

end Sys2Proof.Machine

namespace Sys2Proof.Proofs

open Sys2Proof.Machine

/-- Settles O27, state by state. -/
theorem encInvariantIsKept : Obligations.EncInvariantIsKept :=
  fun _ _ _ _ _ _ h => Enc.transition_inv h

end Sys2Proof.Proofs
end

section
/-!
PROOFS. DEC (R96 to R100): the transition of each state as one equation, the invariant of each state as one equivalence,
and that every transition keeps it (R21).
-/

namespace Sys2Proof.Machine

variable {xlen addrW : Nat} {d : Dec xlen addrW} {m : Memory}

theorem Dec.transition_check (hs : d.st = .check) : d.transition m = (decCheck d, m) := by
  simp [Dec.transition, Dec.next, Dec.access, hs]

theorem Dec.transition_fetch (hs : d.st = .fetch) : d.transition m = (decFetch d (d.cell m d.rd.toNat), m) := by
  simp [Dec.transition, Dec.next, Dec.access, hs, Dec.cell, Dec.readAddr]

theorem Dec.transition_value (hs : d.st = .value) : d.transition m = (decValue d (d.cell m d.rd.toNat), m) := by
  simp [Dec.transition, Dec.next, Dec.access, hs, Dec.cell, Dec.readAddr]

/-- All copies are written: the token is closed, and memory is not touched. -/
theorem Dec.transition_expand_close (hs : d.st = .expand) (hc : d.cnt = 0#7) : d.transition m = (d.close, m) := by
  simp [Dec.transition, Dec.next, Dec.access, Dec.writes, decExpand, hs, hc]

/-- A copy is left and no byte fits: the overflow is raised, and memory is not touched. -/
theorem Dec.transition_expand_full (hs : d.st = .expand) (hc : d.cnt ≠ 0#7) (hf : d.full = true) :
    d.transition m = (d.raise .outputOverflow, m) := by
  simp [Dec.transition, Dec.next, Dec.access, Dec.writes, decExpand, hs, hc, hf]

/-- A copy is left and fits: it is written. -/
theorem Dec.transition_expand_write (hs : d.st = .expand) (hc : d.cnt ≠ 0#7) (hf : d.full = false) :
    d.transition m = ({ d with wr := d.wr + 1#xlen, cnt := d.cnt - 1#7 }, memWrite m d.writeAddr d.val) := by
  simp [Dec.transition, Dec.next, Dec.access, Dec.writes, decExpand, hs, hc, hf]

/-! ### The invariant, state by state -/

theorem Dec.inv_check (hs : d.st = .check) :
    d.Inv m ↔ d.dataBuffer.wraps addrW = false ∧ d.outBuffer.wraps addrW = false
      ∧ d.dataBuffer.meets d.outBuffer = false := by
  simp only [Dec.Inv, hs]

theorem Dec.inv_fetch (hs : d.st = .fetch) : d.Inv m ↔ d.Launched ∧ d.CursorOk ∧ d.rd.toNat < d.len.toNat := by
  simp only [Dec.Inv, hs]

theorem Dec.inv_value (hs : d.st = .value) :
    d.Inv m ↔ d.Launched ∧ d.CursorOk ∧ 1 ≤ d.rd.toNat ∧ d.rd.toNat < d.len.toNat
      ∧ isMarker (d.cell m (d.rd.toNat - 1)) = true ∧ d.cnt = lowSeven (d.cell m (d.rd.toNat - 1)) := by
  simp only [Dec.Inv, hs]

theorem Dec.inv_expand (hs : d.st = .expand) :
    d.Inv m ↔ d.Launched ∧ d.CursorOk ∧ 1 ≤ d.rd.toNat ∧ d.rd.toNat ≤ d.len.toNat := by
  simp only [Dec.Inv, hs]

theorem Dec.inv_done (hs : d.st = .done) : d.Inv m ↔ d.Reported := by
  simp only [Dec.Inv, hs]

/-! ### Each state's transition keeps it -/

/-- R107, R112: a failure of DEC reports -1; DEC never raises `INVALID_PAYLOAD`. -/
theorem Dec.raise_inv {c : Cause} (hn : c ≠ .none) (hp : c ≠ .invalidPayload) : (d.raise c).Inv m :=
  (Dec.inv_done rfl).mpr (.inr ⟨hn, hp, rfl⟩)

/-- R97. -/
theorem decCheck_inv (hs : d.st = .check) (h : d.Inv m) : (decCheck d).Inv m := by
  obtain ⟨hwd, hwo, hm⟩ := (Dec.inv_check hs).mp h
  unfold decCheck
  split
  · exact Dec.raise_inv (by decide) (by decide)
  next hnull =>
    obtain ⟨hdata, hout⟩ := not_or.mp hnull
    split
    · exact Dec.raise_inv (by decide) (by decide)
    next hlen =>
      have hpos : 0 < d.len.toInt := by rwa [sle_zero_iff, not_le] at hlen
      have hcur : ({ d with rd := 0#xlen, wr := 0#xlen, st := .fetch } : Dec xlen addrW).CursorOk := by simp [Dec.CursorOk]
      exact (Dec.inv_fetch rfl).mpr
        ⟨Dec.launched_of_check hdata hout hpos hwd hwo hm, hcur, by simpa using toNat_pos_of_toInt_pos hpos⟩

/-- R98. -/
theorem decFetch_inv (hs : d.st = .fetch) (h : d.Inv m) : (decFetch d (d.cell m d.rd.toNat)).Inv m := by
  obtain ⟨hL, hcur, hrd⟩ := (Dec.inv_fetch hs).mp h
  have hsucc := toNat_succ hrd
  unfold decFetch
  split
  next ht =>
    split
    · exact Dec.raise_inv (by decide) (by decide)
    next hend =>
      have hlt : (d.rd + 1#xlen).toNat < d.len.toNat := toNat_lt_of_le_of_ne (by omega) hend
      have hprev : (d.rd + 1#xlen).toNat - 1 = d.rd.toNat := by omega
      refine (Dec.inv_value rfl).mpr ⟨hL, hcur, by simp only [hsucc]; omega, hlt, ?_, ?_⟩ <;> simp only [hprev]
      · exact ht
      · rfl
  · exact (Dec.inv_expand rfl).mpr ⟨hL, hcur, by simp only [hsucc]; omega, by simp only [hsucc]; omega⟩

/-- R99. -/
theorem decValue_inv (hs : d.st = .value) (h : d.Inv m) (b : Byte) : (decValue d b).Inv m := by
  obtain ⟨hL, hcur, -, hrd, -⟩ := (Dec.inv_value hs).mp h
  have hsucc := toNat_succ hrd
  exact (Dec.inv_expand rfl).mpr ⟨hL, hcur, by simp only [decValue, hsucc]; omega, by simp only [decValue, hsucc]; omega⟩

/-- R100: at the end of a token `RESULT` is the write cursor, or the next token begins inside the stream. -/
theorem Dec.close_inv (hL : d.Launched) (hcur : d.CursorOk) (hrd : d.rd.toNat ≤ d.len.toNat) : d.close.Inv m := by
  unfold Dec.close
  split
  · obtain ⟨hnn, hle⟩ := hcur
    exact (Dec.inv_done rfl).mpr (.inl ⟨rfl, hnn, by simp only [Dec.finish_result, Dec.finish_maxLen]; omega⟩)
  next hend => exact (Dec.inv_fetch rfl).mpr ⟨hL, hcur, toNat_lt_of_le_of_ne hrd hend⟩

/-- A byte that fits moves the write cursor to a count that fits. -/
theorem Dec.CursorOk.succ (hx : Config.xlenMin ≤ xlen) (hcur : d.CursorOk) (hf : d.full = false) (c : Count) :
    ({ d with wr := d.wr + 1#xlen, cnt := c } : Dec xlen addrW).CursorOk := by
  have hlt : d.wr.toInt < d.maxLen.toInt := by rwa [← Bool.not_eq_true, Dec.full_iff, not_le] at hf
  have hsucc := toInt_succ hx hlt
  obtain ⟨hnn, -⟩ := hcur
  constructor <;> simp only [hsucc] <;> omega

/-- R100. -/
theorem Dec.transition_expand_inv (hx : Config.xlenMin ≤ xlen) (hs : d.st = .expand) (h : d.Inv m) :
    (d.transition m).1.Inv (d.transition m).2 := by
  obtain ⟨hL, hcur, hpos, hrd⟩ := (Dec.inv_expand hs).mp h
  by_cases hc : d.cnt = 0#7
  · rw [Dec.transition_expand_close hs hc]
    exact Dec.close_inv hL hcur hrd
  cases hf : d.full
  · rw [Dec.transition_expand_write hs hc hf]
    exact (Dec.inv_expand (by exact hs)).mpr ⟨hL, hcur.succ hx hf _, hpos, hrd⟩
  · rw [Dec.transition_expand_full hs hc hf]
    exact Dec.raise_inv (by decide) (by decide)

/-- R21: every transition of DEC keeps its invariant. -/
theorem Dec.transition_inv (hx : Config.xlenMin ≤ xlen) (h : d.Inv m) : (d.transition m).1.Inv (d.transition m).2 := by
  cases hs : d.st with
  | idle => rwa [Dec.transition_of_not_busy (by simp [Dec.busy, hs])]
  | check => rw [Dec.transition_check hs]; exact decCheck_inv hs h
  | fetch => rw [Dec.transition_fetch hs]; exact decFetch_inv hs h
  | value => rw [Dec.transition_value hs]; exact decValue_inv hs h _
  | expand => exact Dec.transition_expand_inv hx hs h
  | done => rwa [Dec.transition_of_not_busy (by simp [Dec.busy, hs])]

end Sys2Proof.Machine

namespace Sys2Proof.Proofs

open Sys2Proof.Machine

/-- Settles O46, state by state. -/
theorem decInvariantIsKept : Obligations.DecInvariantIsKept :=
  fun _ _ _ _ hx _ h => Dec.transition_inv hx h

end Sys2Proof.Proofs
end

section
/-!
PROOFS. A whole token (R135, R136) is a run of DEC's transitions, so that what transitions keep the token keeps.
-/

namespace Sys2Proof.Machine

variable {xlen addrW : Nat} {d d' : Dec xlen addrW} {m m' : Memory}

theorem Dec.run_succ (h : d.transition m = (d', m')) (n : Nat) : Dec.run (n + 1) d m = Dec.run n d' m' := by
  rw [Dec.run, h]

/-- A finished block keeps still for any number of turns. -/
theorem Dec.run_of_not_busy (h : d.busy = false) : ∀ n, Dec.run n d m = (d, m)
  | 0 => rfl
  | n + 1 => by rw [Dec.run_succ (Dec.transition_of_not_busy h m)]; exact Dec.run_of_not_busy h n

/-- The loop of R136 looks neither at `st` nor at `cnt`: it sets them at its end. -/
theorem Dec.copies_st_cnt (v : Byte) (st : DecSt) (c : Count) :
    ∀ (n : Nat) (d : Dec xlen addrW) (m : Memory), Dec.copies v n { d with st := st, cnt := c } m = Dec.copies v n d m
  | 0, d, m => by simp only [Dec.copies, Dec.close]; split <;> rfl
  | n + 1, d, m => by
    rw [Dec.copies, Dec.copies, ← Dec.copies_st_cnt v st c n { d with wr := d.wr + 1#xlen }]
    rfl

/-- The loop of R136 is the transitions of `D_EXPAND`: one per copy and one that closes the token. -/
theorem Dec.copies_eq_run (v : Byte) :
    ∀ (n : Nat) (d : Dec xlen addrW) (m : Memory), d.st = .expand → d.val = v → d.cnt.toNat = n →
      Dec.copies v n d m = Dec.run (n + 1) d m
  | 0, d, m, hs, _, hn => by
    have hc : d.cnt = 0#7 := BitVec.eq_of_toNat_eq hn
    rw [Dec.run_succ (Dec.transition_expand_close hs hc), Dec.copies, ← hc]
    rfl
  | n + 1, d, m, hs, hv, hn => by
    have hc : d.cnt ≠ 0#7 := by rintro h; simp [h] at hn
    rw [Dec.copies]
    cases hf : d.full
    · have ih := Dec.copies_eq_run v n { d with wr := d.wr + 1#xlen, cnt := d.cnt - 1#7 } (memWrite m d.writeAddr v)
        hs hv (by show (d.cnt - 1#7).toNat = n; bv_omega)
      subst hv
      rw [Dec.run_succ (Dec.transition_expand_write hs hc hf), if_neg (by simp), ← ih]
      exact (Dec.copies_st_cnt d.val d.st (d.cnt - 1#7) n _ _).symm
    · rw [Dec.run_succ (Dec.transition_expand_full hs hc hf), if_pos rfl, Dec.run_of_not_busy (by simp [Dec.busy]), ← hn,
        BitVec.ofNat_toNat, BitVec.setWidth_eq]

/-- R135, "In the machine": a literal is three transitions. -/
theorem Dec.litToken_eq_run (hs : d.st = .fetch) (ht : isMarker (d.cell m d.rd.toNat) = false) :
    d.litToken (lowSeven (d.cell m d.rd.toNat)) m = Dec.run 3 d m := by
  rw [Dec.run_succ (Dec.transition_fetch hs), decFetch, if_neg (by simp [ht]), ← Dec.copies_eq_run _ 1 _ _ rfl rfl rfl,
    Dec.litToken, literalByte_lowSeven _ ht, ← Dec.copies_st_cnt _ .expand 1#7]

/-- R136, "In the machine": a run whose value byte is in the stream is `c + 3` transitions. -/
theorem Dec.runToken_eq_run {c : Count} {v : Byte} (hs : d.st = .fetch) (ht : isMarker (d.cell m d.rd.toNat) = true)
    (hend : d.rd + 1#xlen ≠ d.len) (hc : lowSeven (d.cell m d.rd.toNat) = c) (hv : d.cell m (d.rd + 1#xlen).toNat = v) :
    d.runToken c v m = Dec.run (c.toNat + 3) d m := by
  have htwo : d.rd + 2#xlen = d.rd + 1#xlen + 1#xlen := by rw [BitVec.add_assoc, ← BitVec.ofNat_add]
  calc d.runToken c v m
      = Dec.copies v c.toNat { d with st := .expand, rd := d.rd + 1#xlen + 1#xlen, cnt := c, val := v } m := by
        rw [Dec.runToken, if_neg hend, htwo, ← Dec.copies_st_cnt v .expand c]
    _ = Dec.run (c.toNat + 1) { d with st := .expand, rd := d.rd + 1#xlen + 1#xlen, cnt := c, val := v } m :=
        Dec.copies_eq_run _ _ _ _ rfl rfl rfl
    _ = Dec.run (c.toNat + 3) d m := by
        subst hc hv
        rw [Dec.run_succ (Dec.transition_fetch hs), decFetch, if_pos ht, if_neg hend,
          Dec.run_succ (Dec.transition_value rfl) ((lowSeven (d.cell m d.rd.toNat)).toNat + 1)]
        rfl

/-- What the decoder finds in DEC's window: a literal, or a run whose value byte the stream holds. -/
theorem Dec.decode_window {i : Instr} {more : List Byte} (h : decode (d.window m) = .ok (i, more)) :
    (isMarker (d.cell m d.rd.toNat) = false ∧ i = .lit (lowSeven (d.cell m d.rd.toNat)))
      ∨ (isMarker (d.cell m d.rd.toNat) = true ∧ d.rd + 1#xlen ≠ d.len
        ∧ i = .run (lowSeven (d.cell m d.rd.toNat)) (d.cell m (d.rd + 1#xlen).toNat)) := by
  rw [Dec.window] at h
  change decode (d.cell m d.rd.toNat :: if _ then [] else [d.cell m (d.rd + 1#xlen).toNat]) = _ at h
  cases ht : isMarker (d.cell m d.rd.toNat)
  · simp only [decode, ht, Except.ok.injEq, Prod.mk.injEq] at h
    exact .inl ⟨rfl, h.1.symm⟩
  · by_cases hend : d.rd + 1#xlen = d.len
    · simp [decode, ht, hend] at h
    · simp only [decode, ht, hend, if_false, Except.ok.injEq, Prod.mk.injEq] at h
      exact .inr ⟨rfl, hend, h.1.symm⟩

end Sys2Proof.Machine
end

section
/-!
PROOFS. The whole machine: each block's invariant survives the other's accesses and the host's stores, and every move
and every step keeps the machine's invariant (R20, R21, R39).
-/

namespace Sys2Proof.Machine

variable {xlen addrW : Nat} {e : Enc xlen addrW} {d : Dec xlen addrW} {m m' : Memory} {s u : Chip xlen addrW}

/-! ### What a block's invariant says of memory -/

/-- ENC's invariant speaks of no cell but those of a running operation's buffer. -/
theorem Enc.inv_of_cells_eq (h : e.Inv m)
    (hcell : e.busy = true → e.Launched → ∀ i, i < e.len.toNat → e.cell m' i = e.cell m i) : e.Inv m' := by
  have hrest : e.busy = true → e.Launched → e.RestValid m → e.RestValid m' := fun hb hL hr i hlo hi => by
    rw [hcell hb hL i hi]; exact hr i hlo hi
  have hgroup : e.busy = true → e.Launched → e.GroupOpen m → e.GroupOpen m' := fun hb hL hg => by
    obtain ⟨hcnt, hcntrd, hrd, hwr, hcur, hbytes, hr⟩ := hg
    refine ⟨hcnt, hcntrd, hrd, hwr, hcur, fun i hlo hi => ?_, hrest hb hL hr⟩
    rw [hcell hb hL i (by omega)]
    exact hbytes i hlo hi
  cases hs : e.st with
  | idle => simp only [Enc.Inv, hs]
  | check => exact (Enc.inv_check hs).mpr ((Enc.inv_check hs).mp h)
  | validate =>
    obtain ⟨hL, hrd, hseen⟩ := (Enc.inv_validate hs).mp h
    refine (Enc.inv_validate hs).mpr ⟨hL, hrd, fun i hi => ?_⟩
    rw [hcell (by simp [Enc.busy, hs]) hL i (by omega)]
    exact hseen i hi
  | head =>
    obtain ⟨hL, hwr, hrd, hr⟩ := (Enc.inv_head hs).mp h
    exact (Enc.inv_head hs).mpr ⟨hL, hwr, hrd, hrest (by simp [Enc.busy, hs]) hL hr⟩
  | scan =>
    obtain ⟨hL, hg⟩ := (Enc.inv_scan hs).mp h
    exact (Enc.inv_scan hs).mpr ⟨hL, hgroup (by simp [Enc.busy, hs]) hL hg⟩
  | emit =>
    obtain ⟨hL, hg⟩ := (Enc.inv_emit hs).mp h
    exact (Enc.inv_emit hs).mpr ⟨hL, hgroup (by simp [Enc.busy, hs]) hL hg⟩
  | emitv =>
    obtain ⟨hL, hcnt, hcntrd, hrd, hpos, hwr, hcur, hr⟩ := (Enc.inv_emitv hs).mp h
    exact (Enc.inv_emitv hs).mpr ⟨hL, hcnt, hcntrd, hrd, hpos, hwr, hcur, hrest (by simp [Enc.busy, hs]) hL hr⟩
  | done => exact (Enc.inv_done hs).mpr ((Enc.inv_done hs).mp h)

/-- DEC's invariant speaks of no cell but those of a running operation's stream. -/
theorem Dec.inv_of_cells_eq (h : d.Inv m)
    (hcell : d.busy = true → d.Launched → ∀ i, i < d.len.toNat → d.cell m' i = d.cell m i) : d.Inv m' := by
  cases hs : d.st with
  | idle => simp only [Dec.Inv, hs]
  | check => exact (Dec.inv_check hs).mpr ((Dec.inv_check hs).mp h)
  | fetch => exact (Dec.inv_fetch hs).mpr ((Dec.inv_fetch hs).mp h)
  | value =>
    obtain ⟨hL, hcur, hpos, hrd, hmark⟩ := (Dec.inv_value hs).mp h
    have hprev := hcell (by simp [Dec.busy, hs]) hL (d.rd.toNat - 1) (by omega)
    exact (Dec.inv_value hs).mpr ⟨hL, hcur, hpos, hrd, by rwa [hprev]⟩
  | expand => exact (Dec.inv_expand hs).mpr ((Dec.inv_expand hs).mp h)
  | done => exact (Dec.inv_done hs).mpr ((Dec.inv_done hs).mp h)

/-! ### Where a transition writes -/

/-- R41: ENC writes into its buffer, behind its read cursor. -/
theorem Enc.access_write {a : Addr addrW} {v : Byte} (h : e.Inv m) (ha : e.access = .write a v) :
    e.Launched ∧ e.rd.toNat ≤ e.len.toNat ∧ e.wr.toNat < e.rd.toNat ∧ a = e.writeAddr := by
  cases hs : e.st <;> simp only [Enc.access, hs, reduceCtorEq] at ha
  case scan => split at ha <;> cases ha
  case emit =>
    obtain ⟨hL, hcnt, hcntrd, hrd, hwr, -⟩ := (Enc.inv_emit hs).mp h
    cases ha
    exact ⟨hL, hrd, by omega, rfl⟩
  case emitv =>
    obtain ⟨hL, hcnt, hcntrd, hrd, -, hwr, -⟩ := (Enc.inv_emitv hs).mp h
    cases ha
    exact ⟨hL, hrd, by omega, rfl⟩

/-- R37: ENC's write is a cell of its buffer. -/
theorem Enc.access_write_in_buffer {a : Addr addrW} {v : Byte} (h : e.Inv m) (ha : e.access = .write a v) :
    e.buffer.contains a.toNat = true := by
  obtain ⟨hL, hrd, hwr, rfl⟩ := Enc.access_write h ha
  exact hL.contains_element (by omega)

/-- R102: DEC writes only where a byte fits. -/
theorem Dec.access_write {a : Addr addrW} {v : Byte} (h : d.Inv m) (ha : d.access = .write a v) :
    d.Launched ∧ d.CursorOk ∧ d.full = false ∧ a = d.writeAddr := by
  cases hs : d.st <;> simp only [Dec.access, hs, reduceCtorEq] at ha
  case expand =>
    obtain ⟨hL, hcur, -⟩ := (Dec.inv_expand hs).mp h
    split at ha
    next hw =>
      cases ha
      rw [Dec.writes, Bool.and_eq_true, Bool.not_eq_true'] at hw
      exact ⟨hL, hcur, hw.2, rfl⟩
    next => cases ha

/-- R37: DEC's write is a cell of its output buffer. -/
theorem Dec.access_write_in_output {a : Addr addrW} {v : Byte} (h : d.Inv m) (ha : d.access = .write a v) :
    d.outBuffer.contains a.toNat = true := by
  obtain ⟨hL, hcur, hf, rfl⟩ := Dec.access_write h ha
  exact hL.contains_output (Dec.wr_lt_of_not_full hcur hf)

/-- R39: ENC's access leaves the stream of a DEC operation apart from it as it was. -/
theorem Dec.cell_encAccess (he : e.Inv m) (hm : e.buffer.meets d.dataBuffer = false) (hL : d.Launched) {i : Nat}
    (hi : i < d.len.toNat) : d.cell (e.access.apply m) i = d.cell m i :=
  Access.apply_other m _ _ fun _ _ ha => ne_of_contains (Enc.access_write_in_buffer he ha)
    (Region.not_contains_of_meets_false (by rwa [Region.meets_comm]) (hL.contains_stream hi))

/-- R39: DEC's access leaves the buffer of an ENC operation apart from it as it was. -/
theorem Enc.cell_decAccess (hd : d.Inv m) (hm : e.buffer.meets d.outBuffer = false) (hL : e.Launched) {i : Nat}
    (hi : i < e.len.toNat) : e.cell (d.access.apply m) i = e.cell m i :=
  Access.apply_other m _ _ fun _ _ ha => ne_of_contains (Dec.access_write_in_output hd ha)
    (Region.not_contains_of_meets_false hm (hL.contains_element hi))

/-! ### What a block's turn changes in the machine, busy or not -/

@[simp] theorem encMove_enc (s : Chip xlen addrW) : (encMove s).enc = (s.enc.transition s.mem).1 := by
  unfold encMove
  split
  · rfl
  next hb => rw [Enc.transition_of_not_busy (Bool.eq_false_of_not_eq_true hb)]

@[simp] theorem encMove_mem (s : Chip xlen addrW) : (encMove s).mem = (s.enc.transition s.mem).2 := by
  unfold encMove
  split
  · rfl
  next hb => rw [Enc.transition_of_not_busy (Bool.eq_false_of_not_eq_true hb)]

@[simp] theorem encMove_dec (s : Chip xlen addrW) : (encMove s).dec = s.dec := by unfold encMove; split <;> rfl
@[simp] theorem encMove_ports (s : Chip xlen addrW) : (encMove s).ports = s.ports := by unfold encMove; split <;> rfl

@[simp] theorem decMove_dec (s : Chip xlen addrW) : (decMove s).dec = (s.dec.transition s.mem).1 := by
  unfold decMove
  split
  · rfl
  next hb => rw [Dec.transition_of_not_busy (Bool.eq_false_of_not_eq_true hb)]

@[simp] theorem decMove_mem (s : Chip xlen addrW) : (decMove s).mem = (s.dec.transition s.mem).2 := by
  unfold decMove
  split
  · rfl
  next hb => rw [Dec.transition_of_not_busy (Bool.eq_false_of_not_eq_true hb)]

@[simp] theorem decMove_enc (s : Chip xlen addrW) : (decMove s).enc = s.enc := by unfold decMove; split <;> rfl
@[simp] theorem decMove_ports (s : Chip xlen addrW) : (decMove s).ports = s.ports := by unfold decMove; split <;> rfl

/-- A transition starts no operation. -/
theorem Enc.busy_of_transition_busy (h : (e.transition m).1.busy = true) : e.busy = true := by
  cases hb : e.busy
  · rwa [Enc.transition_of_not_busy hb, hb] at h
  · rfl

/-- A transition starts no operation. -/
theorem Dec.busy_of_transition_busy (h : (d.transition m).1.busy = true) : d.busy = true := by
  cases hb : d.busy
  · rwa [Dec.transition_of_not_busy hb, hb] at h
  · rfl

@[simp] theorem Enc.transition_buffer (e : Enc xlen addrW) (m : Memory) : (e.transition m).1.buffer = e.buffer := by
  obtain ⟨hbuf, hlen⟩ := e.next_operands (e.access.fetch m)
  simp only [Enc.buffer, Enc.transition, hbuf, hlen]

@[simp] theorem Dec.transition_dataBuffer (d : Dec xlen addrW) (m : Memory) :
    (d.transition m).1.dataBuffer = d.dataBuffer := by
  obtain ⟨hdata, hlen, hout, -⟩ := d.next_operands (d.access.fetch m)
  simp only [Dec.dataBuffer, Dec.transition, hdata, hlen, hout]

@[simp] theorem Dec.transition_outBuffer (d : Dec xlen addrW) (m : Memory) :
    (d.transition m).1.outBuffer = d.outBuffer := by
  obtain ⟨hdata, hlen, hout, hmax⟩ := d.next_operands (d.access.fetch m)
  simp only [Dec.outBuffer, Dec.transition, hdata, hlen, hout, hmax]

/-! ### Every move keeps the machine's invariant -/

/-- The machine's invariant speaks of the blocks and the memory alone. -/
theorem Chip.inv_of_eq (h : s.Inv) (he : u.enc = s.enc) (hd : u.dec = s.dec) (hm : u.mem = s.mem) : u.Inv := by
  unfold Chip.Inv Chip.Apart
  rwa [he, hd, hm]

theorem encMove_inv (h : s.Inv) : (encMove s).Inv := by
  obtain ⟨hwf, he, hd, hap⟩ := h
  simp only [Chip.Inv, Chip.Apart, encMove_enc, encMove_dec, encMove_mem, Enc.transition_buffer]
  refine ⟨Access.apply_wf hwf _, Enc.transition_inv he, Dec.inv_of_cells_eq hd fun hdb hL i hi => ?_,
    fun heb hdb => hap (Enc.busy_of_transition_busy heb) hdb⟩
  cases heb : s.enc.busy
  · rw [Enc.transition_of_not_busy heb]
  · exact Dec.cell_encAccess he (hap heb hdb).1 hL hi

theorem decMove_inv (hx : Config.xlenMin ≤ xlen) (h : s.Inv) : (decMove s).Inv := by
  obtain ⟨hwf, he, hd, hap⟩ := h
  simp only [Chip.Inv, Chip.Apart, decMove_enc, decMove_dec, decMove_mem, Dec.transition_dataBuffer,
    Dec.transition_outBuffer]
  refine ⟨Access.apply_wf hwf _, Enc.inv_of_cells_eq he fun heb hL i hi => ?_, Dec.transition_inv hx hd,
    fun heb hdb => hap heb (Dec.busy_of_transition_busy hdb)⟩
  cases hdb : s.dec.busy
  · rw [Dec.transition_of_not_busy hdb]
  · exact Enc.cell_decAccess hd (hap heb hdb).2 hL hi

/-- Any number of DEC's transitions, taken as one, keep the invariant. -/
theorem Chip.inv_of_dec_run (hx : Config.xlenMin ≤ xlen) :
    ∀ (n : Nat) {s : Chip xlen addrW}, s.Inv → u.enc = s.enc → (u.dec, u.mem) = Dec.run n s.dec s.mem → u.Inv
  | 0, _, h, he, hr => by
    obtain ⟨hd, hm⟩ := Prod.mk.inj hr
    exact Chip.inv_of_eq h he hd hm
  | n + 1, s, h, he, hr =>
    Chip.inv_of_dec_run hx n (decMove_inv hx h) (by rw [he, decMove_enc]) (by rw [hr, Dec.run, decMove_dec, decMove_mem])

/-- The token at `rd` is a number of DEC's transitions. -/
theorem moveToken_next_run {t : State} (h : moveToken s = .next t) :
    ∃ (n : Nat) (u : Chip xlen addrW), t = ⟨u⟩ ∧ u.enc = s.enc ∧ (u.dec, u.mem) = Dec.run n s.dec s.mem := by
  obtain ⟨hs, ⟨i, more, hd, hexec⟩ | ⟨-, rfl⟩⟩ := moveToken_next h
  · obtain ⟨ht, rfl⟩ | ⟨ht, hend, rfl⟩ := Dec.decode_window hd
    · obtain ⟨-, hlit⟩ | ⟨hns, -⟩ := execLit_cases (lowSeven (s.dec.cell s.mem s.dec.rd.toNat)) s
      · cases hlit.symm.trans hexec
        exact ⟨3, _, rfl, rfl, Dec.litToken_eq_run hs ht⟩
      · exact absurd hs hns
    · obtain ⟨-, hrun⟩ | ⟨hns, -⟩ := execRun_cases (lowSeven (s.dec.cell s.mem s.dec.rd.toNat))
        (s.dec.cell s.mem (s.dec.rd + 1#xlen).toNat) s
      · cases hrun.symm.trans hexec
        exact ⟨_, _, rfl, rfl, Dec.runToken_eq_run hs ht hend rfl rfl⟩
      · exact absurd hs hns
  · exact ⟨1, _, rfl, decMove_enc s, by rw [decMove_dec, decMove_mem]; rfl⟩

theorem moveStartEnc_inv {t : State} (h : s.Inv) (hm : moveStartEnc s = .next t) :
    ∃ u : Chip xlen addrW, t = ⟨u⟩ ∧ u.Inv := by
  obtain ⟨-, hw, hmeets, rfl⟩ := moveStartEnc_next hm
  obtain ⟨hwf, -, hd, -⟩ := h
  refine ⟨_, rfl, hwf, (Enc.inv_check rfl).mpr hw, hd, fun _ hdb => ?_⟩
  change s.dec.busy = true at hdb
  simp only [Chip.decOutOwned, Chip.decDataOwned, hdb, if_true, List.cons_append, List.nil_append, List.any_cons,
    List.any_nil, Bool.or_false, Bool.or_eq_false_iff] at hmeets
  exact hmeets.symm

theorem moveStartDec_inv {t : State} (h : s.Inv) (hm : moveStartDec s = .next t) :
    ∃ u : Chip xlen addrW, t = ⟨u⟩ ∧ u.Inv := by
  obtain ⟨-, hw, hbuffers, hmeets, rfl⟩ := moveStartDec_next hm
  obtain ⟨hwd, hwo⟩ := Bool.or_eq_false_iff.mp hw
  obtain ⟨hwf, he, -, -⟩ := h
  refine ⟨_, rfl, hwf, he, (Dec.inv_check rfl).mpr ⟨hwd, hwo, hbuffers⟩, fun heb _ => ?_⟩
  change s.enc.busy = true at heb
  simp only [Chip.encOwned, heb, if_true, List.any_cons, List.any_nil, Bool.or_false, Bool.or_eq_false_iff] at hmeets
  rw [Region.meets_comm, Region.meets_comm _ (Dec.outBuffer _)]
  exact hmeets

/-- R125: a store outside the running operations' buffers touches nothing that the blocks' invariants speak of. -/
theorem moveStore_inv {t : State} {a : Addr addrW} {v : Byte} (h : s.Inv) (hm : moveStore a v s = .next t) :
    ∃ u : Chip xlen addrW, t = ⟨u⟩ ∧ u.Inv := by
  obtain ⟨hfree, rfl⟩ := moveStore_next hm
  obtain ⟨hwf, he, hd, hap⟩ := h
  simp only [Chip.owned, Chip.written, Bool.or_eq_false_iff] at hfree
  obtain ⟨⟨henc, -⟩, hdata⟩ := hfree
  refine ⟨_, rfl, memWrite_wf hwf a v, Enc.inv_of_cells_eq he fun heb hL i hi => ?_,
    Dec.inv_of_cells_eq hd fun hdb hL i hi => ?_, hap⟩
  · change s.enc.busy = true at heb
    rw [heb, Bool.true_and] at henc
    exact memRead_memWrite_outside (hL.clipSize_len.symm ▸ hi) henc s.mem v
  · change s.dec.busy = true at hdb
    rw [hdb, Bool.true_and] at hdata
    exact memRead_memWrite_outside (hL.clipSize_len.symm ▸ hi) hdata s.mem v

theorem moveResetEnc_inv {t : State} (h : s.Inv) (hm : moveResetEnc s = .next t) :
    ∃ u : Chip xlen addrW, t = ⟨u⟩ ∧ u.Inv := by
  obtain ⟨hwf, -, hd, -⟩ := h
  cases hm
  exact ⟨_, rfl, hwf, trivial, hd, fun heb _ => by cases heb⟩

theorem moveResetDec_inv {t : State} (h : s.Inv) (hm : moveResetDec s = .next t) :
    ∃ u : Chip xlen addrW, t = ⟨u⟩ ∧ u.Inv := by
  obtain ⟨hwf, he, -, -⟩ := h
  cases hm
  exact ⟨_, rfl, hwf, he, trivial, fun _ hdb => by cases hdb⟩

/-- Every move that has a next state keeps the invariant and the widths. -/
theorem move_inv (hx : Config.xlenMin ≤ xlen) {mv : Move xlen addrW} {t : State} (h : s.Inv) (hm : move mv s = .next t) :
    ∃ u : Chip xlen addrW, t = ⟨u⟩ ∧ u.Inv := by
  cases mv with
  | enc => obtain ⟨-, rfl⟩ := moveEnc_next hm; exact ⟨_, rfl, encMove_inv h⟩
  | dec => obtain ⟨-, rfl⟩ := moveDec_next hm; exact ⟨_, rfl, decMove_inv hx h⟩
  | token =>
    obtain ⟨n, u, rfl, he, hr⟩ := moveToken_next_run hm
    exact ⟨u, rfl, Chip.inv_of_dec_run hx n h he hr⟩
  | driveEnc buf len => cases hm; exact ⟨_, rfl, h⟩
  | driveDec data len out maxLen => cases hm; exact ⟨_, rfl, h⟩
  | startEnc => exact moveStartEnc_inv h hm
  | startDec => exact moveStartDec_inv h hm
  | resetEnc => exact moveResetEnc_inv h hm
  | resetDec => exact moveResetDec_inv h hm
  | readEnc => obtain ⟨-, rfl⟩ := moveReadEnc_next hm; exact ⟨_, rfl, h⟩
  | readDec => obtain ⟨-, rfl⟩ := moveReadDec_next hm; exact ⟨_, rfl, h⟩
  | store a v => exact moveStore_inv h hm
  | load a => obtain ⟨-, rfl⟩ := moveLoad_next hm; exact ⟨_, rfl, h⟩
  | agentLoad a => obtain ⟨-, rfl⟩ := moveAgentLoad_next hm; exact ⟨_, rfl, h⟩

/-- R131, R39: so does a machine that runs on with nothing scheduled, whichever block moves. -/
theorem freeRun_inv (hx : Config.xlenMin ≤ xlen) (h : s.Inv) : (freeRun s).Inv := by
  have hfresh : ∀ n, ({ s with fresh := n } : Chip xlen addrW).Inv := fun _ => h
  unfold freeRun
  split
  · exact h
  · exact encMove_inv h
  · exact decMove_inv hx h
  · split
    · exact encMove_inv (hfresh _)
    · exact decMove_inv hx (hfresh _)

/-- Every step that has a next state keeps the invariant and the widths. -/
theorem step_inv (hx : Config.xlenMin ≤ xlen) {t : State} (h : s.Inv) (hstep : step ⟨s⟩ = .next t) :
    ∃ u : Chip xlen addrW, t = ⟨u⟩ ∧ u.Inv := by
  obtain ⟨-, rfl⟩ | ⟨mv, rest, -, hm⟩ := step_next hstep
  · exact ⟨_, rfl, freeRun_inv hx h⟩
  · exact move_inv hx (s := { s with schedule := rest }) h hm

end Sys2Proof.Machine

namespace Sys2Proof.Proofs

open Sys2Proof.Machine

/-- Settles O59: every move that has a next state keeps the invariant, and so does the machine running on. -/
theorem stepKeepsMachineInvariant : Obligations.StepKeepsMachineInvariant := by
  rintro ⟨s⟩ t ⟨hx, h⟩ hstep
  obtain ⟨u, rfl, hu⟩ := step_inv hx h hstep
  exact ⟨⟨hx, hu⟩, rfl, rfl⟩

/-- Settles O2: memory is empty and both blocks are idle. -/
theorem resetMeetsMachineInvariant : Obligations.ResetMeetsMachineInvariant :=
  ⟨by decide, reset_mem_wf, trivial, trivial, fun heb _ => by cases heb⟩

end Sys2Proof.Proofs
end

section
/-!
PROOFS. Token boundaries (R21, R49, R50): parsing a stream and then what follows it, and DEC's read cursor.
-/

namespace Sys2Proof.Machine

variable {xlen addrW : Nat} {d : Dec xlen addrW} {m : Memory}

/-- A stream that parses may be followed by any other: the tokens of both come in order. -/
theorem parse_append (ys : List Byte) :
    ∀ {xs : List Byte} {is : List Instr}, parse xs = some is → parse (xs ++ ys) = (parse ys).map (is ++ ·)
  | [], is, h => by
    obtain rfl : [] = is := by simpa using h
    simp
  | t :: rest, is, h => by
    cases ht : isMarker t
    · rw [parse_literal t rest ht, Option.map_eq_some_iff] at h
      obtain ⟨js, hjs, rfl⟩ := h
      rw [List.cons_append, parse_literal t _ ht, parse_append ys hjs, Option.map_map]
      rfl
    · match rest, h with
      | [], h => rw [parse_truncated t ht] at h; cases h
      | v :: rest', h =>
        rw [parse_run t v rest' ht, Option.map_eq_some_iff] at h
        obtain ⟨js, hjs, rfl⟩ := h
        rw [List.cons_append, List.cons_append, parse_run t v _ ht, parse_append ys hjs, Option.map_map]
        rfl

theorem parsable_append {xs ys : List Byte} (hx : parsable xs = true) (hy : parsable ys = true) :
    parsable (xs ++ ys) = true := by
  obtain ⟨is, his⟩ := Option.isSome_iff_exists.mp hx
  obtain ⟨js, hjs⟩ := Option.isSome_iff_exists.mp hy
  rw [parsable, parse_append ys his, hjs]
  rfl

theorem parsable_literal {t : Byte} (ht : isMarker t = false) : parsable [t] = true := by
  rw [parsable, parse_literal t [] ht, parse_nil]
  rfl

theorem parsable_run {t : Byte} (ht : isMarker t = true) (v : Byte) : parsable [t, v] = true := by
  rw [parsable, parse_run t v [] ht, parse_nil]
  rfl

/-- The bytes of a buffer whose elements are unchanged are unchanged. -/
theorem bytesAt_congr {m' : Memory} {base : Addr addrW} {n : Nat}
    (h : ∀ i, i < n → memRead m' (elementAddr base i) = memRead m (elementAddr base i)) :
    bytesAt m' base n = bytesAt m base n :=
  List.map_congr_left fun i hi => h i (List.mem_range.mp hi)

/-! ### The boundary, state by state -/

theorem Dec.onBoundary_fetch (hs : d.st = .fetch) :
    d.OnBoundary m ↔ parsable (bytesAt m d.data d.rd.toNat) = true := by
  simp only [Dec.OnBoundary, hs]

theorem Dec.onBoundary_value (hs : d.st = .value) :
    d.OnBoundary m ↔ parsable (bytesAt m d.data (d.rd.toNat - 1)) = true := by
  simp only [Dec.OnBoundary, hs]

theorem Dec.onBoundary_expand (hs : d.st = .expand) :
    d.OnBoundary m ↔ parsable (bytesAt m d.data d.rd.toNat) = true := by
  simp only [Dec.OnBoundary, hs]

/-- A finished block has no cursor to speak of. -/
theorem Dec.onBoundary_done (hs : d.st = .done) : d.OnBoundary m := by
  simp only [Dec.OnBoundary, hs]

/-! ### Each state's transition keeps it -/

theorem decCheck_onBoundary (d : Dec xlen addrW) (m : Memory) : (decCheck d).OnBoundary m := by
  unfold decCheck
  split
  · exact Dec.onBoundary_done rfl
  · split
    · exact Dec.onBoundary_done rfl
    · exact (Dec.onBoundary_fetch rfl).mpr (by simp [parsable])

/-- R98: a literal extends the parsed stream; a marker leaves the boundary one byte behind `rd`. -/
theorem decFetch_onBoundary (hs : d.st = .fetch) (hrd : d.rd.toNat < d.len.toNat) (h : d.OnBoundary m) :
    (decFetch d (d.cell m d.rd.toNat)).OnBoundary m := by
  have hp := (Dec.onBoundary_fetch hs).mp h
  have hsucc := toNat_succ hrd
  unfold decFetch
  split
  · split
    · exact Dec.onBoundary_done rfl
    · refine (Dec.onBoundary_value rfl).mpr ?_
      simpa only [hsucc, Nat.add_sub_cancel] using hp
  next ht =>
    refine (Dec.onBoundary_expand rfl).mpr ?_
    simp only [hsucc, bytesAt_succ]
    exact parsable_append hp (parsable_literal (Bool.eq_false_of_not_eq_true ht))

/-- R99: a marker and its value byte extend the parsed stream. -/
theorem decValue_onBoundary (hs : d.st = .value) (hinv : d.Inv m) (h : d.OnBoundary m) (b : Byte) :
    (decValue d b).OnBoundary m := by
  obtain ⟨-, -, hpos, hrd, hmark, -⟩ := (Dec.inv_value hs).mp hinv
  have hp := (Dec.onBoundary_value hs).mp h
  have hsucc : (d.rd + 1#xlen).toNat = d.rd.toNat - 1 + 1 + 1 := by rw [toNat_succ hrd]; omega
  refine (Dec.onBoundary_expand rfl).mpr ?_
  simp only [decValue, hsucc, bytesAt_succ, List.append_assoc, List.cons_append, List.nil_append]
  exact parsable_append hp (parsable_run hmark _)

/-- R100, R42: a copy is written outside the stream, and the boundary stands for the next token. -/
theorem Dec.transition_expand_onBoundary (hs : d.st = .expand) (hinv : d.Inv m) (h : d.OnBoundary m) :
    (d.transition m).1.OnBoundary (d.transition m).2 := by
  obtain ⟨hL, hcur, -, hrd⟩ := (Dec.inv_expand hs).mp hinv
  have hp := (Dec.onBoundary_expand hs).mp h
  by_cases hc : d.cnt = 0#7
  · rw [Dec.transition_expand_close hs hc]
    unfold Dec.close
    split
    · exact Dec.onBoundary_done rfl
    · exact (Dec.onBoundary_fetch rfl).mpr hp
  cases hf : d.full
  · rw [Dec.transition_expand_write hs hc hf]
    have hbytes : bytesAt (memWrite m d.writeAddr d.val) d.data d.rd.toNat = bytesAt m d.data d.rd.toNat :=
      bytesAt_congr fun i hi => hL.cell_memWrite hcur hf m d.val (by omega)
    exact (Dec.onBoundary_expand (by exact hs)).mpr (by rwa [hbytes])
  · rw [Dec.transition_expand_full hs hc hf]
    exact Dec.onBoundary_done rfl

/-- R21: DEC's read cursor stays on token boundaries. -/
theorem Dec.transition_onBoundary (hinv : d.Inv m) (h : d.OnBoundary m) :
    (d.transition m).1.OnBoundary (d.transition m).2 := by
  cases hs : d.st with
  | idle => rwa [Dec.transition_of_not_busy (by simp [Dec.busy, hs])]
  | check => rw [Dec.transition_check hs]; exact decCheck_onBoundary d m
  | fetch =>
    obtain ⟨-, -, hrd⟩ := (Dec.inv_fetch hs).mp hinv
    rw [Dec.transition_fetch hs]
    exact decFetch_onBoundary hs hrd h
  | value => rw [Dec.transition_value hs]; exact decValue_onBoundary hs hinv h _
  | expand => exact Dec.transition_expand_onBoundary hs hinv h
  | done => rwa [Dec.transition_of_not_busy (by simp [Dec.busy, hs])]

end Sys2Proof.Machine

namespace Sys2Proof.Proofs

open Sys2Proof.Machine

/-- Settles O47, state by state. -/
theorem decStaysOnTokenBoundaries : Obligations.DecStaysOnTokenBoundaries :=
  fun _ _ _ _ _ _ hinv h => Dec.transition_onBoundary hinv h

end Sys2Proof.Proofs
end

section
/-!
PROOFS. What earlier operations left in a block's registers changes nothing (R11, R66, R89). `live` clears the registers
that the rest of the operation does not read before it writes them; access and next registers do not depend on these.
-/

namespace Sys2Proof.Machine

variable {xlen addrW : Nat}

/-! ### ENC -/

/-- ENC with the registers cleared that its operation, from this state on, does not read (R74 to R79). -/
def Enc.live (e : Enc xlen addrW) : Enc xlen addrW :=
  let base : Enc xlen addrW := { Enc.reset xlen addrW with st := e.st, buf := e.buf, len := e.len }
  match e.st with
  | .idle => base
  | .check => base
  | .validate => { base with rd := e.rd }
  | .head => { base with rd := e.rd, wr := e.wr }
  | .scan => { base with rd := e.rd, wr := e.wr, cnt := e.cnt, cur := e.cur }
  | .emit => { base with rd := e.rd, wr := e.wr, cnt := e.cnt, cur := e.cur }
  | .emitv => { base with rd := e.rd, wr := e.wr, cur := e.cur }
  | .done => { base with result := e.result, err := e.err }

@[simp] theorem Enc.live_st (e : Enc xlen addrW) : e.live.st = e.st := by unfold Enc.live; split <;> rfl

/-- A finished block's report is live. -/
theorem Enc.live_report {e : Enc xlen addrW} (h : e.st = .done) : e.live.result = e.result ∧ e.live.err = e.err := by
  simp [Enc.live, h]

/-- In the check state only the operands are live. -/
theorem Enc.live_check {e₁ e₂ : Enc xlen addrW} (h₁ : e₁.st = .check) (h₂ : e₂.st = .check) (hbuf : e₁.buf = e₂.buf)
    (hlen : e₁.len = e₂.len) : e₁.live = e₂.live := by
  simp [Enc.live, h₁, h₂, hbuf, hlen]

/-- The live registers fix the access. -/
theorem Enc.access_live (e : Enc xlen addrW) : e.live.access = e.access := by
  cases hs : e.st <;>
    simp [Enc.access, Enc.live, hs, Enc.readAddr, Enc.writeAddr, Enc.groupClosed, Enc.firstByte]

theorem encCheck_live {e : Enc xlen addrW} (hs : e.st = .check) : (encCheck e.live).live = (encCheck e).live := by
  by_cases hbuf : e.buf = Config.nullAddr
  · simp [encCheck, Enc.live, hs, hbuf]
  · cases hlen : e.len.sle 0#xlen <;> simp [encCheck, Enc.live, hs, hbuf, hlen]

theorem encValidate_live {e : Enc xlen addrW} (hs : e.st = .validate) (b : Byte) :
    (encValidate e.live b).live = (encValidate e b).live := by
  cases hb : b.msb
  · by_cases hend : e.rd + 1#xlen = e.len <;> simp [encValidate, Enc.live, hs, hb, hend]
  · simp [encValidate, Enc.live, hs, hb]

theorem encHead_live {e : Enc xlen addrW} (hs : e.st = .head) (b : Byte) :
    (encHead e.live b).live = (encHead e b).live := by
  simp [encHead, Enc.live, hs]

theorem encScan_live {e : Enc xlen addrW} (hs : e.st = .scan) (b : Byte) :
    (encScan e.live b).live = (encScan e b).live := by
  by_cases hc : e.rd = e.len ∨ e.cnt = 127#7
  · simp [encScan, Enc.groupClosed, Enc.live, hs, hc]
  · by_cases hb : b = e.cur <;> simp [encScan, Enc.groupClosed, Enc.live, hs, hc, hb]

theorem encEmit_live {e : Enc xlen addrW} (hs : e.st = .emit) : (encEmit e.live).live = (encEmit e).live := by
  by_cases hone : e.cnt = 1#7
  · by_cases hend : e.rd = e.len <;> simp [encEmit, encGroupDone, Enc.live, hs, hone, hend]
  · simp [encEmit, Enc.live, hs, hone]

theorem encEmitv_live {e : Enc xlen addrW} (hs : e.st = .emitv) : (encEmitv e.live).live = (encEmitv e).live := by
  by_cases hend : e.rd = e.len <;> simp [encEmitv, encGroupDone, Enc.live, hs, hend]

/-- The live registers fix the next live registers. -/
theorem Enc.next_live (e : Enc xlen addrW) (b : Byte) : (e.live.next b).live = (e.next b).live := by
  unfold Enc.next
  rw [Enc.live_st]
  cases hs : e.st with
  | idle => simp [Enc.live, hs]
  | check => exact encCheck_live hs
  | validate => exact encValidate_live hs b
  | head => exact encHead_live hs b
  | scan => exact encScan_live hs b
  | emit => exact encEmit_live hs
  | emitv => exact encEmitv_live hs
  | done => simp [Enc.live, hs]

/-- Operations that agree on the live registers agree on them, and on the memory, after any number of transitions. -/
theorem Enc.run_of_live_eq :
    ∀ (n : Nat) {e₁ e₂ : Enc xlen addrW} (m : Memory), e₁.live = e₂.live →
      (Enc.run n e₁ m).1.live = (Enc.run n e₂ m).1.live ∧ (Enc.run n e₁ m).2 = (Enc.run n e₂ m).2
  | 0, _, _, _, h => ⟨h, rfl⟩
  | n + 1, e₁, e₂, m, h => by
    have haccess : e₁.access = e₂.access := by rw [← Enc.access_live, h, Enc.access_live]
    have hnext : ∀ b, (e₁.next b).live = (e₂.next b).live := fun b => by rw [← Enc.next_live, h, Enc.next_live]
    rw [Enc.run, Enc.run, Enc.transition, Enc.transition, haccess]
    exact Enc.run_of_live_eq n _ (hnext _)

/-! ### DEC -/

/-- DEC with the registers cleared that its operation, from this state on, does not read (R97 to R100). -/
def Dec.live (d : Dec xlen addrW) : Dec xlen addrW :=
  let base : Dec xlen addrW :=
    { Dec.reset xlen addrW with st := d.st, data := d.data, len := d.len, out := d.out, maxLen := d.maxLen }
  match d.st with
  | .idle => base
  | .check => base
  | .fetch => { base with rd := d.rd, wr := d.wr }
  | .value => { base with rd := d.rd, wr := d.wr, cnt := d.cnt }
  | .expand => { base with rd := d.rd, wr := d.wr, cnt := d.cnt, val := d.val }
  | .done => { base with result := d.result, err := d.err }

@[simp] theorem Dec.live_st (d : Dec xlen addrW) : d.live.st = d.st := by unfold Dec.live; split <;> rfl

/-- A finished block's report is live. -/
theorem Dec.live_report {d : Dec xlen addrW} (h : d.st = .done) : d.live.result = d.result ∧ d.live.err = d.err := by
  simp [Dec.live, h]

/-- In the check state only the operands are live. -/
theorem Dec.live_check {d₁ d₂ : Dec xlen addrW} (h₁ : d₁.st = .check) (h₂ : d₂.st = .check) (hdata : d₁.data = d₂.data)
    (hlen : d₁.len = d₂.len) (hout : d₁.out = d₂.out) (hmax : d₁.maxLen = d₂.maxLen) : d₁.live = d₂.live := by
  simp [Dec.live, h₁, h₂, hdata, hlen, hout, hmax]

/-- The live registers fix the access. -/
theorem Dec.access_live (d : Dec xlen addrW) : d.live.access = d.access := by
  cases hs : d.st <;> simp [Dec.access, Dec.live, hs, Dec.readAddr, Dec.writeAddr, Dec.writes, Dec.full]

theorem decCheck_live {d : Dec xlen addrW} (hs : d.st = .check) : (decCheck d.live).live = (decCheck d).live := by
  by_cases hnull : d.data = Config.nullAddr ∨ d.out = Config.nullAddr
  · simp [decCheck, Dec.live, hs, hnull]
  · cases hlen : d.len.sle 0#xlen <;> simp [decCheck, Dec.live, hs, hnull, hlen]

theorem decFetch_live {d : Dec xlen addrW} (hs : d.st = .fetch) (t : Byte) :
    (decFetch d.live t).live = (decFetch d t).live := by
  cases ht : isMarker t
  · simp [decFetch, Dec.live, hs, ht]
  · by_cases hend : d.rd + 1#xlen = d.len <;> simp [decFetch, Dec.live, hs, ht, hend]

theorem decValue_live {d : Dec xlen addrW} (hs : d.st = .value) (v : Byte) :
    (decValue d.live v).live = (decValue d v).live := by
  simp [decValue, Dec.live, hs]

theorem decExpand_live {d : Dec xlen addrW} (hs : d.st = .expand) : (decExpand d.live).live = (decExpand d).live := by
  by_cases hc : d.cnt = 0#7
  · by_cases hend : d.rd = d.len <;> simp [decExpand, Dec.close, Dec.live, hs, hc, hend]
  · cases hf : d.maxLen.sle d.wr <;> simp [decExpand, Dec.full, Dec.live, hs, hc, hf]

/-- The live registers fix the next live registers. -/
theorem Dec.next_live (d : Dec xlen addrW) (b : Byte) : (d.live.next b).live = (d.next b).live := by
  unfold Dec.next
  rw [Dec.live_st]
  cases hs : d.st with
  | idle => simp [Dec.live, hs]
  | check => exact decCheck_live hs
  | fetch => exact decFetch_live hs b
  | value => exact decValue_live hs b
  | expand => exact decExpand_live hs
  | done => simp [Dec.live, hs]

/-- Operations that agree on the live registers agree on them, and on the memory, after any number of transitions. -/
theorem Dec.run_of_live_eq :
    ∀ (n : Nat) {d₁ d₂ : Dec xlen addrW} (m : Memory), d₁.live = d₂.live →
      (Dec.run n d₁ m).1.live = (Dec.run n d₂ m).1.live ∧ (Dec.run n d₁ m).2 = (Dec.run n d₂ m).2
  | 0, _, _, _, h => ⟨h, rfl⟩
  | n + 1, d₁, d₂, m, h => by
    have haccess : d₁.access = d₂.access := by rw [← Dec.access_live, h, Dec.access_live]
    have hnext : ∀ b, (d₁.next b).live = (d₂.next b).live := fun b => by rw [← Dec.next_live, h, Dec.next_live]
    rw [Dec.run, Dec.run, Dec.transition, Dec.transition, haccess]
    exact Dec.run_of_live_eq n _ (hnext _)

end Sys2Proof.Machine

namespace Sys2Proof.Proofs

open Sys2Proof.Machine

/-- Settles O30: in the check state the live registers are the operands. -/
theorem encForgetsEarlierOperations : Obligations.EncForgetsEarlierOperations := by
  intro xlen addrW e₁ e₂ m n h₁ h₂ hbuf hlen
  obtain ⟨hlive, hmem⟩ := Enc.run_of_live_eq n m (Enc.live_check h₁ h₂ hbuf hlen)
  have hst : (Enc.run n e₁ m).1.st = (Enc.run n e₂ m).1.st := by rw [← Enc.live_st, hlive, Enc.live_st]
  refine ⟨hst, hmem, fun hdone => ?_⟩
  obtain ⟨hr₁, he₁⟩ := Enc.live_report hdone
  obtain ⟨hr₂, he₂⟩ := Enc.live_report (hst ▸ hdone)
  rw [← hr₁, ← he₁, hlive]
  exact ⟨hr₂, he₂⟩

/-- Settles O49: in the check state the live registers are the operands. -/
theorem decForgetsEarlierOperations : Obligations.DecForgetsEarlierOperations := by
  intro xlen addrW d₁ d₂ m n h₁ h₂ hdata hlen hout hmax
  obtain ⟨hlive, hmem⟩ := Dec.run_of_live_eq n m (Dec.live_check h₁ h₂ hdata hlen hout hmax)
  have hst : (Dec.run n d₁ m).1.st = (Dec.run n d₂ m).1.st := by rw [← Dec.live_st, hlive, Dec.live_st]
  refine ⟨hst, hmem, fun hdone => ?_⟩
  obtain ⟨hr₁, he₁⟩ := Dec.live_report hdone
  obtain ⟨hr₂, he₂⟩ := Dec.live_report (hst ▸ hdone)
  rw [← hr₁, ← he₁, hlive]
  exact ⟨hr₂, he₂⟩

end Sys2Proof.Proofs
end

section
/-!
PROOFS. The host's side (R14, R22, R124, R125): start steps, reports and loads, and what a step is (R10, R131).
-/

namespace Sys2Proof.Machine

variable {xlen addrW : Nat} {s : Chip xlen addrW}

/-! ### Start steps (R14, R27, R39, R42) -/

/-- The machine after ENC's start step: the ports latched, `st` in `E_CHECK`, nothing else changed (R14). -/
def Chip.startedEnc (s : Chip xlen addrW) : Chip xlen addrW :=
  { s with enc := { s.enc with buf := s.ports.buf, len := s.ports.encLen, st := .check } }

/-- The machine after DEC's start step: the ports latched, `st` in `D_CHECK`, nothing else changed (R14). -/
def Chip.startedDec (s : Chip xlen addrW) : Chip xlen addrW :=
  { s with dec := { s.dec with
      data := s.ports.data, len := s.ports.decLen, out := s.ports.out, maxLen := s.ports.maxLen, st := .check } }

/-- The start step, the other way round: an idle or finished ENC whose buffer neither wraps nor meets DEC's starts. -/
theorem moveStartEnc_eq_next (hb : s.enc.busy = false) (hw : (encRegion s.ports.buf s.ports.encLen).wraps addrW = false)
    (hm : s.dec.busy = true → (encRegion s.ports.buf s.ports.encLen).meets s.dec.dataBuffer = false
      ∧ (encRegion s.ports.buf s.ports.encLen).meets s.dec.outBuffer = false) :
    moveStartEnc s = .next ⟨s.startedEnc⟩ := by
  have hapart : (s.decOutOwned ++ s.decDataOwned).any (fun q => (encRegion s.ports.buf s.ports.encLen).meets q) = false := by
    cases hd : s.dec.busy
    · simp [Chip.decOutOwned, Chip.decDataOwned, hd]
    · simp [Chip.decOutOwned, Chip.decDataOwned, hd, hm hd]
  simp [moveStartEnc, hb, hw, hapart, Chip.startedEnc]

/-- The start step, the other way round: an idle or finished DEC whose buffers neither wrap nor meet starts. -/
theorem moveStartDec_eq_next
    (hb : s.dec.busy = false)
    (hwd : (dataRegion s.ports.data s.ports.decLen s.ports.out).wraps addrW = false)
    (hwo : (outRegion s.ports.data s.ports.decLen s.ports.out s.ports.maxLen).wraps addrW = false)
    (hbuf : (dataRegion s.ports.data s.ports.decLen s.ports.out).meets
      (outRegion s.ports.data s.ports.decLen s.ports.out s.ports.maxLen) = false)
    (hm : s.enc.busy = true → (dataRegion s.ports.data s.ports.decLen s.ports.out).meets s.enc.buffer = false
      ∧ (outRegion s.ports.data s.ports.decLen s.ports.out s.ports.maxLen).meets s.enc.buffer = false) :
    moveStartDec s = .next ⟨s.startedDec⟩ := by
  have hapart : s.encOwned.any (fun q => (dataRegion s.ports.data s.ports.decLen s.ports.out).meets q
      || (outRegion s.ports.data s.ports.decLen s.ports.out s.ports.maxLen).meets q) = false := by
    cases he : s.enc.busy
    · simp [Chip.encOwned, he]
    · simp [Chip.encOwned, he, hm he]
  simp [moveStartDec, hb, hwd, hwo, hbuf, hapart, Chip.startedDec]

/-- A region without cells meets none. -/
theorem Region.meets_of_size_zero {r : Region} (h : r.size = 0) (q : Region) : r.meets q = false := by
  simp [Region.meets, h]

/-- A region that starts in the address space and has no cells does not wrap. -/
theorem Region.wraps_of_size_zero (base : Addr addrW) : Region.wraps addrW { base := base.toNat, size := 0 } = false :=
  (Region.wraps_eq_false_iff _).mpr base.isLt.le

/-- A buffer that does not wrap has no region that does, whether its operands pass their checks or not. -/
theorem Region.wraps_ite {base n : Nat} (ok : Bool) (h : base + n ≤ addrSpace addrW) :
    Region.wraps addrW { base := base, size := if ok then n else 0 } = false := by
  rw [Region.wraps_eq_false_iff]
  cases ok <;> simp only [Bool.false_eq_true, if_false, if_true] <;> omega

/-- The cells of a buffer's region are the buffer's, whether its operands pass their checks or not. -/
theorem Region.contains_ite {base n a : Nat} {ok : Bool}
    (h : Region.contains { base := base, size := if ok then n else 0 } a = true) : base ≤ a ∧ a < base + n := by
  rw [Region.contains_iff] at h
  cases ok <;> simp only [Bool.false_eq_true, if_false, if_true] at h <;> omega

/-- R37: operands that fail ENC's checks name no cell. -/
theorem encRegion_of_failing {buf : Addr addrW} {len : Word xlen} (h : buf = 0#addrW ∨ len.toInt ≤ 0) :
    encRegion buf len = { base := buf.toNat, size := 0 } := by
  rw [encRegion, if_neg]
  rw [encOperandsOk_iff]
  rintro ⟨hbuf, hlen⟩
  exact h.elim hbuf (by omega)

/-- R37: operands that fail DEC's checks name no cell. -/
theorem decOperandsOk_of_failing {data out : Addr addrW} {len : Word xlen}
    (h : data = 0#addrW ∨ out = 0#addrW ∨ len.toInt ≤ 0) : decOperandsOk data len out = false := by
  rw [← Bool.not_eq_true, decOperandsOk_iff]
  rintro ⟨hdata, hout, hlen⟩
  exact h.elim hdata fun h => h.elim hout (by omega)

/-- A launch whose operand checks will fail is a start step, whatever its buffers (log entry 11). -/
theorem moveStartEnc_of_failing (hb : s.enc.busy = false) (h : s.ports.buf = 0#addrW ∨ s.ports.encLen.toInt ≤ 0) :
    moveStartEnc s = .next ⟨s.startedEnc⟩ := by
  have hr := encRegion_of_failing h
  refine moveStartEnc_eq_next hb ?_ fun _ => ?_ <;> rw [hr]
  · exact Region.wraps_of_size_zero _
  · exact ⟨Region.meets_of_size_zero rfl _, Region.meets_of_size_zero rfl _⟩

/-- A launch whose buffer neither wraps nor shares a cell with DEC's is a start step. -/
theorem moveStartEnc_of_disjoint (hb : s.enc.busy = false)
    (hfit : s.ports.buf.toNat + clipSize s.ports.encLen ≤ addrSpace addrW)
    (hdis : s.dec.busy = true → ∀ a, s.ports.buf.toNat ≤ a → a < s.ports.buf.toNat + clipSize s.ports.encLen →
      s.dec.dataBuffer.contains a = false ∧ s.dec.outBuffer.contains a = false) :
    moveStartEnc s = .next ⟨s.startedEnc⟩ := by
  have hcells : s.dec.busy = true → ∀ a, (encRegion s.ports.buf s.ports.encLen).contains a = true →
      s.dec.dataBuffer.contains a = false ∧ s.dec.outBuffer.contains a = false := fun hd a ha => by
    obtain ⟨hlo, hhi⟩ := Region.contains_ite ha
    exact hdis hd a hlo hhi
  exact moveStartEnc_eq_next hb (Region.wraps_ite _ hfit) fun hd =>
    ⟨Region.meets_eq_false_of_disjoint fun a ha => (hcells hd a ha).1,
      Region.meets_eq_false_of_disjoint fun a ha => (hcells hd a ha).2⟩

/-- A launch whose operand checks will fail is a start step, whatever its buffers (log entry 11). -/
theorem moveStartDec_of_failing (hb : s.dec.busy = false)
    (h : s.ports.data = 0#addrW ∨ s.ports.out = 0#addrW ∨ s.ports.decLen.toInt ≤ 0) :
    moveStartDec s = .next ⟨s.startedDec⟩ := by
  have hok := decOperandsOk_of_failing h
  have hd : dataRegion s.ports.data s.ports.decLen s.ports.out = { base := s.ports.data.toNat, size := 0 } := by
    simp [dataRegion, hok]
  have ho : outRegion s.ports.data s.ports.decLen s.ports.out s.ports.maxLen = { base := s.ports.out.toNat, size := 0 } := by
    simp [outRegion, hok]
  exact moveStartDec_eq_next hb (hd ▸ Region.wraps_of_size_zero _) (ho ▸ Region.wraps_of_size_zero _)
    (hd ▸ Region.meets_of_size_zero rfl _)
    fun _ => ⟨hd ▸ Region.meets_of_size_zero rfl _, ho ▸ Region.meets_of_size_zero rfl _⟩

/-- A launch whose buffers neither wrap nor share a cell with each other or with ENC's is a start step. -/
theorem moveStartDec_of_disjoint (hb : s.dec.busy = false)
    (hfitd : s.ports.data.toNat + clipSize s.ports.decLen ≤ addrSpace addrW)
    (hfito : s.ports.out.toNat + clipSize s.ports.maxLen ≤ addrSpace addrW)
    (hbuf : ∀ a, s.ports.data.toNat ≤ a → a < s.ports.data.toNat + clipSize s.ports.decLen →
      ¬ (s.ports.out.toNat ≤ a ∧ a < s.ports.out.toNat + clipSize s.ports.maxLen))
    (hdis : s.enc.busy = true → ∀ a,
      (s.ports.data.toNat ≤ a ∧ a < s.ports.data.toNat + clipSize s.ports.decLen)
        ∨ (s.ports.out.toNat ≤ a ∧ a < s.ports.out.toNat + clipSize s.ports.maxLen) →
      s.enc.buffer.contains a = false) :
    moveStartDec s = .next ⟨s.startedDec⟩ := by
  refine moveStartDec_eq_next hb (Region.wraps_ite _ hfitd) (Region.wraps_ite _ hfito)
    (Region.meets_eq_false_of_disjoint fun a ha => ?_) fun he =>
      ⟨Region.meets_eq_false_of_disjoint fun a ha => hdis he a (.inl (Region.contains_ite ha)),
        Region.meets_eq_false_of_disjoint fun a ha => hdis he a (.inr (Region.contains_ite ha))⟩
  obtain ⟨hlo, hhi⟩ := Region.contains_ite ha
  exact Bool.eq_false_iff.mpr fun ho => hbuf a hlo hhi (Region.contains_ite ho)

/-! ### Loads (R22, R34, R125) -/

theorem Chip.written_iff (s : Chip xlen addrW) (c : Addr addrW) :
    s.written c = true ↔ (s.enc.busy = true ∧ inBuffer s.enc.buf (clipSize s.enc.len) c = true)
      ∨ (s.dec.busy = true ∧ inBuffer s.dec.out (clipSize s.dec.maxLen) c = true) := by
  simp [Chip.written]

theorem Chip.owned_iff (s : Chip xlen addrW) (c : Addr addrW) :
    s.owned c = true ↔ (s.enc.busy = true ∧ inBuffer s.enc.buf (clipSize s.enc.len) c = true)
      ∨ (s.dec.busy = true ∧ inBuffer s.dec.data (clipSize s.dec.len) c = true)
      ∨ (s.dec.busy = true ∧ inBuffer s.dec.out (clipSize s.dec.maxLen) c = true) := by
  rw [Chip.owned, Bool.or_eq_true, Chip.written_iff, Bool.and_eq_true]
  tauto

/-- What an outside agent gets from a cell (U1 to U4, U14; log entry 6). -/
theorem Chip.loaded_cases (c : Addr addrW) (s : Chip xlen addrW) :
    (inRegions s.voids c.toNat = false → s.loaded c = memRead s.mem c ∧ s.freshAfterLoad c = s.fresh)
      ∧ (inRegions s.voids c.toNat = true → s.loaded c = Config.freeByte s.fresh ∧ s.freshAfterLoad c = s.fresh + 1) := by
  constructor <;> intro h <;> simp [Chip.loaded, Chip.freshAfterLoad, h]

/-! ### What a step is (R10, R131) -/

theorem step_of_schedule {mv : Move xlen addrW} {rest : List (Move xlen addrW)} (h : s.schedule = mv :: rest) :
    step ⟨s⟩ = move mv { s with schedule := rest } := by
  simp [step, h]

theorem step_of_empty_schedule (h : s.schedule = []) : step ⟨s⟩ = .next ⟨freeRun s⟩ := by
  simp [step, h]

theorem freeRun_idle (he : s.enc.busy = false) (hd : s.dec.busy = false) : freeRun s = s := by
  simp [freeRun, he, hd]

theorem freeRun_enc (he : s.enc.busy = true) (hd : s.dec.busy = false) : freeRun s = encMove s := by
  simp [freeRun, he, hd]

theorem freeRun_dec (he : s.enc.busy = false) (hd : s.dec.busy = true) : freeRun s = decMove s := by
  simp [freeRun, he, hd]

/-- R39: with both blocks busy one of them moves, and a free value has been used to choose it. -/
theorem freeRun_both (he : s.enc.busy = true) (hd : s.dec.busy = true) :
    freeRun s = encMove { s with fresh := s.fresh + 1 } ∨ freeRun s = decMove { s with fresh := s.fresh + 1 } := by
  simp only [freeRun, he, hd]
  split
  · exact .inl rfl
  · exact .inr rfl

theorem moveToken_of_decode {i : Instr} {more : List Byte} (hs : s.dec.st = .fetch)
    (hd : decode (s.dec.window s.mem) = .ok (i, more)) : moveToken s = exec i ⟨s⟩ := by
  rw [moveToken, if_pos hs, hd]

/-! ### Reports (R17, R18, R120) -/

theorem causeCode_eq_zero_iff (c : Cause) : causeCode c = 0#3 ↔ c = .none := by
  cases c <;> decide

theorem toInt_neg_one (hx : Config.xlenMin ≤ xlen) : (-1#xlen).toInt = -1 := by
  rw [BitVec.neg_one_eq_allOnes, BitVec.toInt_allOnes, if_pos (Nat.lt_of_lt_of_le (by decide) hx)]

/-- ENC reports success exactly where `ERR` is `NONE`. -/
theorem Enc.Reported.err_none_iff {e : Enc xlen addrW} (hx : Config.xlenMin ≤ xlen) (h : e.Reported) :
    e.err = .none ↔ 1 ≤ e.result.toInt := by
  have hneg := toInt_neg_one hx
  obtain ⟨herr, hpos, -⟩ | ⟨herr, hres⟩ | ⟨herr, hres⟩ | ⟨herr, hres⟩ := h
  · simp [herr, hpos]
  · simp [herr, hres]
  · simp [herr, hres]
  · simp [herr, hres, hneg]

/-- DEC reports success exactly where `ERR` is `NONE`. -/
theorem Dec.Reported.err_none_iff {d : Dec xlen addrW} (hx : Config.xlenMin ≤ xlen) (h : d.Reported) :
    d.err = .none ↔ 0 ≤ d.result.toInt := by
  have hneg := toInt_neg_one hx
  obtain ⟨herr, hpos, -⟩ | ⟨herr, -, hres⟩ := h
  · simp [herr, hpos]
  · simp [herr, hres, hneg]

end Sys2Proof.Machine

namespace Sys2Proof.Proofs

open Sys2Proof.Machine

/-- Settles O53: launches that will fail, and launches on buffers apart. -/
theorem startLatchesThePorts : Obligations.StartLatchesThePorts := by
  refine ⟨fun _ _ _ _ _ => rfl, fun _ _ _ _ _ _ _ => rfl, fun _ _ s hb => ?_, fun _ _ s hb => ?_,
    fun _ _ s hb h => ?_, fun _ _ s hb h => ?_⟩
  · simp [move, moveStartEnc, hb]
  · simp [move, moveStartDec, hb]
  · obtain hnull | hlen | ⟨hfit, hdis⟩ := h
    · exact moveStartEnc_of_failing hb (.inl hnull)
    · exact moveStartEnc_of_failing hb (.inr hlen)
    · exact moveStartEnc_of_disjoint hb hfit hdis
  · obtain hdata | hout | hlen | ⟨hfitd, hfito, hbuf, hdis⟩ := h
    · exact moveStartDec_of_failing hb (.inl hdata)
    · exact moveStartDec_of_failing hb (.inr (.inl hout))
    · exact moveStartDec_of_failing hb (.inr (.inr hlen))
    · exact moveStartDec_of_disjoint hb hfitd hfito hbuf hdis

/-- Settles O1, by the reset state itself. -/
theorem resetLeavesBothBlocksIdle : Obligations.ResetLeavesBothBlocksIdle :=
  ⟨fun _ _ => ⟨rfl, rfl, rfl, rfl, rfl, rfl⟩, rfl⟩

/-- Settles O43: the bytes named are the window that the token move decodes. -/
theorem stepRunsDecodedToken : Obligations.StepRunsDecodedToken := by
  intro xlen addrW s rest i more hsched hs hd
  rw [step_of_schedule hsched]
  exact moveToken_of_decode (s := { s with schedule := rest }) hs hd

/-- Settles O51: both equivalences are those of the reports that the invariants allow. -/
theorem successIsErrZero : Obligations.SuccessIsErrZero := by
  refine ⟨fun _ _ e m hx h hdone => ?_, fun _ _ d m hx h hdone => ?_⟩
  · rw [causeCode_eq_zero_iff]
    exact ((Enc.inv_done (of_decide_eq_true hdone)).mp h).err_none_iff hx
  · rw [causeCode_eq_zero_iff]
    exact ((Dec.inv_done (of_decide_eq_true hdone)).mp h).err_none_iff hx

/-- Settles O55, by the test of `done` in both reads. -/
theorem reportsAreReadOnlyWhenDone : Obligations.ReportsAreReadOnlyWhenDone := by
  refine fun _ _ s => ⟨fun h => ?_, fun h => ?_, fun h => ?_, fun h => ?_⟩
  · simp [move, moveReadEnc, Enc.done, h]
  · simp [move, moveReadEnc, Enc.done, h]
  · simp [move, moveReadDec, Dec.done, h]
  · simp [move, moveReadDec, Dec.done, h]

/-- Settles O57: a load is a race exactly on the owned (for another agent, the written) cells. -/
theorem loadsOfOtherAgents : Obligations.LoadsOfOtherAgents := by
  intro xlen addrW s c
  refine ⟨fun h => ?_, fun he hd ho => ?_, fun h => ?_, fun he ho => ?_⟩
  · exact if_pos ((s.owned_iff c).mpr h)
  · have hfree : ¬ s.owned c = true := fun h => ((s.owned_iff c).mp h).elim he fun h => h.elim hd ho
    exact ⟨s.loaded c, s.freshAfterLoad c, if_neg hfree, s.loaded_cases c⟩
  · exact if_pos ((s.written_iff c).mpr h)
  · have hfree : ¬ s.written c = true := fun h => ((s.written_iff c).mp h).elim he ho
    exact ⟨s.loaded c, s.freshAfterLoad c, if_neg hfree, s.loaded_cases c⟩

/-- Settles O58, by which of the blocks are busy. -/
theorem blockTurnTakesOneTransition : Obligations.BlockTurnTakesOneTransition := by
  intro xlen addrW s
  refine ⟨fun mv rest h => step_of_schedule h, fun he => ?_, fun hd => ?_, fun he hd h => ?_, fun he => ?_, fun hd => ?_,
    fun he hd h => ?_⟩
  · exact ⟨if_pos he, fun h hd => by rw [step_of_empty_schedule h, freeRun_enc he hd],
      encMove_enc s, encMove_mem s, encMove_dec s, encMove_ports s⟩
  · exact ⟨if_pos hd, fun h he => by rw [step_of_empty_schedule h, freeRun_dec he hd],
      decMove_dec s, decMove_mem s, decMove_enc s, decMove_ports s⟩
  · rw [step_of_empty_schedule h]
    obtain hrun | hrun := freeRun_both he hd
    · exact ⟨s.fresh + 1, .inl (by rw [hrun])⟩
    · exact ⟨s.fresh + 1, .inr (by rw [hrun])⟩
  · exact if_neg (by simp [he])
  · exact if_neg (by simp [hd])
  · rw [step_of_empty_schedule h, freeRun_idle he hd]

end Sys2Proof.Proofs
end

section
/-!
PROOFS. Bounds of memory accesses (R28, R37, R41, R102): where each block reads and writes under its invariant, and that
both lie in the buffers of its running operation.
-/

namespace Sys2Proof.Machine

variable {xlen addrW : Nat} {e : Enc xlen addrW} {d : Dec xlen addrW} {m m' : Memory}

/-! ### Where a transition reads -/

/-- R37: ENC reads the element of its buffer at its read cursor. -/
theorem Enc.access_read {a : Addr addrW} (h : e.Inv m) (ha : e.access = .read a) :
    e.Launched ∧ e.rd.toNat < e.len.toNat ∧ a = e.readAddr := by
  cases hs : e.st <;> simp only [Enc.access, hs, reduceCtorEq] at ha
  case validate =>
    obtain ⟨hL, hrd, -⟩ := (Enc.inv_validate hs).mp h
    cases ha
    exact ⟨hL, hrd, rfl⟩
  case head =>
    obtain ⟨hL, -, hrd, -⟩ := (Enc.inv_head hs).mp h
    cases ha
    exact ⟨hL, hrd, rfl⟩
  case scan =>
    obtain ⟨hL, -, -, hrd, -⟩ := (Enc.inv_scan hs).mp h
    split at ha
    next => cases ha
    next hopen =>
      have hne : e.rd ≠ e.len := fun heq => hopen (by simp [Enc.groupClosed, heq])
      cases ha
      exact ⟨hL, toNat_lt_of_le_of_ne hrd hne, rfl⟩

/-- R37: DEC reads the element of its stream at its read cursor. -/
theorem Dec.access_read {a : Addr addrW} (h : d.Inv m) (ha : d.access = .read a) :
    d.Launched ∧ d.rd.toNat < d.len.toNat ∧ a = d.readAddr := by
  cases hs : d.st <;> simp only [Dec.access, hs, reduceCtorEq] at ha
  case fetch =>
    obtain ⟨hL, -, hrd⟩ := (Dec.inv_fetch hs).mp h
    cases ha
    exact ⟨hL, hrd, rfl⟩
  case value =>
    obtain ⟨hL, -, -, hrd, -⟩ := (Dec.inv_value hs).mp h
    cases ha
    exact ⟨hL, hrd, rfl⟩
  case expand => split at ha <;> cases ha

/-- R37: ENC's read is a cell of its buffer. -/
theorem Enc.access_read_in_buffer {a : Addr addrW} (h : e.Inv m) (ha : e.access = .read a) :
    e.buffer.contains a.toNat = true := by
  obtain ⟨hL, hrd, rfl⟩ := Enc.access_read h ha
  exact hL.contains_element hrd

/-- R37: DEC's read is a cell of its stream. -/
theorem Dec.access_read_in_stream {a : Addr addrW} (h : d.Inv m) (ha : d.access = .read a) :
    d.dataBuffer.contains a.toNat = true := by
  obtain ⟨hL, hrd, rfl⟩ := Dec.access_read h ha
  exact hL.contains_stream hrd

/-- R102: where DEC has room for a byte its write cursor is below its capacity. -/
theorem Dec.wr_lt_maxLen (hc : d.CursorOk) (hf : d.full = false) : (d.wr.toNat : Int) < d.maxLen.toInt := by
  obtain ⟨hpos, -⟩ := hc
  rw [← (toInt_of_nonneg hpos).1, ← not_le, ← Dec.full_iff, hf]
  exact Bool.false_ne_true

/-! ### What an access does where two memories agree -/

/-- The cell that the access reads or writes, where it has one, satisfies `P`. -/
structure Access.Within (x : Access addrW) (P : Addr addrW → Prop) : Prop where
  read : ∀ a, x = .read a → P a
  write : ∀ a v, x = .write a v → P a

theorem Access.Within.mono {x : Access addrW} {P Q : Addr addrW → Prop} (hx : x.Within P) (h : ∀ c, P c → Q c) :
    x.Within Q :=
  ⟨fun a ha => h a (hx.read a ha), fun a v ha => h a (hx.write a v ha)⟩

theorem Access.nothing_within (P : Addr addrW → Prop) : Access.nothing.Within P := ⟨nofun, nofun⟩

/-- An access within a set of cells brings in what any memory with the same bytes there would give. -/
theorem Access.Within.fetch_eq {x : Access addrW} {P : Addr addrW → Prop} (hx : x.Within P)
    (h : ∀ c, P c → memRead m c = memRead m' c) : x.fetch m = x.fetch m' := by
  cases x with
  | read a => exact h a (hx.read a rfl)
  | write a v => rfl
  | nothing => rfl

/-- An access within a set of cells changes no cell outside it. -/
theorem Access.Within.apply_outside {x : Access addrW} {P : Addr addrW → Prop} (hx : x.Within P) {c : Addr addrW}
    (hc : ¬ P c) : memRead (x.apply m) c = memRead m c :=
  Access.apply_other m x c fun a v ha heq => hc (heq ▸ hx.write a v ha)

/-- An access keeps a cell alike in two memories. -/
theorem Access.apply_eq (x : Access addrW) {c : Addr addrW} (hm : m.wf addrW = true) (hm' : m'.wf addrW = true)
    (h : memRead m c = memRead m' c) : memRead (x.apply m) c = memRead (x.apply m') c := by
  cases x with
  | write a v => simp only [Access.apply_write, memRead_memWrite hm, memRead_memWrite hm', h]
  | read a => exact h
  | nothing => exact h

/-! ### The cells of a running operation (R28) -/

/-- The cell lies in the buffer of ENC's running operation. -/
def Enc.MayTouch (e : Enc xlen addrW) (c : Addr addrW) : Prop := e.busy = true ∧ e.buffer.contains c.toNat = true

/-- The cell lies in one of the buffers of DEC's running operation. -/
def Dec.MayTouch (d : Dec xlen addrW) (c : Addr addrW) : Prop :=
  d.busy = true ∧ (d.dataBuffer.contains c.toNat = true ∨ d.outBuffer.contains c.toNat = true)

/-- An idle or finished ENC makes no access (R14). -/
theorem Enc.access_of_not_busy (h : e.busy = false) : e.access = .nothing := by
  cases hs : e.st <;> simp [Enc.busy, hs] at h <;> simp only [Enc.access, hs]

/-- An idle or finished DEC makes no access (R14). -/
theorem Dec.access_of_not_busy (h : d.busy = false) : d.access = .nothing := by
  cases hs : d.st <;> simp [Dec.busy, hs] at h <;> simp only [Dec.access, hs]

/-- R37: every access of ENC is in the buffer of its running operation. -/
theorem Enc.access_within (h : e.Inv m) : e.access.Within e.MayTouch := by
  cases hb : e.busy
  · rw [Enc.access_of_not_busy hb]
    exact Access.nothing_within _
  · exact ⟨fun a ha => ⟨hb, Enc.access_read_in_buffer h ha⟩, fun a v ha => ⟨hb, Enc.access_write_in_buffer h ha⟩⟩

/-- R37: every access of DEC is in a buffer of its running operation. -/
theorem Dec.access_within (h : d.Inv m) : d.access.Within d.MayTouch := by
  cases hb : d.busy
  · rw [Dec.access_of_not_busy hb]
    exact Access.nothing_within _
  · exact ⟨fun a ha => ⟨hb, .inl (Dec.access_read_in_stream h ha)⟩,
      fun a v ha => ⟨hb, .inr (Dec.access_write_in_output h ha)⟩⟩

/-- A transition adds no cell to those of ENC's running operation. -/
theorem Enc.mayTouch_of_transition {c : Addr addrW} (h : (e.transition m).1.MayTouch c) : e.MayTouch c := by
  obtain ⟨hb, hc⟩ := h
  exact ⟨Enc.busy_of_transition_busy hb, by rwa [Enc.transition_buffer] at hc⟩

/-- A transition adds no cell to those of DEC's running operation. -/
theorem Dec.mayTouch_of_transition {c : Addr addrW} (h : (d.transition m).1.MayTouch c) : d.MayTouch c := by
  obtain ⟨hb, hc⟩ := h
  exact ⟨Dec.busy_of_transition_busy hb, by rwa [Dec.transition_dataBuffer, Dec.transition_outBuffer] at hc⟩

end Sys2Proof.Machine

namespace Sys2Proof.Proofs

open Sys2Proof.Machine

/-- Settles O28: the cursors are the indices. -/
theorem encAccessesStayInBounds : Obligations.EncAccessesStayInBounds := by
  refine fun _ _ e m _ h => ⟨fun a ha => ?_, fun a v ha => ?_⟩
  · obtain ⟨-, hrd, haddr⟩ := Enc.access_read h ha
    exact ⟨e.rd.toNat, hrd, haddr⟩
  · obtain ⟨-, hrd, hwr, haddr⟩ := Enc.access_write h ha
    exact ⟨e.wr.toNat, hwr, by omega, haddr⟩

/-- Settles O48: the cursors are the indices. -/
theorem decAccessesStayInBounds : Obligations.DecAccessesStayInBounds := by
  refine fun _ _ d m _ h => ⟨fun a ha => ?_, fun a v ha => ?_⟩
  · obtain ⟨-, hrd, haddr⟩ := Dec.access_read h ha
    exact ⟨d.rd.toNat, hrd, haddr⟩
  · obtain ⟨-, hcur, hf, haddr⟩ := Dec.access_write h ha
    exact ⟨Dec.wr_lt_maxLen hcur hf, haddr⟩

end Sys2Proof.Proofs
end

section
/-!
PROOFS. Interleavings of two disjoint operations (R39, R40): the machine's memory stays split into ENC's cells, which
follow ENC run alone, and the rest, which follows DEC run alone.
-/

namespace Sys2Proof.Machine

variable {xlen addrW : Nat} {s : Chip xlen addrW} {own : Addr addrW → Prop} {m₁ m₂ : Memory}

/-- The machine's memory holds the bytes of `m₁` on the cells `own` and those of `m₂` elsewhere, and ENC's running
operation keeps to the cells `own`, DEC's to the others. -/
structure Chip.SplitBy (s : Chip xlen addrW) (own : Addr addrW → Prop) (m₁ m₂ : Memory) : Prop where
  inv : s.Inv
  wf₁ : m₁.wf addrW = true
  wf₂ : m₂.wf addrW = true
  encSide : ∀ c, s.enc.MayTouch c → own c
  decSide : ∀ c, s.dec.MayTouch c → ¬ own c
  onOwn : ∀ c, own c → memRead s.mem c = memRead m₁ c
  offOwn : ∀ c, ¬ own c → memRead s.mem c = memRead m₂ c

/-- Running operations apart share no cell (R39). -/
theorem Chip.Apart.not_encMayTouch (h : s.Apart) {c : Addr addrW} (hd : s.dec.MayTouch c) : ¬ s.enc.MayTouch c := by
  obtain ⟨hdb, hdc⟩ := hd
  rintro ⟨heb, hec⟩
  obtain ⟨hdata, hout⟩ := h heb hdb
  obtain hdc | hdc := hdc
  · simp [Region.not_contains_of_meets_false hdata hec] at hdc
  · simp [Region.not_contains_of_meets_false hout hec] at hdc

/-- Before any turn the memory is split by the cells of ENC's running operation. -/
theorem Chip.splitBy_start (h : s.Inv) : s.SplitBy s.enc.MayTouch s.mem s.mem := by
  have ⟨hwf, _, _, hap⟩ := h
  exact ⟨h, hwf, hwf, fun _ hc => hc, fun _ hd => hap.not_encMayTouch hd, fun _ _ => rfl, fun _ _ => rfl⟩

/-- ENC's turn is its transition on its own memory, and DEC's own memory stays. -/
theorem encMove_splitBy (h : s.SplitBy own m₁ m₂) :
    (encMove s).enc = (s.enc.transition m₁).1 ∧ (encMove s).SplitBy own (s.enc.transition m₁).2 m₂ := by
  obtain ⟨hwf, he, -, -⟩ := h.inv
  have hin : s.enc.access.Within own := (Enc.access_within he).mono h.encSide
  refine ⟨?_, encMove_inv h.inv, Access.apply_wf h.wf₁ _, h.wf₂, fun c hc => ?_, ?_, fun c hc => ?_, fun c hc => ?_⟩
  · rw [encMove_enc, Enc.transition, Enc.transition, hin.fetch_eq h.onOwn]
  · rw [encMove_enc] at hc
    exact h.encSide c (Enc.mayTouch_of_transition hc)
  · rw [encMove_dec]
    exact h.decSide
  · rw [encMove_mem]
    exact Access.apply_eq _ hwf h.wf₁ (h.onOwn c hc)
  · rw [encMove_mem]
    exact (hin.apply_outside hc).trans (h.offOwn c hc)

/-- DEC's turn is its transition on its own memory, and ENC's own memory stays. -/
theorem decMove_splitBy (hx : Config.xlenMin ≤ xlen) (h : s.SplitBy own m₁ m₂) :
    (decMove s).dec = (s.dec.transition m₂).1 ∧ (decMove s).SplitBy own m₁ (s.dec.transition m₂).2 := by
  obtain ⟨hwf, -, hd, -⟩ := h.inv
  have hin : s.dec.access.Within fun c => ¬ own c := (Dec.access_within hd).mono h.decSide
  refine ⟨?_, decMove_inv hx h.inv, h.wf₁, Access.apply_wf h.wf₂ _, ?_, fun c hc => ?_, fun c hc => ?_, fun c hc => ?_⟩
  · rw [decMove_dec, Dec.transition, Dec.transition, hin.fetch_eq h.offOwn]
  · rw [decMove_enc]
    exact h.encSide
  · rw [decMove_dec] at hc
    exact h.decSide c (Dec.mayTouch_of_transition hc)
  · rw [decMove_mem]
    exact (hin.apply_outside (not_not_intro hc)).trans (h.onOwn c hc)
  · rw [decMove_mem]
    exact Access.apply_eq _ hwf h.wf₂ (h.offOwn c hc)

/-- R39: after any turns each block is where it would be alone, and the memory is split between the two lone runs. -/
theorem turns_splitBy (hx : Config.xlenMin ≤ xlen) :
    ∀ (bs : List Bool) {s : Chip xlen addrW} {m₁ m₂ : Memory}, s.SplitBy own m₁ m₂ →
      (turns bs s).enc = (Enc.run (bs.count true) s.enc m₁).1 ∧ (turns bs s).dec = (Dec.run (bs.count false) s.dec m₂).1
      ∧ (turns bs s).SplitBy own (Enc.run (bs.count true) s.enc m₁).2 (Dec.run (bs.count false) s.dec m₂).2
  | [], _, _, _, h => ⟨rfl, rfl, h⟩
  | true :: bs, _, _, _, h => by
    obtain ⟨he, hsplit⟩ := encMove_splitBy h
    have ih := turns_splitBy hx bs hsplit
    rw [he, encMove_dec] at ih
    rw [List.count_cons_self, List.count_cons_of_ne Bool.noConfusion]
    exact ih
  | false :: bs, _, _, _, h => by
    obtain ⟨hd, hsplit⟩ := decMove_splitBy hx h
    have ih := turns_splitBy hx bs hsplit
    rw [hd, decMove_enc] at ih
    rw [List.count_cons_self, List.count_cons_of_ne Bool.noConfusion]
    exact ih

end Sys2Proof.Machine

namespace Sys2Proof.Proofs

open Sys2Proof.Machine

/-- Settles O60, by induction over the turns: the memory stays split by the cells of ENC's running operation. -/
theorem everyInterleavingGivesEachItsOwnResult : Obligations.EveryInterleavingGivesEachItsOwnResult := by
  intro xlen addrW s bs hx h
  obtain ⟨he, hd, hsplit⟩ := turns_splitBy hx bs (Chip.splitBy_start h)
  refine ⟨he, hd, fun c => ?_⟩
  split
  next hown => exact hsplit.onOwn c hown
  next hown => exact hsplit.offOwn c hown

end Sys2Proof.Proofs
end

section
/-!
PROOFS. Launches that the spec gives no meaning (R27, R39, R42): operands that pass their checks name their whole
buffers, and the start step refuses them where these wrap or meet.
-/

namespace Sys2Proof.Machine

variable {xlen addrW : Nat} {s : Chip xlen addrW}

/-- R28: operands that pass ENC's checks name `buffer[0, LEN)`. -/
theorem encRegion_of_passing {buf : Addr addrW} {len : Word xlen} (hbuf : buf ≠ 0#addrW) (hlen : 0 < len.toInt) :
    encRegion buf len = { base := buf.toNat, size := len.toNat } := by
  rw [encRegion, if_pos ((encOperandsOk_iff _ _).mpr ⟨hbuf, hlen⟩), clipSize_of_pos hlen]

/-- R28: operands that pass DEC's checks name `data[0, LEN)`. -/
theorem dataRegion_of_passing {data out : Addr addrW} {len : Word xlen} (hdata : data ≠ 0#addrW) (hout : out ≠ 0#addrW)
    (hlen : 0 < len.toInt) : dataRegion data len out = { base := data.toNat, size := len.toNat } := by
  rw [dataRegion, if_pos ((decOperandsOk_iff _ _ _).mpr ⟨hdata, hout, hlen⟩), clipSize_of_pos hlen]

/-- R28: operands that pass DEC's checks name `output[0, MAXLEN)`. -/
theorem outRegion_of_passing {data out : Addr addrW} {len : Word xlen} (hdata : data ≠ 0#addrW) (hout : out ≠ 0#addrW)
    (hlen : 0 < len.toInt) (maxLen : Word xlen) :
    outRegion data len out maxLen = { base := out.toNat, size := clipSize maxLen } := by
  rw [outRegion, if_pos ((decOperandsOk_iff _ _ _).mpr ⟨hdata, hout, hlen⟩)]

/-- R27: a region that ends past the address space wraps. -/
theorem Region.wraps_iff (r : Region) : r.wraps addrW = true ↔ addrSpace addrW < r.base + r.size := by
  simp [Region.wraps]

/-- Regions with a common cell meet. -/
theorem Region.meets_of_common {r q : Region} {a : Nat} (hr : r.contains a = true) (hq : q.contains a = true) :
    r.meets q = true := by
  rw [← Bool.not_eq_false]
  intro hm
  simp [Region.not_contains_of_meets_false hm hr] at hq

/-- R27: ENC's launch on a buffer that wraps is refused. -/
theorem moveStartEnc_of_wraps (hb : s.enc.busy = false) (hw : (encRegion s.ports.buf s.ports.encLen).wraps addrW = true) :
    moveStartEnc s = .refused .bufferWraps := by
  simp [moveStartEnc, hb, hw]

/-- R39: ENC's launch on a buffer that meets one of a running DEC operation is refused. -/
theorem moveStartEnc_of_meets (hb : s.enc.busy = false) (hd : s.dec.busy = true)
    (hw : (encRegion s.ports.buf s.ports.encLen).wraps addrW = false)
    (hm : (encRegion s.ports.buf s.ports.encLen).meets s.dec.dataBuffer = true
      ∨ (encRegion s.ports.buf s.ports.encLen).meets s.dec.outBuffer = true) :
    moveStartEnc s = .refused .operationsOverlap := by
  have hany : (s.decOutOwned ++ s.decDataOwned).any (fun q => (encRegion s.ports.buf s.ports.encLen).meets q) = true := by
    simpa [Chip.decOutOwned, Chip.decDataOwned, hd] using hm.symm
  simp [moveStartEnc, hb, hw, hany]

/-- R27: DEC's launch on a buffer that wraps is refused. -/
theorem moveStartDec_of_wraps (hb : s.dec.busy = false)
    (hw : (dataRegion s.ports.data s.ports.decLen s.ports.out).wraps addrW = true
      ∨ (outRegion s.ports.data s.ports.decLen s.ports.out s.ports.maxLen).wraps addrW = true) :
    moveStartDec s = .refused .bufferWraps := by
  simp [moveStartDec, hb, hw]

/-- R42: DEC's launch on buffers that meet is refused. -/
theorem moveStartDec_of_buffers_meet (hb : s.dec.busy = false)
    (hwd : (dataRegion s.ports.data s.ports.decLen s.ports.out).wraps addrW = false)
    (hwo : (outRegion s.ports.data s.ports.decLen s.ports.out s.ports.maxLen).wraps addrW = false)
    (hm : (dataRegion s.ports.data s.ports.decLen s.ports.out).meets
      (outRegion s.ports.data s.ports.decLen s.ports.out s.ports.maxLen) = true) :
    moveStartDec s = .refused .buffersOverlap := by
  simp [moveStartDec, hb, hwd, hwo, hm]

/-- R39: DEC's launch on buffers apart, one of which meets a running ENC operation's, is refused. -/
theorem moveStartDec_of_meets (hb : s.dec.busy = false) (he : s.enc.busy = true)
    (hwd : (dataRegion s.ports.data s.ports.decLen s.ports.out).wraps addrW = false)
    (hwo : (outRegion s.ports.data s.ports.decLen s.ports.out s.ports.maxLen).wraps addrW = false)
    (hbuf : (dataRegion s.ports.data s.ports.decLen s.ports.out).meets
      (outRegion s.ports.data s.ports.decLen s.ports.out s.ports.maxLen) = false)
    (hm : (dataRegion s.ports.data s.ports.decLen s.ports.out).meets s.enc.buffer = true
      ∨ (outRegion s.ports.data s.ports.decLen s.ports.out s.ports.maxLen).meets s.enc.buffer = true) :
    moveStartDec s = .refused .operationsOverlap := by
  have hany : s.encOwned.any (fun q => (dataRegion s.ports.data s.ports.decLen s.ports.out).meets q
      || (outRegion s.ports.data s.ports.decLen s.ports.out s.ports.maxLen).meets q) = true := by
    simpa [Chip.encOwned, he] using hm
  simp [moveStartDec, hb, hwd, hwo, hbuf, hany]

end Sys2Proof.Machine

namespace Sys2Proof.Proofs

open Sys2Proof.Machine

/-- Settles O54: each clause's test is the first of the start step's that is met. -/
theorem launchesWithoutMeaningAreRefused : Obligations.LaunchesWithoutMeaningAreRefused := by
  refine ⟨fun _ _ s hb hbuf hlen hw => ?_, fun _ _ s a hb hd hbuf hlen hfit hlo hhi hmeet => ?_,
    fun _ _ s hb hdata hout hlen hw => ?_, fun _ _ s a hb hdata hout hlen hfitd hfito hdlo hdhi holo hohi => ?_,
    fun _ _ s a hb he hdata hout hlen hfitd hfito hapart hin hmeet => ?_⟩
  · refine moveStartEnc_of_wraps hb ?_
    rw [encRegion_of_passing hbuf hlen]
    exact (Region.wraps_iff _).mpr hw
  · have hcell := (Region.contains_iff ⟨_, _⟩ a).mpr ⟨hlo, hhi⟩
    refine moveStartEnc_of_meets hb hd ?_ ?_ <;> rw [encRegion_of_passing hbuf hlen]
    · exact (Region.wraps_eq_false_iff _).mpr hfit
    · exact hmeet.imp (Region.meets_of_common hcell) (Region.meets_of_common hcell)
  · refine moveStartDec_of_wraps hb ?_
    rw [dataRegion_of_passing hdata hout hlen, outRegion_of_passing hdata hout hlen]
    exact hw.imp (Region.wraps_iff _).mpr (Region.wraps_iff _).mpr
  · refine moveStartDec_of_buffers_meet hb (Region.wraps_ite _ (clipSize_of_pos hlen ▸ hfitd)) (Region.wraps_ite _ hfito) ?_
    rw [dataRegion_of_passing hdata hout hlen, outRegion_of_passing hdata hout hlen]
    exact Region.meets_of_common ((Region.contains_iff ⟨_, _⟩ a).mpr ⟨hdlo, hdhi⟩)
      ((Region.contains_iff ⟨_, _⟩ a).mpr ⟨holo, hohi⟩)
  · refine moveStartDec_of_meets hb he (Region.wraps_ite _ (clipSize_of_pos hlen ▸ hfitd)) (Region.wraps_ite _ hfito) ?_ ?_ <;>
      rw [dataRegion_of_passing hdata hout hlen, outRegion_of_passing hdata hout hlen]
    · refine Region.meets_eq_false_of_disjoint fun b hb => ?_
      obtain ⟨hlo, hhi⟩ := (Region.contains_iff _ _).mp hb
      exact Bool.eq_false_iff.mpr fun ho => hapart b hlo hhi ((Region.contains_iff _ _).mp ho)
    · exact hin.imp (fun h => Region.meets_of_common ((Region.contains_iff ⟨_, _⟩ a).mpr h) hmeet)
        fun h => Region.meets_of_common ((Region.contains_iff ⟨_, _⟩ a).mpr h) hmeet

end Sys2Proof.Proofs
end

section
/-!
PROOFS. Tokens and their bytes (R44 to R50, R54 to R56): what the decoder answers on each first byte, and that the encoder
and the decoder are inverse to each other, on tokens and on whole streams.
-/

namespace Sys2Proof

theorem isMarker_eq_false_iff (t : Byte) : isMarker t = false ↔ t.toNat < 128 := by
  rw [← Bool.not_eq_true, isMarker_iff, Nat.not_le]

/-- R47: `t[6:0]` is the first byte modulo 128. -/
theorem toNat_lowSeven (t : Byte) : (lowSeven t).toNat = t.toNat % 128 := BitVec.toNat_setWidth 7 t

/-- R48: the marker `0x80 | count` is `128 + count`. -/
theorem toNat_markerByte : ∀ c : Count, (markerByte c).toNat = 128 + c.toNat := by decide

/-! ### The decoder, by its first byte (R56) -/

theorem decode_literal {t : Byte} (h : isMarker t = false) (rest : List Byte) :
    decode (t :: rest) = .ok (.lit (lowSeven t), rest) := by
  simp only [decode, h]

theorem decode_run {t : Byte} (h : isMarker t = true) (v : Byte) (rest : List Byte) :
    decode (t :: v :: rest) = .ok (.run (lowSeven t) v, rest) := by
  simp only [decode, h]

theorem decode_truncated {t : Byte} (h : isMarker t = true) : decode [t] = .error .truncated := by
  simp only [decode, h]

/-- R54, R55: everything the decoder refuses, and how it names it. -/
theorem decode_eq_error_iff (bs : List Byte) (r : Reject) :
    decode bs = .error r ↔ (bs = [] ∧ r = .empty) ∨ ∃ t, bs = [t] ∧ isMarker t = true ∧ r = .truncated := by
  match bs with
  | [] => simpa [decode] using eq_comm
  | t :: rest =>
    cases ht : isMarker t
    · simp [decode_literal ht, ht]
    · match rest with
      | [] => simpa [decode_truncated ht, ht] using eq_comm
      | v :: rest' => simp [decode_run ht]

/-- R49: the decoder takes a token's own bytes, whatever follows them. -/
theorem decode_encode_append (i : Instr) (rest : List Byte) : decode (encode i ++ rest) = .ok (i, rest) := by
  cases i with
  | lit v =>
    change decode (literalByte v :: rest) = _
    rw [decode_literal (isMarker_literalByte v), lowSeven_literalByte]
  | run c v =>
    change decode (markerByte c :: v :: rest) = _
    rw [decode_run (isMarker_markerByte c), lowSeven_markerByte]

namespace Machine

/-- R50: a token's bytes parse to that token, before the tokens of what follows. -/
theorem parse_encode_append (i : Instr) (rest : List Byte) :
    parse (encode i ++ rest) = (parse rest).map (i :: ·) := by
  cases i with
  | lit v =>
    change parse (literalByte v :: rest) = _
    rw [parse_literal _ _ (isMarker_literalByte v), lowSeven_literalByte]
  | run c v =>
    change parse (markerByte c :: v :: rest) = _
    rw [parse_run _ _ _ (isMarker_markerByte c), lowSeven_markerByte]

theorem parse_encodeStream (is : List Instr) : parse (encodeStream is) = some is := by
  induction is with
  | nil => exact parse_nil
  | cons i is ih => rw [encodeStream_cons, parse_encode_append, ih, Option.map_some]

/-- The tokens of a stream hold all of its bits: the first byte is the literal's or the marker's, whole. -/
theorem encodeStream_of_parse : ∀ {bs : List Byte} {is : List Instr}, parse bs = some is → encodeStream is = bs
  | [], is, h => by
    obtain rfl : [] = is := by simpa using h
    rfl
  | t :: rest, is, h => by
    cases ht : isMarker t
    · rw [parse_literal t rest ht, Option.map_eq_some_iff] at h
      obtain ⟨js, hjs, rfl⟩ := h
      rw [encodeStream_cons, encode, literalByte_lowSeven t ht, encodeStream_of_parse hjs, List.singleton_append]
    · match rest, h with
      | [], h => rw [parse_truncated t ht] at h; cases h
      | v :: rest', h =>
        rw [parse_run t v rest' ht, Option.map_eq_some_iff] at h
        obtain ⟨js, hjs, rfl⟩ := h
        rw [encodeStream_cons, encode, markerByte_lowSeven t ht, encodeStream_of_parse hjs]
        rfl

end Machine

end Sys2Proof

namespace Sys2Proof.Proofs

open Sys2Proof.Machine

/-- Settles O8, by induction on the tokens. -/
theorem parseOfEncodedStreamIsTokens : Obligations.ParseOfEncodedStreamIsTokens := parse_encodeStream

/-- Settles O9, by the recursion of `parse`. -/
theorem encodedParseIsStream : Obligations.EncodedParseIsStream := fun _ _ h => encodeStream_of_parse h

/-- Settles O4: each word is written out, so the decoder computes its token. -/
theorem tokenWordsDecodeAsTabled : Obligations.TokenWordsDecodeAsTabled :=
  ⟨rfl, rfl, rfl, rfl, rfl, rfl, rfl, rfl, rfl⟩

/-- Settles O5: bit 7 of the first byte chooses the token, its low seven bits are the field. -/
theorem firstByteSelectsToken : Obligations.FirstByteSelectsToken := by
  refine fun t rest => ⟨fun ht => ⟨lowSeven t, ?_, decode_literal ((isMarker_eq_false_iff t).mpr ht) rest⟩,
    fun ht v => ⟨lowSeven t, ?_, decode_run ((isMarker_iff t).mpr ht) v rest⟩⟩
  · rw [toNat_lowSeven, Nat.mod_eq_of_lt ht]
  · have hbyte : t.toNat < 256 := t.isLt
    rw [toNat_lowSeven]
    omega

/-- Settles O6, with the marker bit read as `byte ≥ 128`. -/
theorem decodeRefusesOnlyEmptyAndTruncated : Obligations.DecodeRefusesOnlyEmptyAndTruncated := by
  intro bs r
  simp only [decode_eq_error_iff, isMarker_iff]

/-- Settles O7, token by token. -/
theorem decodeOfEncodeIsToken : Obligations.DecodeOfEncodeIsToken := decode_encode_append

/-- Settles O10: the equations of `parse` by the marker bit, read as `byte ≥ 128`, and `t[6:0]` as `t % 128`. -/
theorem parseFollowsItsEquations : Obligations.ParseFollowsItsEquations := by
  refine ⟨parse_nil, fun t r ht => parse_literal t r ((isMarker_eq_false_iff t).mpr ht), fun t v r ht => ?_,
    fun t ht => parse_truncated t ((isMarker_iff t).mpr ht)⟩
  have hcount : lowSeven t = BitVec.ofNat 7 (t.toNat % 128) := by
    rw [← toNat_lowSeven, BitVec.ofNat_toNat, BitVec.setWidth_eq]
  rw [parse_run t v r ((isMarker_iff t).mpr ht), hcount]

end Sys2Proof.Proofs
end

section
/-!
PROOFS. The bytes ENC writes (R48): its current byte is below 128, and a marker is written for a group of two or more.
-/

namespace Sys2Proof.Machine

variable {xlen addrW : Nat} {e : Enc xlen addrW} {m : Memory}

/-- R78: a group's first byte is its literal, or the marker of a group that is not a single byte. -/
theorem Enc.firstByte_cases (e : Enc xlen addrW) :
    (e.cnt.toNat = 1 ∧ e.firstByte = e.cur) ∨ (e.cnt.toNat ≠ 1 ∧ e.firstByte.toNat = 128 + e.cnt.toNat) := by
  by_cases hc : e.cnt = 1#7
  · exact .inl ⟨by rw [hc]; rfl, if_pos hc⟩
  · refine .inr ⟨fun h => hc (BitVec.eq_of_toNat_eq h), ?_⟩
    rw [Enc.firstByte, if_neg hc, toNat_markerByte]

/-- The two states that write, and what they write. -/
theorem Enc.access_write_value {a : Addr addrW} {v : Byte} (ha : e.access = .write a v) :
    (e.st = .emit ∧ v = e.firstByte) ∨ (e.st = .emitv ∧ v = e.cur) := by
  cases hs : e.st <;> simp only [Enc.access, hs, reduceCtorEq] at ha
  case scan => split at ha <;> cases ha
  case emit => cases ha; exact .inl ⟨rfl, rfl⟩
  case emitv => cases ha; exact .inr ⟨rfl, rfl⟩

end Sys2Proof.Machine

namespace Sys2Proof.Proofs

open Sys2Proof.Machine

/-- Settles O29: the open group's length is from 1 to 127 and its byte is a payload byte (R20). -/
theorem encWritesOnlyGrammarBytes : Obligations.EncWritesOnlyGrammarBytes := by
  intro _ _ e m a v _ hinv ha
  obtain ⟨hs, rfl⟩ | ⟨hs, rfl⟩ := Enc.access_write_value ha
  · obtain ⟨-, hpos, -, -, -, hcur, -⟩ := (Enc.inv_emit hs).mp hinv
    have hcap : e.cnt.toNat < 128 := e.cnt.isLt
    obtain ⟨hone, hv⟩ | ⟨hne, hv⟩ := e.firstByte_cases
    · exact .inl ⟨hs, hone, hv, hv ▸ (isMarker_eq_false_iff e.cur).mp hcur⟩
    · exact .inr (.inl ⟨hs, hv, by omega, by omega⟩)
  · obtain ⟨-, -, -, -, -, -, hcur, -⟩ := (Enc.inv_emitv hs).mp hinv
    exact .inr (.inr ⟨hs, rfl, (isMarker_eq_false_iff e.cur).mp hcur⟩)

end Sys2Proof.Proofs
end

section
/-!
PROOFS. `validate` (R59): the predicate on bytes as a bound on each byte, and the loop over memory as that predicate.
-/

namespace Sys2Proof.Machine

variable {addrW : Nat}

/-- R59 tests bit 7, which is the same as `byte ≥ 128`. -/
theorem validate_iff (s : List Byte) : validate s = true ↔ ∀ b ∈ s, b.toNat < 128 := by
  simp only [validate, List.all_eq_true, Bool.not_eq_true']
  exact forall₂_congr fun b _ => isMarker_eq_false_iff b

/-- The bytes of a buffer are below 128 exactly when each indexed cell is. -/
theorem validate_bytesAt_iff (m : Memory) (data : Addr addrW) (n : Nat) :
    validate (bytesAt m data n) = true ↔ ∀ i, i < n → (memRead m (elementAddr data i)).toNat < 128 := by
  simp only [validate_iff, bytesAt, List.forall_mem_map, List.mem_range]

/-- One turn of the loop that stops at the first bad byte is one conjunct. -/
theorem validateAt_succ (m : Memory) (data : Addr addrW) (i n : Nat) :
    validateAt m data i (n + 1) = (!(memRead m (elementAddr data i)).msb && validateAt m data (i + 1) n) := by
  cases hb : (memRead m (elementAddr data i)).msb <;> simp [validateAt, hb]

/-- The loop from index `i` on computes the predicate of the `n` bytes from there. -/
theorem validateAt_eq_validate (m : Memory) (data : Addr addrW) (i n : Nat) :
    validateAt m data i n = validate ((List.range' i n).map fun j => memRead m (elementAddr data j)) := by
  induction n generalizing i with
  | zero => rfl
  | succ n ih => rw [validateAt_succ, ih, List.range'_succ]; rfl

/-- R59: the loop over a whole buffer computes the predicate of its bytes. -/
theorem validateAt_zero_eq (m : Memory) (data : Addr addrW) (n : Nat) :
    validateAt m data 0 n = validate (bytesAt m data n) := by
  rw [validateAt_eq_validate, ← List.range_eq_range']
  rfl

end Sys2Proof.Machine

namespace Sys2Proof.Proofs

open Sys2Proof.Machine

/-- Settles O11: the loop is the predicate on the buffer's bytes, by induction on the bytes left. -/
theorem validateScansEveryByte : Obligations.ValidateScansEveryByte := fun _ m data n =>
  ⟨by rw [validateAt_zero_eq, validate_bytesAt_iff], validateAt_zero_eq m data n⟩

end Sys2Proof.Proofs
end

section
/-!
PROOFS. ENC, state by state (R74 to R79): each state's transition, written out in numbers.
-/

namespace Sys2Proof.Machine

variable {xlen addrW : Nat} {e : Enc xlen addrW} {m : Memory}

/-- R20: the byte about to be written lies below the read cursor, since the open group has been read. -/
theorem Enc.GroupOpen.wr_lt_rd (h : e.GroupOpen m) : e.wr.toNat < e.rd.toNat := by
  obtain ⟨hcnt, hcntrd, -, hwr, -⟩ := h
  omega

/-- A count is 1 as a register exactly when it is as a number. -/
theorem count_eq_one_iff (c : Count) : c = 1#7 ↔ c.toNat = 1 :=
  (BitVec.toNat_inj (y := 1#7)).symm

/-- R77, as numbers. -/
theorem Enc.groupClosed_iff (e : Enc xlen addrW) : e.groupClosed = true ↔ e.rd = e.len ∨ e.cnt.toNat = 127 := by
  rw [Enc.groupClosed, Bool.or_eq_true, decide_eq_true_eq, decide_eq_true_eq]
  exact or_congr_right (BitVec.toNat_inj (y := 127#7)).symm

end Sys2Proof.Machine

namespace Sys2Proof.Proofs

open Sys2Proof.Machine

/-- Settles O18: the tests of `encCheck`, the length read as a signed number. -/
theorem encCheckTestsOperands : Obligations.EncCheckTestsOperands := by
  intro _ _ e m hs
  simp only [Enc.transition_check hs, encCheck, sle_zero_iff]
  rfl

/-- Settles O19: bit 7 of the byte at `rd` read as `byte ≥ 128`. -/
theorem encValidateScansOneByte : Obligations.EncValidateScansOneByte := by
  intro _ _ e m hs
  rw [Enc.transition_validate hs]
  simp only [encValidate, ← isMarker_iff]
  rfl

/-- Settles O20: the transition is the equation. -/
theorem encHeadOpensGroup : Obligations.EncHeadOpensGroup :=
  fun _ _ _ _ hs => Enc.transition_head hs

/-- Settles O21: the group is closed at the end of the input and at the cap. -/
theorem encScanExtendsOrClosesGroup : Obligations.EncScanExtendsOrClosesGroup := by
  intro _ _ e m hs
  simp only [Enc.transition_scan hs, encScan, Enc.groupClosed_iff]
  rfl

/-- Settles O22: a literal closes its group, a marker awaits its value byte. -/
theorem encEmitWritesLiteralOrMarker : Obligations.EncEmitWritesLiteralOrMarker := by
  refine fun _ _ e m _ hs => ⟨?_, fun hinv => ((Enc.inv_emit hs).mp hinv).2.wr_lt_rd⟩
  simp only [Enc.transition_emit hs, encEmit, Enc.firstByte, count_eq_one_iff]
  split
  · rfl
  · rfl

/-- Settles O23: the value byte closes its group. -/
theorem encEmitvWritesValue : Obligations.EncEmitvWritesValue :=
  fun _ _ _ _ hs => Enc.transition_emitv hs

end Sys2Proof.Proofs
end

section
/-!
PROOFS. Groups and the encoding (R67 to R72): the groups are the greedy capped runs and expand to the input; their tokens
are the encoding, which is therefore no longer than the input, canonical, and decoded to the input.
-/

namespace Sys2Proof.Machine

/-! ### The groups (R67, R69) -/

/-- The bytes that a list of groups stands for (R69). -/
def groupExpand (gs : List (Nat × Byte)) : List Byte := gs.flatMap fun p => List.replicate p.1 p.2

theorem length_takeWhile_cons_self (v : Byte) (r : List Byte) :
    ((v :: r).takeWhile (· == v)).length = (r.takeWhile (· == v)).length + 1 := by simp

/-- R67: the open group takes the leading equal bytes up to the cap; the groups of what is left follow. -/
theorem groupsFrom_eq (cur : Byte) {n : Nat} (hn : n ≤ 127) (rest : List Byte) :
    groupsFrom cur n rest =
      (n + min (rest.takeWhile (· == cur)).length (127 - n), cur)
        :: groups (rest.drop (min (rest.takeWhile (· == cur)).length (127 - n))) := by
  induction rest generalizing n with
  | nil => simp [groupsFrom, groups]
  | cons b rest ih =>
    rw [groupsFrom]
    split
    next h =>
      obtain ⟨rfl, hlt : n < 127⟩ := h
      have hk : min ((b :: rest).takeWhile (· == b)).length (127 - n)
          = min (rest.takeWhile (· == b)).length (127 - (n + 1)) + 1 := by
        rw [length_takeWhile_cons_self]
        omega
      rw [ih hlt, hk, List.drop_succ_cons]
      congr 2
      omega
    next h =>
      have hk : min ((b :: rest).takeWhile (· == cur)).length (127 - n) = 0 := by
        by_cases hb : b = cur
        · have : ¬ n < 127 := fun hlt => h ⟨hb, hlt⟩
          omega
        · simp [hb]
      rw [hk, Nat.add_zero, List.drop_zero, groups]

/-- R69: the first group and the rest. -/
theorem groups_cons (v : Byte) (r : List Byte) :
    groups (v :: r) = (min ((v :: r).takeWhile (· == v)).length 127, v)
      :: groups ((v :: r).drop (min ((v :: r).takeWhile (· == v)).length 127)) := by
  have hk : min ((v :: r).takeWhile (· == v)).length 127 = min (r.takeWhile (· == v)).length (127 - 1) + 1 := by
    rw [length_takeWhile_cons_self]
    omega
  rw [hk, List.drop_succ_cons, groups, groupsFrom_eq v (by omega), Nat.add_comm 1]

theorem groupExpand_groupsFrom (cur : Byte) (n : Nat) (rest : List Byte) :
    groupExpand (groupsFrom cur n rest) = List.replicate n cur ++ rest := by
  induction rest generalizing cur n with
  | nil => simp [groupsFrom, groupExpand]
  | cons b rest ih =>
    rw [groupsFrom]
    split
    next h => rw [ih, h.1, List.replicate_succ', List.append_assoc, List.singleton_append]
    next =>
      rw [groupExpand, List.flatMap_cons]
      exact congrArg _ (ih b 1)

/-- R69: the groups expand to the input. -/
@[simp] theorem groupExpand_groups (s : List Byte) : groupExpand (groups s) = s := by
  cases s with
  | nil => rfl
  | cons b rest => exact groupExpand_groupsFrom b 1 rest

theorem length_groupExpand (gs : List (Nat × Byte)) : (groupExpand gs).length = (gs.map Prod.fst).sum := by
  simp [groupExpand, List.length_flatMap]

theorem groupsFrom_bounds {cur : Byte} {n : Nat} (h1 : 1 ≤ n) (h127 : n ≤ 127) (rest : List Byte) :
    ∀ p ∈ groupsFrom cur n rest, 1 ≤ p.1 ∧ p.1 ≤ 127 := by
  induction rest generalizing cur n with
  | nil => simpa [groupsFrom] using ⟨h1, h127⟩
  | cons b rest ih =>
    rw [groupsFrom]
    split
    next h => exact ih (by omega) h.2
    next => exact List.forall_mem_cons.mpr ⟨⟨h1, h127⟩, ih le_rfl (by decide)⟩

/-- R67: a group is never empty nor longer than the cap. -/
theorem groups_bounds (s : List Byte) : ∀ p ∈ groups s, 1 ≤ p.1 ∧ p.1 ≤ 127 := by
  cases s with
  | nil => exact fun _ h => nomatch h
  | cons b rest => exact groupsFrom_bounds le_rfl (by decide) rest

/-- The value of a group is a byte of the input. -/
theorem mem_of_mem_groups {s : List Byte} {p : Nat × Byte} (h : p ∈ groups s) : p.2 ∈ s := by
  rw [← groupExpand_groups s]
  refine List.mem_flatMap.mpr ⟨p, h, List.mem_replicate.mpr ⟨?_, rfl⟩⟩
  have := (groups_bounds s p h).1
  omega

theorem sum_groups (s : List Byte) : ((groups s).map Prod.fst).sum = s.length := by
  rw [← length_groupExpand, groupExpand_groups]

/-! ### The encoding's length (R71) -/

/-- Two sums of which one is termwise at most the other are equal exactly when their terms are. -/
theorem sum_map_eq_iff_of_le {α : Type} {l : List α} {f g : α → Nat} (h : ∀ x ∈ l, f x ≤ g x) :
    (l.map f).sum = (l.map g).sum ↔ ∀ x ∈ l, f x = g x := by
  refine ⟨fun he x hx => ?_, fun he => by rw [List.map_congr_left he]⟩
  by_contra hne
  exact (List.sum_lt_sum f g h ⟨x, hx, Nat.lt_of_le_of_ne (h x hx) hne⟩).ne he

theorem groupBytes_one (v : Byte) : groupBytes (1, v) = [v] := rfl

theorem groupBytes_of_ne_one {g : Nat} (h : g ≠ 1) (v : Byte) :
    groupBytes (g, v) = [0x80#8 ||| BitVec.ofNat 8 g, v] := by rw [groupBytes, if_neg h]

theorem length_groupBytes {p : Nat × Byte} (h : 1 ≤ p.1) : (groupBytes p).length = min p.1 2 := by
  obtain ⟨g, v⟩ := p
  change 1 ≤ g at h
  by_cases hg : g = 1
  · subst hg; rfl
  · rw [groupBytes_of_ne_one hg]
    change 2 = min g 2
    omega

theorem length_rleEnc (s : List Byte) : (rleEnc s).length = ((groups s).map fun p => min p.1 2).sum := by
  rw [rleEnc, List.length_flatMap, List.map_congr_left fun p hp => length_groupBytes (groups_bounds s p hp).1]

/-- R71: the encoding never outgrows the input. -/
theorem length_rleEnc_le (s : List Byte) : (rleEnc s).length ≤ s.length := by
  rw [length_rleEnc, ← sum_groups s]
  exact List.sum_le_sum fun p _ => Nat.min_le_left p.1 2

theorem length_rleEnc_eq_iff (s : List Byte) : (rleEnc s).length = s.length ↔ ∀ p ∈ groups s, p.1 ≤ 2 := by
  rw [length_rleEnc, ← sum_groups s, sum_map_eq_iff_of_le fun p _ => Nat.min_le_left p.1 2]
  exact forall₂_congr fun p _ => by omega

theorem length_rleEnc_pos {s : List Byte} (h : 1 ≤ s.length) : 1 ≤ (rleEnc s).length := by
  obtain ⟨v, r, rfl⟩ := List.exists_cons_of_length_pos h
  have hfirst := (List.forall_mem_cons.mp (groups_cons v r ▸ groups_bounds (v :: r))).1.1
  rw [rleEnc, groups_cons, List.flatMap_cons, List.length_append, length_groupBytes hfirst]
  omega

/-! ### The encoding's tokens (R68, R72) -/

/-- The token of a group (R68): a literal for a single byte, a run for more. -/
def groupToken : Nat × Byte → Instr
  | (g, v) => if g = 1 then .lit (lowSeven v) else .run (BitVec.ofNat 7 g) v

theorem groupToken_one (v : Byte) : groupToken (1, v) = .lit (lowSeven v) := rfl

theorem groupToken_of_ne_one {g : Nat} (h : g ≠ 1) (v : Byte) : groupToken (g, v) = .run (BitVec.ofNat 7 g) v := by
  rw [groupToken, if_neg h]

/-- The tokens of what `compress` emits for `s`. -/
def rleTokens (s : List Byte) : List Instr := (groups s).map groupToken

/-- A count as a register is the count, up to the cap. -/
theorem toNat_ofNat_count {g : Nat} (h : g ≤ 127) : (BitVec.ofNat 7 g).toNat = g := by
  rw [BitVec.toNat_ofNat, Nat.mod_eq_of_lt (by omega)]

/-- R68 writes the marker from a number, R48 from the count. -/
theorem markerByte_ofNat {g : Nat} (h : g ≤ 127) : markerByte (BitVec.ofNat 7 g) = 0x80#8 ||| BitVec.ofNat 8 g := by
  rw [markerByte]
  congr 1
  exact BitVec.eq_of_toNat_eq (by simp; omega)

variable {p : Nat × Byte}

theorem encode_groupToken (hg : p.1 ≤ 127) (hv : p.2.toNat < 128) : encode (groupToken p) = groupBytes p := by
  obtain ⟨g, v⟩ := p
  by_cases h : g = 1
  · subst h
    rw [groupToken_one, groupBytes_one, encode, literalByte_lowSeven v ((isMarker_eq_false_iff v).mpr hv)]
  · rw [groupToken_of_ne_one h, groupBytes_of_ne_one h, encode, markerByte_ofNat hg]

theorem expandToken_groupToken (hg : p.1 ≤ 127) (hv : p.2.toNat < 128) :
    expandToken (groupToken p) = List.replicate p.1 p.2 := by
  obtain ⟨g, v⟩ := p
  by_cases h : g = 1
  · subst h
    rw [groupToken_one, expandToken, literalByte_lowSeven v ((isMarker_eq_false_iff v).mpr hv)]
    rfl
  · rw [groupToken_of_ne_one h, expandToken, toNat_ofNat_count hg]

/-- R72: a group of payload bytes is a literal, or a run of at least 2 of them. -/
theorem groupToken_cases (hpos : 1 ≤ p.1) (hg : p.1 ≤ 127) (hv : p.2.toNat < 128) :
    (∃ v, groupToken p = .lit v) ∨ ∃ c v, groupToken p = .run c v ∧ 2 ≤ c.toNat ∧ v.toNat < 128 := by
  obtain ⟨g, v⟩ := p
  by_cases h : g = 1
  · subst h
    exact .inl ⟨_, groupToken_one v⟩
  · refine .inr ⟨_, v, groupToken_of_ne_one h v, ?_, hv⟩
    rw [toNat_ofNat_count hg]
    change 1 ≤ g at hpos
    omega

/-- R48, R51: literals, and runs of at least 2 payload bytes, are what `compress` may emit. -/
theorem emittable_of_cases {i : Instr} (h : (∃ v, i = .lit v) ∨ ∃ c v, i = .run c v ∧ 2 ≤ c.toNat ∧ v.toNat < 128) :
    i.emittable = true := by
  obtain ⟨v, rfl⟩ | ⟨c, v, rfl, hc, hv⟩ := h
  · rfl
  · have hcount : c ≠ 0#7 := by rintro rfl; exact absurd hc (by decide)
    have hvalue : v.msb = false := (isMarker_eq_false_iff v).mpr hv
    simp [Instr.emittable, Instr.wellFormed, hcount, hvalue, hc]

theorem wellFormed_of_emittable {i : Instr} (h : i.emittable = true) : i.wellFormed = true :=
  (Bool.and_eq_true_iff.mp h).1

section
variable {s : List Byte} (hs : ∀ b ∈ s, b.toNat < 128)
include hs

theorem encodeStream_rleTokens : encodeStream (rleTokens s) = rleEnc s := by
  rw [encodeStream, rleTokens, rleEnc, List.flatMap_map]
  exact List.flatMap_congr fun p hp => encode_groupToken (groups_bounds s p hp).2 (hs _ (mem_of_mem_groups hp))

/-- R72: the encoding parses to the tokens of the groups. -/
theorem parse_rleEnc : parse (rleEnc s) = some (rleTokens s) := by
  rw [← encodeStream_rleTokens hs, parse_encodeStream]

/-- R72: these tokens expand to the input. -/
theorem expand_rleTokens : expand (rleTokens s) = s := by
  rw [expand, rleTokens, List.flatMap_map]
  refine Eq.trans (List.flatMap_congr fun p hp => ?_) (groupExpand_groups s)
  exact expandToken_groupToken (groups_bounds s p hp).2 (hs _ (mem_of_mem_groups hp))

theorem rleTokens_cases : ∀ i ∈ rleTokens s,
    (∃ v, i = .lit v) ∨ ∃ c v, i = .run c v ∧ 2 ≤ c.toNat ∧ v.toNat < 128 := by
  intro i hi
  obtain ⟨p, hp, rfl⟩ := List.mem_map.mp hi
  obtain ⟨hpos, hcap⟩ := groups_bounds s p hp
  exact groupToken_cases hpos hcap (hs _ (mem_of_mem_groups hp))

theorem canonical_rleEnc : canonical (rleEnc s) = true := by
  have hall : (rleTokens s).all Instr.emittable = true :=
    List.all_eq_true.mpr fun i hi => emittable_of_cases (rleTokens_cases hs i hi)
  simp only [canonical, parse_rleEnc hs, expand_rleTokens hs, hall, decide_true, Bool.and_true]

theorem wellFormedStream_rleEnc : wellFormedStream (rleEnc s) = true := by
  simp only [wellFormedStream, parse_rleEnc hs]
  exact List.all_eq_true.mpr fun i hi => wellFormed_of_emittable (emittable_of_cases (rleTokens_cases hs i hi))

end

/-! ### Decoding (R91) -/

/-- R91: one literal, or one run, decodes to its expansion where that fits. -/
theorem decGo_encode_append {cap : Int} (i : Instr) (rest out : List Byte)
    (h : (out.length + (expandToken i).length : Int) ≤ cap) :
    decGo cap (encode i ++ rest) out = decGo cap rest (out ++ expandToken i) := by
  cases i with
  | lit v =>
    have hfit : ¬ cap ≤ (out.length : Int) := by simp only [expandToken, List.length_singleton] at h; omega
    rw [encode, List.singleton_append, decGo.eq_def]
    simp only [isMarker_literalByte, Bool.false_eq_true, if_false, if_neg hfit, expandToken]
  | run c v =>
    have hfit : ¬ (1 ≤ c.toNat ∧ cap < (out.length : Int) + (c.toNat : Int)) := by
      simp only [expandToken, List.length_replicate] at h
      omega
    rw [encode, List.cons_append, List.singleton_append, decGo.eq_def]
    simp only [isMarker_markerByte, if_true, lowSeven_markerByte, if_neg hfit, expandToken]

/-- R91: a token list whose expansion fits decodes to it, after what has been written. -/
theorem decGo_encodeStream {cap : Int} (is : List Instr) (out : List Byte)
    (h : (out.length + (expand is).length : Int) ≤ cap) : decGo cap (encodeStream is) out = .ok (out ++ expand is) := by
  induction is generalizing out with
  | nil => simp
  | cons i is ih =>
    rw [expand_cons, List.length_append] at h
    rw [encodeStream_cons, decGo_encode_append i _ out (by omega), ih _ (by rw [List.length_append]; omega), expand_cons,
      List.append_assoc]

/-- R72: decoding an encoding into enough room gives the input back. -/
theorem rleDec_rleEnc {s : List Byte} {cap : Int} (hs : ∀ b ∈ s, b.toNat < 128) (hcap : (s.length : Int) ≤ cap) :
    rleDec (rleEnc s) cap = .ok s := by
  rw [rleDec, ← encodeStream_rleTokens hs, decGo_encodeStream, expand_rleTokens hs, List.nil_append]
  rw [expand_rleTokens hs]
  simpa using hcap

end Sys2Proof.Machine

namespace Sys2Proof.Proofs

open Sys2Proof.Machine

/-- Settles O15: the encoding is the encoded stream of the groups' tokens, and their expansion is the input. -/
theorem decodingOfEncodingRoundTrips : Obligations.DecodingOfEncodingRoundTrips :=
  fun s _ hs _ hcap => ⟨rleDec_rleEnc hs hcap, length_rleEnc_le s⟩

/-- Settles O12, by induction on the bytes still to come with a group open. -/
theorem groupsAreGreedyCappedRuns : Obligations.GroupsAreGreedyCappedRuns :=
  ⟨rfl, groups_cons, fun s => ⟨sum_groups s, groups_bounds s, groupExpand_groups s⟩⟩

/-- Settles O13: both lengths are sums over the groups, of `min(g, 2)` and of `g`. -/
theorem encodingNeverGrows : Obligations.EncodingNeverGrows := by
  refine fun s => ⟨fun p _ hone => ?_, fun p hp => length_groupBytes (groups_bounds s p hp).1, length_rleEnc_le s,
    length_rleEnc_eq_iff s, length_rleEnc_pos⟩
  exact if_pos hone

/-- Settles O14: the encoding's tokens are those of the groups. -/
theorem encodingIsCanonical : Obligations.EncodingIsCanonical :=
  fun s hs => ⟨canonical_rleEnc hs, wellFormedStream_rleEnc hs, rleTokens s, parse_rleEnc hs, expand_rleTokens hs,
    rleTokens_cases hs⟩

end Sys2Proof.Proofs
end

section
/-!
PROOFS. Runs of ENC and the validate pass (R74, R75, R80 first half): transitions up to a state, and the first bad byte.
-/

namespace Sys2Proof.Machine

variable {xlen addrW : Nat} {e e' e₁ : Enc xlen addrW} {m m' m₁ : Memory} {j k n : Nat}

/-! ### Runs of transitions -/

theorem Enc.run_add (j k : Nat) (e : Enc xlen addrW) (m : Memory) :
    Enc.run (j + k) e m = Enc.run k (Enc.run j e m).1 (Enc.run j e m).2 := by
  induction j generalizing e m with
  | zero => rw [Nat.zero_add, Enc.run]
  | succ j ih => rw [Nat.succ_add, Enc.run, Enc.run, ih]

/-- A finished block keeps still for any number of turns. -/
theorem Enc.run_of_not_busy (h : e.busy = false) (n : Nat) : Enc.run n e m = (e, m) := by
  induction n with
  | zero => rfl
  | succ n ih => rw [Enc.run, Enc.transition_of_not_busy h, ih]

/-- The next `k` transitions are ENC's own (it is busy before each) and lead to `e'` and `m'`. -/
structure Enc.RunsTo (k : Nat) (e : Enc xlen addrW) (m : Memory) (e' : Enc xlen addrW) (m' : Memory) : Prop where
  run_eq : Enc.run k e m = (e', m')
  busy : ∀ j, j < k → (Enc.run j e m).1.busy = true

theorem Enc.RunsTo.refl (e : Enc xlen addrW) (m : Memory) : Enc.RunsTo 0 e m e m :=
  ⟨rfl, fun _ h => absurd h (Nat.not_lt_zero _)⟩

theorem Enc.RunsTo.step (hb : e.busy = true) (ht : e.transition m = (e', m')) : Enc.RunsTo 1 e m e' m' :=
  ⟨by rw [Enc.run, ht, Enc.run], fun j hj => by rwa [Nat.lt_one_iff.mp hj]⟩

theorem Enc.RunsTo.trans (h₁ : Enc.RunsTo j e m e₁ m₁) (h₂ : Enc.RunsTo k e₁ m₁ e' m') :
    Enc.RunsTo (j + k) e m e' m' := by
  refine ⟨by rw [Enc.run_add, h₁.run_eq, h₂.run_eq], fun i hi => ?_⟩
  by_cases hij : i < j
  · exact h₁.busy i hij
  · rw [← Nat.add_sub_of_le (Nat.le_of_not_lt hij), Enc.run_add, h₁.run_eq]
    exact h₂.busy _ (by omega)

/-- A run that ends in `E_DONE` stays there. -/
theorem Enc.RunsTo.run_of_le (h : Enc.RunsTo k e m e' m') (hd : e'.st = .done) (hn : k ≤ n) :
    Enc.run n e m = (e', m') := by
  rw [← Nat.add_sub_of_le hn, Enc.run_add, h.run_eq, Enc.run_of_not_busy (by simp [Enc.busy, hd])]

/-- The operation is done from the run's last transition on, and not before. -/
theorem Enc.RunsTo.done_iff (h : Enc.RunsTo k e m e' m') (hd : e'.st = .done) (n : Nat) :
    (Enc.run n e m).1.st = .done ↔ k ≤ n := by
  refine ⟨fun hn => ?_, fun hn => by rw [h.run_of_le hd hn, hd]⟩
  by_contra hlt
  have hb := h.busy n (Nat.lt_of_not_le hlt)
  simp [Enc.busy, hn] at hb

/-! ### The check and the validate pass -/

/-- R74: operands that fail are reported at once. -/
theorem encCheck_of_failing (h : e.buf = 0#addrW ∨ e.len.toInt ≤ 0) : (encCheck e).st = .done := by
  unfold encCheck
  split
  · rfl
  next hbuf => rw [if_pos ((sle_zero_iff e.len).mpr (h.resolve_left hbuf))]; rfl

/-- ENC in `E_VALIDATE` at index `i`. -/
def Enc.validating (e : Enc xlen addrW) (i : Nat) : Enc xlen addrW := { e with rd := BitVec.ofNat xlen i, st := .validate }

theorem Enc.transition_check_of_launched (hs : e.st = .check) (hL : e.Launched) :
    e.transition m = (e.validating 0, m) := by
  have hlen : ¬ e.len.sle 0#xlen = true := by rw [sle_zero_iff]; exact not_le.mpr hL.len_pos
  rw [Enc.transition_check hs, encCheck, if_neg hL.1, if_neg hlen]
  rfl

theorem Enc.toNat_validating_rd {i : Nat} (hi : i < e.len.toNat) : (e.validating i).rd.toNat = i := by
  have := e.len.isLt
  rw [Enc.validating, BitVec.toNat_ofNat, Nat.mod_eq_of_lt (by omega)]

theorem Enc.transition_validating {i : Nat} (hi : i < e.len.toNat) :
    (e.validating i).transition m = (encValidate (e.validating i) (e.cell m i), m) := by
  rw [Enc.transition_validate rfl, Enc.toNat_validating_rd hi]
  rfl

/-- R75: the index advances over a byte below 128 that is not the last. -/
theorem Enc.validating_succ {i : Nat} (hi : i + 1 < e.len.toNat) (hb : (e.cell m i).msb = false) :
    Enc.RunsTo 1 (e.validating i) m (e.validating (i + 1)) m := by
  refine .step rfl ?_
  have hsucc : BitVec.ofNat xlen i + 1#xlen = BitVec.ofNat xlen (i + 1) := (BitVec.ofNat_add i 1).symm
  have hend : ¬ BitVec.ofNat xlen (i + 1) = e.len := fun h => by
    have := congrArg BitVec.toNat h
    rw [BitVec.toNat_ofNat, Nat.mod_eq_of_lt (by have := e.len.isLt; omega)] at this
    omega
  rw [Enc.transition_validating (by omega)]
  simp [encValidate, hb, Enc.validating, hsucc, hend]

/-- R75: the pass reaches every index before which it has seen no bad byte. -/
theorem Enc.validating_runsTo {i : Nat} (hi : i < e.len.toNat) (hseen : ∀ j, j < i → (e.cell m j).msb = false) :
    Enc.RunsTo i (e.validating 0) m (e.validating i) m := by
  induction i with
  | zero => exact .refl _ m
  | succ i ih =>
    exact (ih (by omega) fun j hj => hseen j (by omega)).trans (Enc.validating_succ hi (hseen i (by omega)))

/-- R74, R75: from the check state on, likewise. -/
theorem Enc.check_runsTo_validating (hs : e.st = .check) (hL : e.Launched) {i : Nat} (hi : i < e.len.toNat)
    (hseen : ∀ j, j < i → (e.cell m j).msb = false) : Enc.RunsTo (1 + i) e m (e.validating i) m :=
  (Enc.RunsTo.step (by simp [Enc.busy, hs]) (Enc.transition_check_of_launched hs hL)).trans
    (Enc.validating_runsTo hi hseen)

/-- R75, R84: a bad byte ends the operation with -1 within `LEN + 1` transitions, and nothing has been written. -/
theorem Enc.runsTo_payload_failure (hs : e.st = .check) (hL : e.Launched)
    (hbad : ∃ i, i < e.len.toNat ∧ (e.cell m i).msb = true) :
    ∃ k e', k ≤ e.len.toNat + 1 ∧ Enc.RunsTo k e m e' m ∧ e'.st = .done ∧ e'.result = -1#xlen
      ∧ e'.err = .invalidPayload := by
  obtain ⟨hi, hb⟩ := Nat.find_spec hbad
  have hseen : ∀ j, j < Nat.find hbad → (e.cell m j).msb = false := fun j hj =>
    Bool.eq_false_of_not_eq_true fun h => Nat.find_min hbad hj ⟨by omega, h⟩
  refine ⟨1 + Nat.find hbad + 1, (e.validating (Nat.find hbad)).raise .invalidPayload, by omega, ?_, rfl, rfl, rfl⟩
  refine (Enc.check_runsTo_validating hs hL hi hseen).trans (.step rfl ?_)
  rw [Enc.transition_validating hi, encValidate, if_pos hb]

/-- R75: an input without a bad byte reaches `E_HEAD` with both cursors at 0 in `LEN + 1` transitions. -/
theorem Enc.runsTo_head (hs : e.st = .check) (hL : e.Launched)
    (hgood : ∀ i, i < e.len.toNat → (e.cell m i).msb = false) :
    Enc.RunsTo (1 + e.len.toNat) e m { e with rd := 0#xlen, wr := 0#xlen, st := .head } m := by
  have hpos := toNat_pos_of_toInt_pos hL.len_pos
  obtain ⟨l, hl⟩ : ∃ l, e.len.toNat = l + 1 := ⟨e.len.toNat - 1, by omega⟩
  have hend : BitVec.ofNat xlen l + 1#xlen = e.len := by
    rw [← BitVec.ofNat_add, ← hl, BitVec.ofNat_toNat, BitVec.setWidth_eq]
  rw [hl, ← Nat.add_assoc]
  refine (Enc.check_runsTo_validating hs hL (i := l) (by omega) fun j hj => hgood j (by omega)).trans (.step rfl ?_)
  rw [Enc.transition_validating (by omega)]
  simp [encValidate, hgood l (by omega), Enc.validating, hend]

end Sys2Proof.Machine

namespace Sys2Proof.Proofs

open Sys2Proof.Machine

/-- Settles O24: the validate pass stops at the first bad byte, and a done block keeps still. -/
theorem compressRejectsBadPayload : Obligations.CompressRejectsBadPayload := by
  rintro _ _ e m n - hs hL ⟨i, hi, hbad⟩ hn
  obtain ⟨k, e', hk, hrun, hd, hresult, herr⟩ := Enc.runsTo_payload_failure hs hL ⟨i, hi, (isMarker_iff _).mpr hbad⟩
  rw [hrun.run_of_le hd (hk.trans hn)]
  exact ⟨hd, hresult, herr, rfl⟩

end Sys2Proof.Proofs
end

section
/-!
PROOFS. The encode pass (R76 to R79, R80, R82): group by group it writes the encoding behind the read cursor, in
`g + 1 + min(g, 2)` transitions a group.
-/

namespace Sys2Proof.Machine

variable {xlen addrW : Nat} {e e₁ : Enc xlen addrW} {m : Memory} {j k : Nat}

/-! ### Writing a list of bytes into a buffer -/

/-- The memory after `bs` has been written from element `i` on, first byte first. -/
def writeBytes (m : Memory) (base : Addr addrW) (i : Nat) : List Byte → Memory
  | [] => m
  | b :: bs => writeBytes (memWrite m (elementAddr base i) b) base (i + 1) bs

theorem writeBytes_cons (m : Memory) (base : Addr addrW) (i : Nat) (b : Byte) (bs : List Byte) :
    writeBytes m base i (b :: bs) = writeBytes (memWrite m (elementAddr base i) b) base (i + 1) bs := rfl

theorem writeBytes_append (base : Addr addrW) (bs cs : List Byte) (m : Memory) (i : Nat) :
    writeBytes m base i (bs ++ cs) = writeBytes (writeBytes m base i bs) base (i + bs.length) cs := by
  induction bs generalizing m i with
  | nil => rfl
  | cons b bs ih =>
    rw [List.cons_append, writeBytes_cons, ih, writeBytes_cons, List.length_cons, Nat.add_assoc, Nat.add_comm 1]

theorem writeBytes_wf {base : Addr addrW} {bs : List Byte} {m : Memory} (hwf : m.wf addrW = true) (i : Nat) :
    (writeBytes m base i bs).wf addrW = true := by
  induction bs generalizing m i with
  | nil => exact hwf
  | cons b bs ih => exact ih (memWrite_wf hwf _ b) (i + 1)

/-- R35: a cell that none of the written elements is keeps its content. -/
theorem memRead_writeBytes_other {base a : Addr addrW} {bs : List Byte} {m : Memory} {i : Nat}
    (h : ∀ j, i ≤ j → j < i + bs.length → a ≠ elementAddr base j) :
    memRead (writeBytes m base i bs) a = memRead m a := by
  induction bs generalizing m i with
  | nil => rfl
  | cons b bs ih =>
    rw [List.length_cons] at h
    rw [writeBytes_cons, ih fun j hlo hhi => h j (by omega) (by omega)]
    exact memRead_memWrite_other m b (h i le_rfl (by omega)).symm

/-- R35: the written bytes are read back, where the buffer does not wrap. -/
theorem bytesAt_writeBytes {base : Addr addrW} {bs : List Byte} (hwf : m.wf addrW = true)
    (hspace : bs.length ≤ addrSpace addrW) : bytesAt (writeBytes m base 0 bs) base bs.length = bs := by
  induction bs using List.reverseRecOn with
  | nil => rfl
  | append_singleton bs b ih =>
    rw [List.length_append, List.length_singleton] at hspace ⊢
    have hlast : writeBytes m base 0 (bs ++ [b])
        = memWrite (writeBytes m base 0 bs) (elementAddr base bs.length) b := by
      rw [writeBytes_append, Nat.zero_add]
      rfl
    have hfront : bytesAt (writeBytes m base 0 (bs ++ [b])) base bs.length = bs := by
      rw [hlast]
      refine Eq.trans (bytesAt_congr fun i hi => ?_) (ih (by omega))
      refine memRead_memWrite_other _ b fun he => ?_
      have := elementAddr_inj base (by omega) (by omega) he
      omega
    rw [bytesAt_succ, hfront, hlast, memRead_memWrite_same (writeBytes_wf hwf 0)]

/-! ### The input still to come -/

/-- The elements of the buffer that the encode pass has yet to read. -/
def Enc.rest (e : Enc xlen addrW) (m : Memory) : List Byte :=
  (List.range' e.rd.toNat (e.len.toNat - e.rd.toNat)).map (e.cell m)

theorem Enc.rest_start {e : Enc xlen addrW} (h : e.rd = 0#xlen) : e.rest m = bytesAt m e.buf e.len.toNat := by
  rw [Enc.rest, h, BitVec.toNat_zero, Nat.sub_zero, ← List.range_eq_range']
  rfl

theorem Enc.rest_of_eq (h : e.rd = e.len) : e.rest m = [] := by
  rw [Enc.rest, h, Nat.sub_self]
  rfl

theorem Enc.rest_of_lt (h : e.rd.toNat < e.len.toNat) :
    e.rest m = e.cell m e.rd.toNat :: { e with rd := e.rd + 1#xlen }.rest m := by
  obtain ⟨n, hn⟩ : ∃ n, e.len.toNat - e.rd.toNat = n + 1 := ⟨e.len.toNat - e.rd.toNat - 1, by omega⟩
  have hn' : e.len.toNat - (e.rd.toNat + 1) = n := by omega
  simp only [Enc.rest, toNat_succ h, hn, hn', List.range'_succ, List.map_cons]
  rfl

theorem Enc.rd_eq_len_of_rest_eq_nil (hle : e.rd.toNat ≤ e.len.toNat) (h : e.rest m = []) : e.rd = e.len := by
  by_contra hne
  rw [Enc.rest_of_lt (toNat_lt_of_le_of_ne hle hne)] at h
  cases h

theorem Enc.rd_lt_len_of_rest_eq_cons {b : Byte} {bs : List Byte} (hle : e.rd.toNat ≤ e.len.toNat)
    (h : e.rest m = b :: bs) : e.rd.toNat < e.len.toNat := by
  refine toNat_lt_of_le_of_ne hle fun heq => ?_
  rw [Enc.rest_of_eq heq] at h
  cases h

theorem Enc.rest_congr (hbuf : e₁.buf = e.buf) (hlen : e₁.len = e.len) (hrd : e₁.rd = e.rd) : e₁.rest m = e.rest m := by
  unfold Enc.rest Enc.cell
  rw [hbuf, hlen, hrd]

/-- R41: bytes written below the read cursor leave the input still to come as it is. -/
theorem Enc.Launched.rest_writeBytes (hL : e.Launched) {bs : List Byte} (h : e.wr.toNat + bs.length ≤ e.rd.toNat) :
    e.rest (writeBytes m e.buf e.wr.toNat bs) = e.rest m := by
  refine List.map_congr_left fun i hi => memRead_writeBytes_other fun j _ hj he => ?_
  have := hL.fits
  have := List.mem_range'_1.mp hi
  have := elementAddr_inj e.buf (by omega) (by omega) he
  omega

/-! ### One group (R76 to R79) -/

/-- Any number of transitions keeps the invariant (R20). -/
theorem Enc.run_inv (hinv : e.Inv m) (k : Nat) : (Enc.run k e m).1.Inv (Enc.run k e m).2 := by
  induction k generalizing e m with
  | zero => exact hinv
  | succ k ih => exact ih (Enc.transition_inv hinv)

theorem Enc.RunsTo.inv {e' : Enc xlen addrW} {m' : Memory} (h : Enc.RunsTo k e m e' m') (hinv : e.Inv m) : e'.Inv m' := by
  have hrun := Enc.run_inv hinv k
  rwa [h.run_eq] at hrun

/-- R68, R78: the bytes of the open group, as the registers hold it. -/
theorem groupBytes_count (c : Count) (v : Byte) :
    groupBytes (c.toNat, v) = if c = 1#7 then [v] else [markerByte c, v] := by
  rw [groupBytes, markerByte, BitVec.ofNat_toNat]
  simp only [count_eq_one_iff]

/-- R78, R79: `E_EMIT` writes the open group, in one transition a byte, and its last one closes the group. -/
theorem Enc.emit_group (hs : e.st = .emit) (hinv : e.Inv m) :
    ∃ e₁, Enc.RunsTo (min e.cnt.toNat 2) e m (encGroupDone e₁)
        (writeBytes m e.buf e.wr.toNat (groupBytes (e.cnt.toNat, e.cur)))
      ∧ e₁.buf = e.buf ∧ e₁.len = e.len ∧ e₁.rd = e.rd
      ∧ e₁.wr.toNat + 1 = e.wr.toNat + min e.cnt.toNat 2 := by
  obtain ⟨-, hg⟩ := (Enc.inv_emit hs).mp hinv
  have hsucc := toNat_succ hg.wr_lt_rd
  have hb : e.busy = true := by simp [Enc.busy, hs]
  obtain ⟨hcnt, -⟩ := hg
  by_cases hone : e.cnt = 1#7
  · have hmin : min e.cnt.toNat 2 = 1 := by rw [hone]; rfl
    refine ⟨e, ?_, rfl, rfl, rfl, by rw [hmin]⟩
    rw [hmin, groupBytes_count, if_pos hone]
    exact .step hb (by rw [Enc.transition_emit hs, encEmit, if_pos hone, Enc.firstByte, if_pos hone]; rfl)
  · have hmin : min e.cnt.toNat 2 = 2 := by rw [count_eq_one_iff] at hone; omega
    refine ⟨{ e with wr := e.wr + 1#xlen, st := .emitv }, ?_, rfl, rfl, rfl, by rw [hmin, hsucc]⟩
    rw [hmin, groupBytes_count, if_neg hone, writeBytes_cons, ← hsucc]
    refine (Enc.RunsTo.step hb ?_).trans (.step rfl (Enc.transition_emitv rfl))
    rw [Enc.transition_emit hs, encEmit, if_neg hone, Enc.firstByte, if_neg hone]
    rfl

/-- The operation ends after `k` transitions with `bs` written at the write cursor and reported (R78, R79). -/
def Enc.EndsWriting (k : Nat) (e : Enc xlen addrW) (m : Memory) (bs : List Byte) : Prop :=
  ∃ e', Enc.RunsTo k e m e' (writeBytes m e.buf e.wr.toNat bs) ∧ e'.st = .done ∧ e'.err = .none
    ∧ e'.result.toNat = e.wr.toNat + bs.length

/-- What has been written by a run comes before what is written from its end on. -/
theorem Enc.EndsWriting.after {bs cs : List Byte}
    (h : Enc.EndsWriting k e₁ (writeBytes m e.buf e.wr.toNat bs) cs)
    (hrun : Enc.RunsTo j e m e₁ (writeBytes m e.buf e.wr.toNat bs)) (hbuf : e₁.buf = e.buf)
    (hwr : e₁.wr.toNat = e.wr.toNat + bs.length) : Enc.EndsWriting (j + k) e m (bs ++ cs) := by
  obtain ⟨e', hend, hd, herr, hresult⟩ := h
  rw [hbuf, hwr, ← writeBytes_append] at hend
  exact ⟨e', hrun.trans hend, hd, herr, by rw [hresult, hwr, List.length_append, Nat.add_assoc]⟩

/-- A transition that writes nothing adds a step. -/
theorem Enc.EndsWriting.step {cs : List Byte} (h : Enc.EndsWriting k e₁ m cs) (hb : e.busy = true)
    (ht : e.transition m = (e₁, m)) (hbuf : e₁.buf = e.buf) (hwr : e₁.wr = e.wr) : Enc.EndsWriting (1 + k) e m cs :=
  Enc.EndsWriting.after (bs := []) h (.step hb ht) hbuf (by rw [hwr]; rfl)

/-- R78, R79: the last group ends the operation. -/
theorem Enc.emit_endsWriting (hs : e.st = .emit) (hinv : e.Inv m) (hend : e.rd = e.len) :
    Enc.EndsWriting (min e.cnt.toNat 2) e m (groupBytes (e.cnt.toNat, e.cur)) := by
  obtain ⟨e₁, hrun, -, hlen, hrd, hwr⟩ := Enc.emit_group hs hinv
  obtain ⟨-, hcnt, hcntrd, -, hwrrd, -⟩ := (Enc.inv_emit hs).mp hinv
  have hsucc : (e₁.wr + 1#xlen).toNat = e₁.wr.toNat + 1 := toNat_succ (w := e.rd) (by omega)
  have hdone : encGroupDone e₁ = { e₁ with wr := e₁.wr + 1#xlen }.finish (e₁.wr + 1#xlen) := by
    rw [encGroupDone, if_pos (by rw [hrd, hlen, hend])]
  rw [hdone] at hrun
  exact ⟨_, hrun, rfl, rfl, by rw [Enc.finish_result, hsucc, hwr, length_groupBytes hcnt]⟩

/-- R78, R79: a group that is not the last leads to `E_HEAD`, with the input still to come as it was. -/
theorem Enc.emit_runsTo_head (hs : e.st = .emit) (hinv : e.Inv m) (hmore : e.rd ≠ e.len) :
    ∃ e₁, Enc.RunsTo (min e.cnt.toNat 2) e m e₁ (writeBytes m e.buf e.wr.toNat (groupBytes (e.cnt.toNat, e.cur)))
      ∧ e₁.st = .head ∧ e₁.buf = e.buf ∧ e₁.wr.toNat = e.wr.toNat + (groupBytes (e.cnt.toNat, e.cur)).length
      ∧ e₁.rest (writeBytes m e.buf e.wr.toNat (groupBytes (e.cnt.toNat, e.cur))) = e.rest m := by
  obtain ⟨e₁, hrun, hbuf, hlen, hrd, hwr⟩ := Enc.emit_group hs hinv
  obtain ⟨hL, hcnt, hcntrd, -, hwrrd, -⟩ := (Enc.inv_emit hs).mp hinv
  have hbytes := length_groupBytes (p := (e.cnt.toNat, e.cur)) hcnt
  have hsucc : (e₁.wr + 1#xlen).toNat = e₁.wr.toNat + 1 := toNat_succ (w := e.rd) (by omega)
  have hdone : encGroupDone e₁ = { e₁ with wr := e₁.wr + 1#xlen, st := .head } := by
    rw [encGroupDone, if_neg (by rwa [hrd, hlen])]
  rw [hdone] at hrun
  refine ⟨_, hrun, rfl, hbuf, by rw [hbytes]; exact hsucc.trans hwr, ?_⟩
  rw [← hL.rest_writeBytes (by rw [hbytes]; omega)]
  exact Enc.rest_congr hbuf hlen hrd

/-! ### All groups -/

/-- The transitions that a list of groups takes (R82). -/
def groupSteps (gs : List (Nat × Byte)) : Nat := (gs.map fun p => p.1 + 1 + min p.1 2).sum

@[simp] theorem groupSteps_nil : groupSteps [] = 0 := rfl

@[simp] theorem groupSteps_cons (p : Nat × Byte) (gs : List (Nat × Byte)) :
    groupSteps (p :: gs) = p.1 + 1 + min p.1 2 + groupSteps gs := by simp [groupSteps]

/-- The encode pass from `E_SCAN` with `bs` still to come: it writes the open group and those of `bs`, in the transitions
these take less those that the open group has taken. -/
def ScanWritesGroups (xlen addrW : Nat) (bs : List Byte) : Prop :=
  ∀ (e : Enc xlen addrW) (m : Memory), e.st = .scan → e.Inv m → e.rest m = bs →
    ∃ k, k + e.cnt.toNat = groupSteps (groupsFrom e.cur e.cnt.toNat bs)
      ∧ Enc.EndsWriting k e m ((groupsFrom e.cur e.cnt.toNat bs).flatMap groupBytes)

/-- R76: `E_HEAD` opens a group with the first byte still to come. -/
theorem Enc.head_endsWriting {b : Byte} {bs : List Byte} (ih : ScanWritesGroups xlen addrW bs) (hs : e.st = .head)
    (hinv : e.Inv m) (hrest : e.rest m = b :: bs) :
    Enc.EndsWriting (groupSteps (groups (b :: bs))) e m ((groups (b :: bs)).flatMap groupBytes) := by
  obtain ⟨-, -, hrd, -⟩ := (Enc.inv_head hs).mp hinv
  rw [Enc.rest_of_lt hrd, List.cons.injEq] at hrest
  obtain ⟨rfl, hbs⟩ := hrest
  obtain ⟨k, hk, hends⟩ := ih (encHead e (e.cell m e.rd.toNat)) m rfl (encHead_inv hs hinv) hbs
  have hsteps : groupSteps (groups (e.cell m e.rd.toNat :: bs)) = 1 + k := by
    rw [Nat.add_comm]
    exact hk.symm
  rw [hsteps]
  exact hends.step (by simp [Enc.busy, hs]) (Enc.transition_head hs) rfl rfl

/-- R77: an equal byte below the cap joins the open group. -/
theorem encScan_of_joins {b : Byte} (hrd : e.rd ≠ e.len) (hb : b = e.cur) (hcnt : e.cnt.toNat < 127) :
    encScan e b = { e with cnt := e.cnt + 1#7, rd := e.rd + 1#xlen } := by
  have hopen : ¬ e.groupClosed = true := by
    rw [Enc.groupClosed_iff, not_or]
    exact ⟨hrd, by omega⟩
  rw [encScan, if_neg hopen, if_pos hb]

/-- R77: otherwise the group is closed. -/
theorem encScan_of_closes {b : Byte} (h : e.rd = e.len ∨ ¬ (b = e.cur ∧ e.cnt.toNat < 127)) :
    encScan e b = { e with st := .emit } := by
  have hcap := e.cnt.isLt
  unfold encScan
  split
  · rfl
  next hopen =>
    rw [Enc.groupClosed_iff, not_or] at hopen
    exact if_neg fun hb => h.elim hopen.1 fun hn => hn ⟨hb, by omega⟩

/-- R77: the step that closes the open group keeps all but the state, and the invariant. -/
theorem Enc.transition_scan_closes (hs : e.st = .scan) (hinv : e.Inv m)
    (h : e.rd = e.len ∨ ¬ (e.cell m e.rd.toNat = e.cur ∧ e.cnt.toNat < 127)) :
    e.transition m = ({ e with st := .emit }, m) ∧ ({ e with st := .emit } : Enc xlen addrW).Inv m :=
  ⟨by rw [Enc.transition_scan hs, encScan_of_closes h], (Enc.inv_emit rfl).mpr ((Enc.inv_scan hs).mp hinv)⟩

/-- R76 to R79: the encode pass writes the groups of the input, by induction on the bytes still to come. -/
theorem scanWritesGroups (bs : List Byte) : ScanWritesGroups xlen addrW bs := by
  induction bs with
  | nil =>
    intro e m hs hinv hrest
    obtain ⟨-, -, -, hrd, -⟩ := (Enc.inv_scan hs).mp hinv
    have hend := Enc.rd_eq_len_of_rest_eq_nil hrd hrest
    obtain ⟨ht, hemit⟩ := Enc.transition_scan_closes hs hinv (.inl hend)
    refine ⟨1 + min e.cnt.toNat 2, ?_, ?_⟩
    · simp only [groupsFrom, groupSteps_cons, groupSteps_nil]
      omega
    · rw [groupsFrom, List.flatMap_singleton]
      exact (Enc.emit_endsWriting rfl hemit hend).step (by simp [Enc.busy, hs]) ht rfl rfl
  | cons b bs ih =>
    intro e m hs hinv hrest
    have hb : e.busy = true := by simp [Enc.busy, hs]
    obtain ⟨-, -, -, hrd, -⟩ := (Enc.inv_scan hs).mp hinv
    have hlt := Enc.rd_lt_len_of_rest_eq_cons hrd hrest
    have hmore : e.rd ≠ e.len := fun h => hlt.ne (congrArg BitVec.toNat h)
    obtain ⟨hcell, hbs⟩ := List.cons.inj ((Enc.rest_of_lt hlt).symm.trans hrest)
    rw [groupsFrom]
    split
    next hjoin =>
      obtain ⟨hcur, hcap : e.cnt.toNat < 127⟩ := hjoin
      have hscan := encScan_of_joins hmore (hcell.trans hcur) hcap
      have hcnt : (e.cnt + 1#7).toNat = e.cnt.toNat + 1 := by bv_omega
      obtain ⟨k, hk, hends⟩ := ih { e with cnt := e.cnt + 1#7, rd := e.rd + 1#xlen } m hs
        (hscan ▸ encScan_inv hs hinv) hbs
      simp only [hcnt] at hk hends
      exact ⟨1 + k, by omega, hends.step hb (by rw [Enc.transition_scan hs, hscan]) rfl rfl⟩
    next hclose =>
      obtain ⟨ht, hemit⟩ := Enc.transition_scan_closes hs hinv (.inr (hcell ▸ hclose))
      obtain ⟨e₁, hrun, hs₁, hbuf, hwr, hrest₁⟩ := Enc.emit_runsTo_head rfl hemit hmore
      have hends := (Enc.head_endsWriting ih hs₁ (hrun.inv hemit) (hrest₁.trans hrest)).after hrun hbuf hwr
      refine ⟨1 + (min e.cnt.toNat 2 + groupSteps (groups (b :: bs))), ?_, hends.step hb ht rfl rfl⟩
      simp only [groupSteps_cons, groups]
      omega

/-! ### The whole operation (R80, R82) -/

/-- The buffer's bytes are below 128 exactly when its cells have bit 7 clear. -/
theorem Enc.bytesAt_payload_iff (e : Enc xlen addrW) {n : Nat} :
    (∀ b ∈ bytesAt m e.buf n, b.toNat < 128) ↔ ∀ i, i < n → (e.cell m i).msb = false := by
  simp only [bytesAt, List.forall_mem_map, List.mem_range]
  exact forall₂_congr fun i _ => (isMarker_eq_false_iff _).symm

theorem encSteps_eq (s : List Byte) : encSteps s = 1 + s.length + groupSteps (groups s) := rfl

/-- R80, R82: on an input without a bad byte, from the check state on. -/
theorem Enc.runsTo_success (hs : e.st = .check) (hL : e.Launched)
    (hgood : ∀ b ∈ bytesAt m e.buf e.len.toNat, b.toNat < 128) :
    ∃ e', Enc.RunsTo (encSteps (bytesAt m e.buf e.len.toNat)) e m e'
        (writeBytes m e.buf 0 (rleEnc (bytesAt m e.buf e.len.toNat)))
      ∧ e'.st = .done ∧ e'.err = .none ∧ e'.result.toNat = (rleEnc (bytesAt m e.buf e.len.toNat)).length := by
  have hhead := Enc.runsTo_head hs hL (e.bytesAt_payload_iff.mp hgood)
  have hinv : e.Inv m := (Enc.inv_check hs).mpr (by rw [hL.buffer_eq, Region.wraps_eq_false_iff]; exact hL.fits)
  obtain ⟨b, bs, hbytes⟩ : ∃ b bs, bytesAt m e.buf e.len.toNat = b :: bs :=
    List.exists_cons_of_length_pos (by rw [bytesAt_length]; exact toNat_pos_of_toInt_pos hL.len_pos)
  obtain ⟨e', hrun, hd, herr, hresult⟩ :=
    Enc.head_endsWriting (scanWritesGroups bs) rfl (hhead.inv hinv) ((Enc.rest_start rfl).trans hbytes)
  simp only [BitVec.toNat_zero, Nat.zero_add] at hrun hresult
  rw [encSteps_eq, bytesAt_length, hbytes]
  exact ⟨e', hhead.trans hrun, hd, herr, hresult⟩

/-- R82: a group takes at most three transitions a byte. -/
theorem steps_le_of_mem_groups {s : List Byte} {p : Nat × Byte} (hp : p ∈ groups s) : p.1 + 1 + min p.1 2 ≤ 3 * p.1 := by
  have := (groups_bounds s p hp).1
  omega

theorem groupSteps_le (s : List Byte) : groupSteps (groups s) ≤ 3 * s.length := by
  rw [← sum_groups s, ← List.sum_map_mul_left]
  exact List.sum_le_sum fun _ hp => steps_le_of_mem_groups hp

theorem groupSteps_eq_iff (s : List Byte) : groupSteps (groups s) = 3 * s.length ↔ ∀ p ∈ groups s, p.1 = 1 := by
  rw [← sum_groups s, ← List.sum_map_mul_left, groupSteps, sum_map_eq_iff_of_le fun _ hp => steps_le_of_mem_groups hp]
  exact forall₂_congr fun p hp => by have := (groups_bounds s p hp).1; omega

/-- R82: `LEN + 1` transitions and the groups' own. -/
theorem encSteps_le (s : List Byte) : 1 + encSteps s ≤ 4 * s.length + 2 := by
  have := groupSteps_le s
  rw [encSteps_eq]
  omega

theorem encSteps_eq_iff (s : List Byte) : 1 + encSteps s = 4 * s.length + 2 ↔ ∀ p ∈ groups s, p.1 = 1 := by
  rw [← groupSteps_eq_iff, encSteps_eq]
  omega

/-- R82: a launched operation ends within `4 * LEN + 2` steps, whatever its input. -/
theorem Enc.ends_within_bound (hs : e.st = .check) (hL : e.Launched) :
    ∃ n, 1 + n ≤ 4 * e.len.toNat + 2 ∧ (Enc.run n e m).1.st = .done := by
  by_cases hbad : ∃ i, i < e.len.toNat ∧ (e.cell m i).msb = true
  · obtain ⟨k, e', hk, hrun, hd, -⟩ := Enc.runsTo_payload_failure hs hL hbad
    exact ⟨k, by omega, (hrun.done_iff hd k).mpr le_rfl⟩
  · obtain ⟨e', hrun, hd, -⟩ := Enc.runsTo_success hs hL (e.bytesAt_payload_iff.mpr fun i hi =>
      Bool.eq_false_of_not_eq_true fun h => hbad ⟨i, hi, h⟩)
    refine ⟨_, ?_, (hrun.done_iff hd _).mpr le_rfl⟩
    have := encSteps_le (bytesAt m e.buf e.len.toNat)
    rwa [bytesAt_length] at this

end Sys2Proof.Machine

namespace Sys2Proof.Proofs

open Sys2Proof.Machine

/-- Settles O25: the whole run writes the encoding from element 0 on, in place (R41), and reports its length. -/
theorem compressWritesEncoding : Obligations.CompressWritesEncoding := by
  intro _ addrW e m _ hs hL hwf hgood
  obtain ⟨e', hrun, hd, herr, hresult⟩ := Enc.runsTo_success hs hL hgood
  have hlen := length_rleEnc_le (bytesAt m e.buf e.len.toNat)
  rw [bytesAt_length] at hlen
  obtain ⟨-, hhalf⟩ := toInt_of_pos hL.len_pos
  have hfits := hL.fits
  simp only [hrun.run_eq]
  refine ⟨hd, ?_, herr, bytesAt_writeBytes hwf (by omega), fun a ha => ?_⟩
  · rw [BitVec.toInt_eq_toNat_of_lt (by omega), hresult]
  · exact memRead_writeBytes_other fun j _ hj => ha j (by omega)

/-- Settles O26: each group of `g` bytes takes `g + 1 + min(g, 2)` transitions, of which it is at most `3 * g`. -/
theorem compressTakesExactlyItsSteps : Obligations.CompressTakesExactlyItsSteps := by
  refine ⟨fun _ _ e m hs hL _ hgood => ?_, fun _ _ e m hs hL => Enc.ends_within_bound hs hL, fun _ _ e m hs hfail => ?_⟩
  · obtain ⟨e', hrun, hd, -⟩ := Enc.runsTo_success hs hL hgood
    have hle := encSteps_le (bytesAt m e.buf e.len.toNat)
    have heq := encSteps_eq_iff (bytesAt m e.buf e.len.toNat)
    rw [bytesAt_length] at hle heq
    exact ⟨hrun.done_iff hd, hle, heq⟩
  · rw [Enc.run, Enc.run, Enc.transition_check hs]
    exact encCheck_of_failing hfail

end Sys2Proof.Proofs
end

section
/-!
PROOFS. The cells that an ended operation leaves unspecified (R83, R84, R105, R106): those of its writable buffer past the
meaningful ones.
-/

namespace Sys2Proof.Machine

variable {xlen addrW : Nat} {s : Chip xlen addrW} {w : Region} {a : Nat}

/-- Inside the buffer of the ended operation, the cells past the meaningful ones are unspecified. -/
theorem inRegions_settleRegion_of_contains (good : Nat) (voids : List Region) (h : w.contains a = true) :
    inRegions (settleRegion w good voids) a = decide (w.base + good ≤ a) := by
  simp [inRegions_settleRegion, h]

/-- Outside the buffer of the ended operation nothing changes. -/
theorem inRegions_settleRegion_of_not_contains (good : Nat) (voids : List Region) (h : w.contains a = false) :
    inRegions (settleRegion w good voids) a = inRegions voids a := by
  simp [inRegions_settleRegion, h]

/-- Where no byte is meaningful, the whole buffer is unspecified. -/
theorem inRegions_settleRegion_zero (voids : List Region) (h : w.contains a = true) :
    inRegions (settleRegion w 0 voids) a = true := by
  rw [inRegions_settleRegion_of_contains 0 voids h, decide_eq_true_eq]
  exact ((Region.contains_iff w a).mp h).1

/-! ### ENC -/

theorem encMove_voids_of_done (hb : s.enc.busy = true) (hd : (encMove s).enc.st = .done) :
    (encMove s).voids = (encMove s).enc.settle s.voids := by
  rw [encMove_busy hb, Chip.commitEnc_enc] at hd
  rw [encMove_busy hb, Chip.commitEnc_voids, Enc.done, hd]
  rfl

theorem encMove_buffer (s : Chip xlen addrW) : (encMove s).enc.buffer = s.enc.buffer := by
  rw [encMove_enc, Enc.transition_buffer]

theorem Enc.settle_success {e : Enc xlen addrW} (h : e.err = .none) (voids : List Region) :
    e.settle voids = settleRegion e.buffer e.result.toNat voids := by simp only [Enc.settle, h]

theorem Enc.settle_payload {e : Enc xlen addrW} (h : e.err = .invalidPayload) (voids : List Region) :
    e.settle voids = settleRegion e.buffer 0 voids := by simp only [Enc.settle, h]

theorem Enc.inRegions_settle_outside {e : Enc xlen addrW} (h : e.buffer.contains a = false) (voids : List Region) :
    inRegions (e.settle voids) a = inRegions voids a := by
  unfold Enc.settle
  split
  · exact inRegions_settleRegion_of_not_contains _ voids h
  · exact inRegions_settleRegion_of_not_contains _ voids h
  · rfl

/-! ### DEC -/

theorem decMove_voids_of_done (hb : s.dec.busy = true) (hd : (decMove s).dec.st = .done) :
    (decMove s).voids = (decMove s).dec.settle s.voids := by
  rw [decMove_busy hb, Chip.commitDec_dec] at hd
  rw [decMove_busy hb, Chip.commitDec_voids, Dec.done, hd]
  rfl

theorem decMove_outBuffer (s : Chip xlen addrW) : (decMove s).dec.outBuffer = s.dec.outBuffer := by
  rw [decMove_dec, Dec.transition_outBuffer]

theorem Dec.settle_success {d : Dec xlen addrW} (h : d.err = .none) (voids : List Region) :
    d.settle voids = settleRegion d.outBuffer d.result.toNat voids := by simp only [Dec.settle, h]

theorem Dec.settle_failure {d : Dec xlen addrW} (h : d.err = .outputOverflow ∨ d.err = .truncatedStream)
    (voids : List Region) : d.settle voids = settleRegion d.outBuffer 0 voids := by
  obtain h | h := h
  · simp only [Dec.settle, h]
  · simp only [Dec.settle, h]

theorem Dec.inRegions_settle_outside {d : Dec xlen addrW} (h : d.outBuffer.contains a = false) (voids : List Region) :
    inRegions (d.settle voids) a = inRegions voids a := by
  unfold Dec.settle
  split
  · exact inRegions_settleRegion_of_not_contains _ voids h
  · exact inRegions_settleRegion_of_not_contains _ voids h
  · exact inRegions_settleRegion_of_not_contains _ voids h
  · rfl

end Sys2Proof.Machine

namespace Sys2Proof.Proofs

open Sys2Proof.Machine

/-- Settles O52: the ending transition settles the block's writable region, by its cause. -/
theorem unspecifiedCellsAfterAnOperation : Obligations.UnspecifiedCellsAfterAnOperation := by
  refine ⟨fun _ _ s a hb hd => ?_, fun _ _ s a hb hd => ?_⟩
  · rw [encMove_voids_of_done hb hd, ← encMove_buffer s]
    refine ⟨fun herr ha => ?_, fun herr ha => ?_, fun ha => Enc.inRegions_settle_outside ha s.voids⟩
    · rw [Enc.settle_success herr, inRegions_settleRegion_of_contains _ _ ha, decide_eq_true_eq]
    · rw [Enc.settle_payload herr, inRegions_settleRegion_zero _ ha]
  · rw [decMove_voids_of_done hb hd, ← decMove_outBuffer s]
    refine ⟨fun herr ha => ?_, fun herr ha => ?_, fun ha => Dec.inRegions_settle_outside ha s.voids⟩
    · rw [Dec.settle_success herr, inRegions_settleRegion_of_contains _ _ ha, decide_eq_true_eq]
    · rw [Dec.settle_failure herr, inRegions_settleRegion_zero _ ha]

end Sys2Proof.Proofs
end
section
/-!
PROOFS. The decoding of a stream (R89, R91, R104): token by token, each fits what is left of the capacity or overflows.
-/

namespace Sys2Proof

/-- Every byte list is empty, a lone marker, or a token's bytes and what follows them (R50, R54). -/
theorem stream_induction {motive : List Byte → Prop} (nil : motive [])
    (truncated : ∀ t, isMarker t = true → motive [t])
    (token : ∀ i rest, motive rest → motive (encode i ++ rest)) : ∀ bs, motive bs
  | [] => nil
  | t :: rest => by
    cases ht : isMarker t
    · have h := token (.lit (lowSeven t)) rest (stream_induction nil truncated token rest)
      rwa [encode, literalByte_lowSeven t ht] at h
    · match rest with
      | [] => exact truncated t ht
      | v :: rest' =>
        have h := token (.run (lowSeven t) v) rest' (stream_induction nil truncated token rest')
        rwa [encode, markerByte_lowSeven t ht] at h

namespace Machine

variable {cap : Int}

/-! ### One token -/

/-- R91: a token that fits what is left of the capacity is expanded; an empty run always fits. -/
theorem decGo_token_of_fits {i : Instr} {out : List Byte} (rest : List Byte)
    (h : (expandToken i).length ≤ (cap - out.length).toNat) :
    decGo cap (encode i ++ rest) out = decGo cap rest (out ++ expandToken i) := by
  cases i with
  | lit v => exact decGo_encode_append _ rest out (by simp only [expandToken, List.length_singleton] at h ⊢; omega)
  | run c v =>
    have hfit : ¬ (1 ≤ c.toNat ∧ cap < (out.length : Int) + (c.toNat : Int)) := by
      simp only [expandToken, List.length_replicate] at h
      omega
    rw [encode, List.cons_append, List.singleton_append, decGo.eq_def]
    simp only [isMarker_markerByte, if_true, lowSeven_markerByte, if_neg hfit, expandToken]

/-- R91, R94: a token that does not fit overflows. -/
theorem decGo_token_of_overflows {i : Instr} {out : List Byte} (rest : List Byte)
    (h : (cap - out.length).toNat < (expandToken i).length) :
    decGo cap (encode i ++ rest) out = .fail .outputOverflow := by
  cases i with
  | lit v =>
    have hfull : cap ≤ (out.length : Int) := by
      simp only [expandToken, List.length_singleton] at h
      omega
    rw [encode, List.singleton_append, decGo.eq_def]
    simp only [isMarker_literalByte, Bool.false_eq_true, if_false, if_pos hfull]
  | run c v =>
    have hover : 1 ≤ c.toNat ∧ cap < (out.length : Int) + (c.toNat : Int) := by
      simp only [expandToken, List.length_replicate] at h
      omega
    rw [encode, List.cons_append, List.singleton_append, decGo.eq_def]
    simp only [isMarker_markerByte, if_true, lowSeven_markerByte, if_pos hover]

/-- R91, R93. -/
theorem decGo_truncated {t : Byte} (ht : isMarker t = true) (out : List Byte) :
    decGo cap [t] out = .fail .truncatedStream := by
  rw [decGo.eq_def]
  simp only [ht, if_true]

/-! ### The whole stream -/

/-- R89, R91: after `out`, decoding succeeds exactly on the streams that parse and whose expansion fits what is left. -/
theorem decGo_eq_ok_iff (t out res : List Byte) :
    decGo cap t out = .ok res ↔
      ∃ is, parse t = some is ∧ out ++ expand is = res ∧ (expand is).length ≤ (cap - out.length).toNat := by
  induction t using stream_induction generalizing out with
  | nil => simp
  | truncated t ht => simp [decGo_truncated ht, parse_truncated t ht]
  | token i rest ih =>
    simp only [parse_encode_append, Option.map_eq_some_iff, exists_exists_and_eq_and, expand_cons, List.length_append]
    by_cases hfit : (expandToken i).length ≤ (cap - out.length).toNat
    · rw [decGo_token_of_fits rest hfit, ih]
      refine exists_congr fun is => and_congr_right fun _ => ?_
      rw [List.append_assoc, List.length_append]
      exact and_congr_right fun _ => by omega
    · rw [decGo_token_of_overflows rest (Nat.lt_of_not_le hfit)]
      refine iff_of_false nofun ?_
      rintro ⟨is, -, -, hle⟩
      omega

theorem rleDec_eq_ok_iff (t out : List Byte) :
    rleDec t cap = .ok out ↔ ∃ is, parse t = some is ∧ expand is = out ∧ (out = [] ∨ (out.length : Int) ≤ cap) := by
  rw [rleDec, decGo_eq_ok_iff]
  refine exists_congr fun is => and_congr_right fun _ => and_congr_right ?_
  rintro rfl
  rw [List.nil_append, List.length_nil, ← List.length_eq_zero_iff]
  omega

/-- R58: the tokens that stand for no byte are the runs of none. -/
theorem expandToken_eq_nil_iff (i : Instr) : expandToken i = [] ↔ ∃ v, i = .run 0#7 v := by
  cases i with
  | lit v => simp [expandToken]
  | run c v => simp [expandToken, BitVec.toNat_eq]

theorem expand_eq_nil_iff (is : List Instr) : expand is = [] ↔ ∀ i ∈ is, ∃ v, i = Instr.run 0#7 v := by
  rw [expand, List.flatMap_eq_nil_iff]
  exact forall₂_congr fun i _ => expandToken_eq_nil_iff i

end Machine

end Sys2Proof

namespace Sys2Proof.Proofs

open Sys2Proof.Machine

/-- Settles O16, by induction on the stream's tokens with the bytes written so far. -/
theorem decodingSucceedsExactlyOnFittingStreams : Obligations.DecodingSucceedsExactlyOnFittingStreams :=
  fun t out _ => rleDec_eq_ok_iff t out

/-- Settles O17: success is a parsed stream whose expansion is empty, so each token expands to nothing. -/
theorem zeroLengthOutputOnlyFromEmptyRuns : Obligations.ZeroLengthOutputOnlyFromEmptyRuns := by
  refine ⟨fun t cap h => ?_, fun vs cap => ?_⟩
  · obtain ⟨is, hparse, hexpand, -⟩ := (rleDec_eq_ok_iff t []).mp h
    exact ⟨is, hparse, (expand_eq_nil_iff is).mp hexpand⟩
  · refine (rleDec_eq_ok_iff _ []).mpr ⟨_, parse_encodeStream _, (expand_eq_nil_iff _).mpr ?_, .inl rfl⟩
    exact List.forall_mem_map.mpr fun v _ => ⟨v, rfl⟩

end Sys2Proof.Proofs
end

section
/-!
PROOFS. DEC, state by state (R97 to R100): each state's transition, written out in numbers.
-/

namespace Sys2Proof

/-- R47, as numbers: `t[6:0]` is `byte & 0x7F`. -/
theorem lowSeven_eq_ofNat (t : Byte) : lowSeven t = BitVec.ofNat 7 (t.toNat % 128) := by
  rw [← toNat_lowSeven, BitVec.ofNat_toNat, BitVec.setWidth_eq]

namespace Machine

variable {xlen addrW : Nat} {d : Dec xlen addrW} {m : Memory}

theorem count_eq_zero_iff (c : Count) : c = 0#7 ↔ c.toNat = 0 :=
  (BitVec.toNat_inj (y := 0#7)).symm

/-- R100, as one equation. -/
theorem Dec.transition_expand (hs : d.st = .expand) :
    d.transition m =
      if d.cnt = 0#7 then (d.close, m)
      else if d.full then (d.raise .outputOverflow, m)
      else ({ d with wr := d.wr + 1#xlen, cnt := d.cnt - 1#7 }, memWrite m d.writeAddr d.val) := by
  by_cases hc : d.cnt = 0#7
  · rw [if_pos hc, Dec.transition_expand_close hs hc]
  · cases hf : d.full
    · rw [if_neg hc, if_neg Bool.false_ne_true, Dec.transition_expand_write hs hc hf]
    · rw [if_neg hc, if_pos rfl, Dec.transition_expand_full hs hc hf]

/-- R100: `wr` stays a count of bytes that fitted, and `cnt` never rises. -/
theorem Dec.transition_expand_counters (hx : Config.xlenMin ≤ xlen) (hs : d.st = .expand) :
    (d.CursorOk → (d.transition m).1.CursorOk) ∧ (d.transition m).1.cnt.toNat ≤ d.cnt.toNat := by
  rw [Dec.transition_expand hs]
  split
  · refine ⟨fun hcur => ?_, by rw [Dec.close_cnt]⟩
    rwa [Dec.CursorOk, Dec.close_wr, Dec.close_maxLen]
  next hc =>
    split
    · exact ⟨id, le_rfl⟩
    next hf =>
      rw [count_eq_zero_iff] at hc
      exact ⟨fun hcur => hcur.succ hx (Bool.eq_false_of_not_eq_true hf) _, by show (d.cnt - 1#7).toNat ≤ _; bv_omega⟩

end Machine

end Sys2Proof

namespace Sys2Proof.Proofs

open Sys2Proof.Machine

/-- Settles O31: the tests of `decCheck`, the length read as a signed number. -/
theorem decCheckTestsOperands : Obligations.DecCheckTestsOperands := by
  intro _ _ d m hs
  simp only [Dec.transition_check hs, decCheck, sle_zero_iff]
  rfl

/-- Settles O32: bit 7 of the byte at `rd` read as `byte ≥ 128`, its low bits as a remainder. -/
theorem decFetchClassifiesFirstByte : Obligations.DecFetchClassifiesFirstByte := by
  intro _ _ d m hs t
  have hcell : d.cell m d.rd.toNat = t := rfl
  rw [Dec.transition_fetch hs, decFetch, ← lowSeven_eq_ofNat, hcell]
  simp only [← isMarker_eq_false_iff]
  cases isMarker t
  · rfl
  · rfl

/-- Settles O33: the transition is the equation. -/
theorem decValueTakesWholeByte : Obligations.DecValueTakesWholeByte :=
  fun _ _ _ _ hs => Dec.transition_value hs

/-- Settles O34: the two tests of the state, read as numbers. -/
theorem decExpandWritesOrCloses : Obligations.DecExpandWritesOrCloses := by
  refine fun _ _ d m hx hs => ⟨?_, Dec.transition_expand_counters hx hs⟩
  simp only [Dec.transition_expand hs, count_eq_zero_iff, Dec.full_iff]
  rfl

end Sys2Proof.Proofs
end

section
/-!
PROOFS. The copies of a token (R94, R100, R136): how many fit, the cursor and the memory after them.
-/

namespace Sys2Proof.Machine

variable {xlen addrW : Nat} {d : Dec xlen addrW} {m : Memory} {out : Addr addrW} {wr : Word xlen} {v : Byte} {j k n : Nat}

/-- A word below another as signed numbers has a successor, whatever the width. -/
theorem toInt_add_one_of_lt {v w : Word xlen} (h : v.toInt < w.toInt) : (v + 1#xlen).toInt = v.toInt + 1 := by
  have hv := v.isLt
  have hw := w.isLt
  have hsum : (v + 1#xlen).toNat = v.toNat + 1 ∨ ((v + 1#xlen).toNat = 0 ∧ v.toNat + 1 = 2 ^ xlen) := by
    rw [BitVec.toNat_add, BitVec.toNat_ofNat, Nat.add_mod_mod]
    obtain (heq : v.toNat + 1 = 2 ^ xlen) | hlt := Nat.eq_or_lt_of_le hv
    · exact .inr ⟨by rw [heq, Nat.mod_self], heq⟩
    · exact .inl (Nat.mod_eq_of_lt hlt)
  simp only [BitVec.toInt_eq_toNat_cond] at h ⊢
  omega

/-! ### The room and the cursor -/

/-- The number of bytes that `output` still has room for (R94). -/
def Dec.room (d : Dec xlen addrW) : Nat := (d.maxLen.toInt - d.wr.toInt).toNat

/-- The write cursor `k` bytes on. -/
def Dec.advance (k : Nat) (d : Dec xlen addrW) : Dec xlen addrW := { d with wr := d.wr + BitVec.ofNat xlen k }

theorem Dec.advance_zero (d : Dec xlen addrW) : d.advance 0 = d := by
  rw [Dec.advance, BitVec.add_zero]

theorem Dec.advance_succ (k : Nat) (d : Dec xlen addrW) :
    d.advance (k + 1) = { d.advance k with wr := (d.advance k).wr + 1#xlen } := by
  rw [Dec.advance, BitVec.ofNat_add, ← BitVec.add_assoc]
  rfl

theorem Dec.full_iff_room (d : Dec xlen addrW) : d.full = true ↔ d.room = 0 := by
  rw [Dec.full_iff, Dec.room]
  omega

/-- Where the copies fit, the cursor advances by their number as a signed number. -/
theorem Dec.toInt_advance (h : k ≤ d.room) : (d.advance k).wr.toInt = d.wr.toInt + k := by
  induction k with
  | zero => rw [Dec.advance_zero, Nat.cast_zero, Int.add_zero]
  | succ k ih =>
    have hk := ih (by omega)
    rw [Dec.room] at h
    have hsucc := toInt_add_one_of_lt (v := (d.advance k).wr) (w := d.maxLen) (by omega)
    rw [Dec.advance_succ]
    push_cast
    omega

theorem Dec.room_advance (h : k ≤ d.room) : (d.advance k).room = d.room - k := by
  have hwr := Dec.toInt_advance h
  have hmax : (d.advance k).maxLen = d.maxLen := rfl
  simp only [Dec.room, hwr, hmax]
  omega

/-! ### The memory -/

/-- The memory after `k` copies of `v` have been written from the write cursor `wr` on, which may be any word. -/
def writeCopies (m : Memory) (out : Addr addrW) (wr : Word xlen) (v : Byte) : Nat → Memory
  | 0 => m
  | k + 1 => memWrite (writeCopies m out wr v k) (elementAddr out (wr + BitVec.ofNat xlen k).toNat) v

/-- R35: no cell changes but those of the copies. -/
theorem memRead_writeCopies_other {c : Addr addrW}
    (h : ∀ k, k < n → c ≠ elementAddr out (wr + BitVec.ofNat xlen k).toNat) :
    memRead (writeCopies m out wr v n) c = memRead m c := by
  induction n with
  | zero => rfl
  | succ n ih =>
    rw [writeCopies, memRead_memWrite_other _ v (h n (Nat.lt_succ_self n)).symm]
    exact ih fun k hk => h k (by omega)

theorem writeCopies_wf (h : m.wf addrW = true) (n : Nat) : (writeCopies m out wr v n).wf addrW = true := by
  induction n with
  | zero => exact h
  | succ n ih => exact memWrite_wf ih _ v

/-- R35: every copy is read back; where two fall on one cell they are the same byte. -/
theorem memRead_writeCopies (hwf : m.wf addrW = true) (h : k < n) :
    memRead (writeCopies m out wr v n) (elementAddr out (wr + BitVec.ofNat xlen k).toNat) = v := by
  induction n with
  | zero => exact absurd h (Nat.not_lt_zero k)
  | succ n ih =>
    rw [writeCopies, memRead_memWrite (writeCopies_wf hwf n)]
    split
    · rfl
    next hne => exact ih (Nat.lt_of_le_of_ne (Nat.le_of_lt_succ h) fun heq => hne (by rw [heq]))

/-! ### The loop of R136 -/

/-- The first copies that fit are written, one by one. -/
theorem Dec.copies_add (n : Nat) (h : j ≤ d.room) :
    Dec.copies v (n + j) d m = Dec.copies v n (d.advance j) (writeCopies m d.out d.wr v j) := by
  induction j generalizing n with
  | zero => rw [Dec.advance_zero, Nat.add_zero, writeCopies]
  | succ j ih =>
    have hroom : ¬ (d.advance j).full = true := by
      rw [Dec.full_iff_room, Dec.room_advance (by omega)]
      omega
    rw [← Nat.add_assoc, Nat.add_right_comm, ih (n + 1) (by omega), Dec.copies, if_neg hroom, Dec.advance_succ]
    rfl

/-- R100, R136: where all copies fit they are written and the token is closed. -/
theorem Dec.copies_of_le_room (h : n ≤ d.room) :
    Dec.copies v n d m = ({ d.advance n with cnt := 0#7 }.close, writeCopies m d.out d.wr v n) := by
  have hall := Dec.copies_add (v := v) (m := m) 0 h
  rwa [Nat.zero_add, Dec.copies] at hall

/-- R94, R136: otherwise those that fit are written, and the overflow is raised. -/
theorem Dec.copies_of_room_lt (h : d.room < n) :
    Dec.copies v n d m =
      ({ d.advance d.room with cnt := BitVec.ofNat 7 (n - d.room) }.raise .outputOverflow,
        writeCopies m d.out d.wr v d.room) := by
  obtain ⟨l, rfl⟩ : ∃ l, n = l + 1 + d.room := ⟨n - d.room - 1, by omega⟩
  have hfull : (d.advance d.room).full = true := by rw [Dec.full_iff_room, Dec.room_advance le_rfl, Nat.sub_self]
  rw [Dec.copies_add _ le_rfl, Dec.copies, if_pos hfull, Nat.add_sub_cancel]

end Sys2Proof.Machine
end

section
/-!
PROOFS. The tokens (R90, R135, R136): the outcome of each from `D_FETCH`, what it leaves unchanged, and its transitions.
-/

namespace Sys2Proof.Machine

variable {xlen addrW : Nat} {d : Dec xlen addrW} {m : Memory} {s : Chip xlen addrW} {i : Instr} {c : Count} {v : Byte}

/-! ### Both tokens as copies -/

/-- The number of copies that a token stands for (R135, R136). -/
def tokenCount : Instr → Count
  | .lit _ => 1#7
  | .run c _ => c

/-- The byte that a token writes (R135, R136). -/
def tokenByte : Instr → Byte
  | .lit v => literalByte v
  | .run _ v => v

/-- DEC's registers once it has read a token. -/
def Dec.taken (i : Instr) (d : Dec xlen addrW) : Dec xlen addrW :=
  { d with rd := d.rd + BitVec.ofNat xlen (encode i).length, cnt := tokenCount i, val := tokenByte i }

/-- R54: the stream reaches past the token's first byte, where the token has a second one. -/
def Dec.Holds (d : Dec xlen addrW) : Instr → Prop
  | .lit _ => True
  | .run _ _ => d.rd + 1#xlen ≠ d.len

/-- The meaning of a token on DEC's registers and the memory. -/
def Dec.token (d : Dec xlen addrW) (m : Memory) : Instr → Dec xlen addrW × Memory
  | .lit v => d.litToken v m
  | .run c v => d.runToken c v m

/-- R98: a token runs from `D_FETCH`. -/
theorem exec_of_fetch (i : Instr) (hs : s.dec.st = .fetch) :
    exec i ⟨s⟩ = .next ⟨s.commitDec (s.dec.token s.mem i).1 (s.dec.token s.mem i).2⟩ := by
  cases i with
  | lit v => exact if_pos hs
  | run c v => exact if_pos hs

/-- R98: it runs from nowhere else (log entry 17). -/
theorem exec_of_not_fetch (i : Instr) (hs : s.dec.st ≠ .fetch) : exec i ⟨s⟩ = .fault .notAtToken := by
  cases i with
  | lit v => exact if_neg hs
  | run c v => exact if_neg hs

theorem Dec.token_eq_copies (h : d.Holds i) :
    d.token m i = Dec.copies (tokenByte i) (tokenCount i).toNat (d.taken i) m := by
  cases i with
  | lit v => rfl
  | run c v => exact if_neg h

/-! ### The three outcomes of a token -/

/-- R90, R135, R136: where its copies fit they are written and the token is closed. -/
theorem Dec.token_of_fits (h : d.Holds i) (hfit : (tokenCount i).toNat ≤ d.room) :
    d.token m i = ({ (d.taken i).advance (tokenCount i).toNat with cnt := 0#7 }.close,
      writeCopies m d.out d.wr (tokenByte i) (tokenCount i).toNat) := by
  rw [Dec.token_eq_copies h]
  exact Dec.copies_of_le_room hfit

/-- R94: where they do not, those that fit are written and the overflow is raised. -/
theorem Dec.token_of_overflows (h : d.Holds i) (hover : d.room < (tokenCount i).toNat) :
    d.token m i =
      ({ (d.taken i).advance d.room with cnt := BitVec.ofNat 7 ((tokenCount i).toNat - d.room) }.raise .outputOverflow,
        writeCopies m d.out d.wr (tokenByte i) d.room) := by
  rw [Dec.token_eq_copies h]
  exact Dec.copies_of_room_lt hover

/-- R93: a run whose value byte is not in the stream. -/
theorem Dec.token_of_truncated (hend : d.rd + 1#xlen = d.len) :
    d.token m (.run c v) = ({ d with rd := d.rd + 1#xlen, cnt := c }.raise .truncatedStream, m) :=
  if_pos hend

theorem Dec.holds_or_truncated (d : Dec xlen addrW) (i : Instr) :
    d.Holds i ∨ d.rd + 1#xlen = d.len ∧ ∃ c v, i = .run c v := by
  cases i with
  | lit v => exact .inl trivial
  | run c v => exact (ne_or_eq _ _).imp id fun h => ⟨h, c, v, rfl⟩

/-- `d'` is `d` but for the registers that a token works with. -/
def Dec.SameOperation (d' d : Dec xlen addrW) : Prop :=
  ∃ rd wr cnt val, d' = { d with rd := rd, wr := wr, cnt := cnt, val := val }

/-- R90: whichever it is, some of the token's copies are written, and the token is closed or fails. -/
theorem Dec.token_cases (d : Dec xlen addrW) (m : Memory) (i : Instr) :
    ∃ (d' : Dec xlen addrW) (j : Nat), d'.SameOperation d ∧ j ≤ (tokenCount i).toNat
      ∧ (d.token m i).2 = writeCopies m d.out d.wr (tokenByte i) j
      ∧ ((d.token m i).1 = d'.close ∨ ∃ cause, (d.token m i).1 = d'.raise cause) := by
  obtain h | ⟨hend, c, v, rfl⟩ := d.holds_or_truncated i
  · obtain hfit | hover := le_or_gt (tokenCount i).toNat d.room
    · rw [Dec.token_of_fits h hfit]
      exact ⟨_, _, ⟨_, _, _, _, rfl⟩, le_rfl, rfl, .inl rfl⟩
    · rw [Dec.token_of_overflows h hover]
      exact ⟨_, _, ⟨_, _, _, _, rfl⟩, hover.le, rfl, .inr ⟨_, rfl⟩⟩
  · rw [Dec.token_of_truncated hend]
    exact ⟨_, 0, ⟨_, _, _, _, rfl⟩, Nat.zero_le _, rfl, .inr ⟨_, rfl⟩⟩

/-! ### Closing a token (R100) -/

theorem Dec.close_of_eq (h : d.rd = d.len) : d.close = d.finish d.wr := if_pos h

theorem Dec.close_of_ne (h : d.rd ≠ d.len) : d.close = { d with st := .fetch } := if_neg h

theorem Dec.close_st (d : Dec xlen addrW) : d.close.st = .fetch ∨ d.close.st = .done := by
  by_cases h : d.rd = d.len
  · exact .inr (by rw [Dec.close_of_eq h, Dec.finish_st])
  · exact .inl (by rw [Dec.close_of_ne h])

/-- Until the operation ends, its report is not touched. -/
theorem Dec.close_report (h : d.close.st ≠ .done) : d.close.result = d.result ∧ d.close.err = d.err := by
  have hmore : d.rd ≠ d.len := fun heq => h (by rw [Dec.close_of_eq heq, Dec.finish_st])
  rw [Dec.close_of_ne hmore]
  exact ⟨rfl, rfl⟩

theorem Dec.token_st (d : Dec xlen addrW) (m : Memory) (i : Instr) :
    (d.token m i).1.st = .fetch ∨ (d.token m i).1.st = .done := by
  obtain ⟨d', -, -, -, -, hclose | ⟨cause, hraise⟩⟩ := d.token_cases m i
  · rw [hclose]
    exact d'.close_st
  · exact .inr (by rw [hraise, Dec.raise_st])

theorem Dec.token_operands (d : Dec xlen addrW) (m : Memory) (i : Instr) :
    (d.token m i).1.data = d.data ∧ (d.token m i).1.len = d.len ∧ (d.token m i).1.out = d.out
      ∧ (d.token m i).1.maxLen = d.maxLen := by
  obtain ⟨d', -, ⟨_, _, _, _, rfl⟩, -, -, hclose | ⟨cause, hraise⟩⟩ := d.token_cases m i
  · simp only [hclose, Dec.close_data, Dec.close_len, Dec.close_out, Dec.close_maxLen, and_self]
  · simp only [hraise, Dec.raise_data, Dec.raise_len, Dec.raise_out, Dec.raise_maxLen, and_self]

theorem Dec.token_report (h : (d.token m i).1.st ≠ .done) :
    (d.token m i).1.result = d.result ∧ (d.token m i).1.err = d.err := by
  obtain ⟨d', -, ⟨_, _, _, _, rfl⟩, -, -, hclose | ⟨cause, hraise⟩⟩ := d.token_cases m i
  · rw [hclose] at h ⊢
    exact Dec.close_report h
  · rw [hraise] at h
    exact absurd rfl h

theorem Dec.memRead_token_other {a : Addr addrW}
    (h : ∀ k, k < (tokenCount i).toNat → a ≠ elementAddr d.out (d.wr + BitVec.ofNat xlen k).toNat) :
    memRead (d.token m i).2 a = memRead m a := by
  obtain ⟨-, j, -, hj, hmem, -⟩ := d.token_cases m i
  rw [hmem]
  exact memRead_writeCopies_other fun k hk => h k (by omega)

/-- R98: the scheduled token on a marker that is the last byte of the stream is the failing transition. -/
theorem moveToken_of_truncated (hs : s.dec.st = .fetch) (ht : isMarker (s.dec.cell s.mem s.dec.rd.toNat) = true)
    (hend : s.dec.rd + 1#xlen = s.dec.len) :
    moveToken s = .next ⟨s.commitDec ({ s.dec with
      rd := s.dec.rd + 1#xlen, cnt := lowSeven (s.dec.cell s.mem s.dec.rd.toNat) }.raise .truncatedStream) s.mem⟩ := by
  have hwindow : decode (s.dec.window s.mem) = .error .truncated := by
    rw [Dec.window, if_pos hend]
    exact decode_truncated ht
  have hmove : decMove s = s.commitDec _ _ := decMove_busy (by simp [Dec.busy, hs])
  rw [moveToken, if_pos hs, hwindow, hmove, Dec.transition_fetch hs, decFetch, if_pos ht, if_pos hend]

/-! ### A token as its transitions -/

theorem Chip.commitDec_commitDec {d₁ : Dec xlen addrW} (h : d₁.done = false) (m₁ : Memory) (d : Dec xlen addrW)
    (m : Memory) : (s.commitDec d₁ m₁).commitDec d m = s.commitDec d m := by
  simp [Chip.commitDec, h]

theorem Dec.done_eq_false_of_busy (h : d.busy = true) : d.done = false := by
  rw [Dec.busy, Bool.and_eq_true, decide_eq_true_eq, decide_eq_true_eq] at h
  exact decide_eq_false h.2

theorem decMove_iterate_of_not_busy (h : s.dec.busy = false) (n : Nat) : decMove^[n] s = s :=
  Function.iterate_fixed (by simp [decMove, h]) n

/-- Transitions of DEC taken one by one in the machine are committed as one, since only the last can end the operation. -/
theorem decMove_iterate (h : s.dec.busy = true) (n : Nat) :
    decMove^[n] s = s.commitDec (Dec.run n s.dec s.mem).1 (Dec.run n s.dec s.mem).2 := by
  induction n generalizing s with
  | zero =>
    simp only [Function.iterate_zero, id, Dec.run, Chip.commitDec, Dec.done_eq_false_of_busy h]
    rfl
  | succ n ih =>
    rw [Function.iterate_succ_apply, Dec.run]
    cases hb : (decMove s).dec.busy
    · rw [decMove_iterate_of_not_busy hb, decMove_busy h, Dec.run_of_not_busy (by rwa [decMove_dec] at hb)]
    · rw [ih hb, decMove_busy h]
      refine Chip.commitDec_commitDec (Dec.done_eq_false_of_busy ?_) _ _ _
      rwa [decMove_dec] at hb

/-- R135, R136, "In the machine". -/
theorem Dec.token_eq_run {more : List Byte} (hs : d.st = .fetch) (h : decode (d.window m) = .ok (i, more)) :
    d.token m i = Dec.run (tokenSteps i) d m := by
  obtain ⟨ht, rfl⟩ | ⟨ht, hend, rfl⟩ := Dec.decode_window h
  · exact Dec.litToken_eq_run hs ht
  · exact Dec.runToken_eq_run hs ht hend rfl rfl

end Sys2Proof.Machine

namespace Sys2Proof.Proofs

open Sys2Proof.Machine

/-- Settles O42: both are DEC's run of that many transitions, committed once. -/
theorem tokenEqualsItsTransitions : Obligations.TokenEqualsItsTransitions := by
  intro _ _ i s more hs hdecode
  rw [exec_of_fetch i hs, Dec.token_eq_run hs hdecode, decMove_iterate (by simp [Dec.busy, hs])]

/-- Settles O37: where the copies fit, the token is closed behind them. -/
theorem runTokenWritesItsCopies : Obligations.RunTokenWritesItsCopies := by
  intro xlen _ c v s hs hmore hwf _ hfit
  have hroom : c.toNat ≤ s.dec.room := by
    rw [Dec.room]
    omega
  have hcount : BitVec.ofNat xlen c.toNat = c.setWidth xlen := BitVec.ofNat_toNat xlen c
  rw [exec_of_fetch _ hs, Dec.token_of_fits (i := .run c v) hmore hroom]
  refine ⟨_, rfl, ?_⟩
  simp only [Chip.commitDec_dec, Chip.commitDec_mem, Dec.close_rd, Dec.close_wr, Dec.close_cnt, Dec.close_val, ← hcount,
    true_and]
  refine ⟨rfl, rfl, rfl, fun k hk => memRead_writeCopies hwf hk, fun hzero => ?_, fun hend => ?_, fun hend => ?_⟩
  · simp only [tokenCount, hzero, writeCopies]
  · rw [Dec.close_of_eq hend]
    exact ⟨rfl, rfl, rfl⟩
  · rw [Dec.close_of_ne hend]
    exact ⟨rfl, rfl, rfl⟩

/-- Settles O38: the copies that fit are as many as there is room for. -/
theorem runTokenOverflowsAtCapacity : Obligations.RunTokenOverflowsAtCapacity := by
  intro _ _ c v s hs hmore hwf _ _ hover
  have hroom : s.dec.room < c.toNat := by
    rw [Dec.room]
    omega
  rw [exec_of_fetch _ hs, Dec.token_of_overflows (i := .run c v) hmore hroom]
  exact ⟨_, rfl, rfl, rfl, rfl, rfl, fun k hk => memRead_writeCopies hwf hk, fun a ha => memRead_writeCopies_other ha⟩

/-- Settles O40: a token writes no more than its copies, and either closes or fails. -/
theorem tokensChangeNothingElse : Obligations.TokensChangeNothingElse := by
  intro _ _ i s u hexec
  have hs : s.dec.st = .fetch := by
    by_contra hs
    rw [exec_of_not_fetch i hs] at hexec
    cases hexec
  rw [exec_of_fetch i hs] at hexec
  cases hexec
  obtain ⟨hdata, hlen, hout, hmax⟩ := s.dec.token_operands s.mem i
  refine ⟨_, rfl, rfl, rfl, rfl, rfl, rfl, rfl, hdata, hlen, hout, hmax, fun hst => ?_, ?_, ?_⟩
  · obtain ⟨hresult, herr⟩ := Dec.token_report hst
    exact ⟨hresult, herr, if_neg (by simpa [Dec.done] using hst)⟩
  · rintro v rfl a ha
    refine Dec.memRead_token_other fun k hk => ?_
    obtain rfl : k = 0 := Nat.lt_one_iff.mp hk
    rwa [BitVec.add_zero]
  · rintro n v rfl a ha
    exact Dec.memRead_token_other ha

/-- Settles O35: a literal is a token of one copy, which fits. -/
theorem litTokenCopiesItsByte : Obligations.LitTokenCopiesItsByte := by
  intro _ _ v s hs hlt
  have hroom : 1 ≤ s.dec.room := by
    rw [Dec.room]
    omega
  rw [exec_of_fetch _ hs, Dec.token_of_fits (i := .lit v) trivial hroom]
  refine ⟨_, rfl, ?_⟩
  simp only [Chip.commitDec_dec, Chip.commitDec_mem, Dec.close_rd, Dec.close_wr, Dec.close_cnt, Dec.close_val,
    true_and]
  refine ⟨?_, rfl, rfl, rfl, fun hend => ?_, fun hend => ?_⟩
  · change memWrite s.mem (elementAddr s.dec.out (s.dec.wr + 0#_).toNat) _ = _
    rw [BitVec.add_zero]
    rfl
  · rw [Dec.close_of_eq hend]
    exact ⟨rfl, rfl, rfl⟩
  · rw [Dec.close_of_ne hend]
    exact ⟨rfl, rfl, rfl⟩

/-- Settles O36: there is room for no copy. -/
theorem litTokenOverflows : Obligations.LitTokenOverflows := by
  intro _ _ v s hs hfull
  have hroom : s.dec.room = 0 := s.dec.full_iff_room.mp (s.dec.full_iff.mpr hfull)
  rw [exec_of_fetch _ hs, Dec.token_of_overflows (i := .lit v) trivial (by rw [hroom]; exact Nat.one_pos)]
  simp only [hroom, Dec.advance_zero, writeCopies]
  exact ⟨_, rfl, rfl, rfl, rfl, rfl, rfl⟩

/-- Settles O39: the token, and the transition that the scheduled token is, raise the same failure. -/
theorem runTokenTruncated : Obligations.RunTokenTruncated := by
  refine ⟨fun _ _ c v s hs hend => ?_, fun _ _ s rest hsched hs hend ht => ?_⟩
  · rw [exec_of_fetch _ hs, Dec.token_of_truncated hend]
    exact ⟨_, rfl, rfl, rfl, rfl, rfl, rfl⟩
  · rw [step_of_schedule hsched]
    exact ⟨_, moveToken_of_truncated (s := { s with schedule := rest }) hs ((isMarker_iff _).mpr ht) hend,
      rfl, rfl, rfl, rfl, rfl, rfl, rfl⟩

/-- Settles O41: a token is closed or fails. -/
theorem tokensCompleteFromFetch : Obligations.TokensCompleteFromFetch :=
  fun _ _ i s => ⟨fun hs => ⟨_, exec_of_fetch i hs, s.dec.token_st s.mem i⟩, exec_of_not_fetch i⟩

end Sys2Proof.Proofs
end

section
/-!
PROOFS. The whole operation (R101, R103): token by token DEC writes what the decoding gives, in at most two transitions a
stream byte and one a written byte.
-/

namespace Sys2Proof.Machine

variable {xlen addrW : Nat} {d : Dec xlen addrW} {m : Memory} {i : Instr} {bs ws out : List Byte} {k n : Nat}

/-! ### Cursors and copies in an operation (R21) -/

/-- R21: the cursor is a count of bytes that are in `output`. -/
theorem Dec.CursorOk.wr_le (hcur : d.CursorOk) : d.wr.toNat ≤ clipSize d.maxLen := by
  obtain ⟨hnn, hle⟩ := hcur
  have hwr := (toInt_of_nonneg hnn).1
  rw [clipSize]
  omega

theorem Dec.CursorOk.advance (hcur : d.CursorOk) (h : k ≤ d.room) : (d.advance k).CursorOk := by
  obtain ⟨hnn, hle⟩ := hcur
  have hwr := Dec.toInt_advance h
  have hmax : (d.advance k).maxLen = d.maxLen := rfl
  rw [Dec.room] at h
  rw [Dec.CursorOk, hwr, hmax]
  omega

theorem Dec.CursorOk.toNat_advance (hcur : d.CursorOk) (h : k ≤ d.room) :
    (d.advance k).wr.toNat = d.wr.toNat + k := by
  have hwr := (toInt_of_nonneg hcur.1).1
  have hadv := (toInt_of_nonneg (hcur.advance h).1).1
  have := Dec.toInt_advance h
  omega

/-- From a cursor that does not wrap, the copies are consecutive elements of `output`. -/
theorem Dec.CursorOk.writeCopies_eq (hcur : d.CursorOk) (v : Byte) (h : k ≤ d.room) :
    writeCopies m d.out d.wr v k = writeBytes m d.out d.wr.toNat (List.replicate k v) := by
  induction k with
  | zero => rfl
  | succ k ih =>
    have haddr : (d.wr + BitVec.ofNat xlen k).toNat = d.wr.toNat + k := hcur.toNat_advance (by omega)
    rw [writeCopies, ih (by omega), haddr, List.replicate_succ', writeBytes_append, List.length_replicate]
    rfl

theorem Dec.Launched.out_fits (hL : d.Launched) : d.out.toNat + clipSize d.maxLen ≤ addrSpace addrW := by
  obtain ⟨-, -, -, -, hspace, -⟩ := hL
  exact hspace

/-- R42: bytes written inside `output` leave the stream as it is. -/
theorem Dec.Launched.bytesAt_writeBytes (hL : d.Launched) (h : n + ws.length ≤ clipSize d.maxLen) :
    bytesAt (writeBytes m d.out n ws) d.data d.len.toNat = bytesAt m d.data d.len.toNat := by
  refine bytesAt_congr fun i hi => memRead_writeBytes_other fun j _ hj => ?_
  have hout := hL.contains_output (i := j) (by omega)
  have hdata := Region.not_contains_of_meets_false hL.buffers_apart (hL.contains_stream hi)
  exact (ne_of_contains hout hdata).symm

/-! ### The stream still to come -/

/-- The bytes of the stream that DEC has yet to read. -/
def Dec.rest (d : Dec xlen addrW) (m : Memory) : List Byte := (bytesAt m d.data d.len.toNat).drop d.rd.toNat

theorem Dec.rest_eq_nil_iff (hle : d.rd.toNat ≤ d.len.toNat) : d.rest m = [] ↔ d.rd = d.len := by
  rw [Dec.rest, List.drop_eq_nil_iff, bytesAt_length, ← BitVec.toNat_inj]
  omega

theorem Dec.rest_eq_cons {b : Byte} (h : d.rest m = b :: bs) :
    d.rd.toNat < d.len.toNat ∧ d.cell m d.rd.toNat = b ∧ { d with rd := d.rd + 1#xlen }.rest m = bs := by
  have hlt : d.rd.toNat < d.len.toNat := by
    by_contra hge
    rw [Dec.rest, List.drop_eq_nil_iff.mpr (by rw [bytesAt_length]; omega)] at h
    cases h
  rw [Dec.rest, List.drop_eq_getElem_cons (by rwa [bytesAt_length]), List.cons.injEq] at h
  obtain ⟨hb, hbs⟩ := h
  refine ⟨hlt, by simpa [bytesAt, Dec.cell] using hb, ?_⟩
  rw [Dec.rest, ← hbs, ← toNat_succ hlt]

/-! ### One token -/

theorem Dec.run_add (j k : Nat) (d : Dec xlen addrW) (m : Memory) :
    Dec.run (j + k) d m = Dec.run k (Dec.run j d m).1 (Dec.run j d m).2 := by
  induction j generalizing d m with
  | zero => rw [Nat.zero_add, Dec.run]
  | succ j ih => rw [Nat.succ_add, Dec.run, Dec.run, ih]

/-- R98, R99: DEC takes one transition a byte of the token to read it. -/
theorem Dec.run_reads_token (hs : d.st = .fetch) (h : d.rest m = encode i ++ bs) :
    Dec.run (encode i).length d m = ({ d.taken i with st := .expand }, m)
      ∧ (d.taken i).rd.toNat ≤ d.len.toNat ∧ (d.taken i).rest m = bs := by
  cases i with
  | lit v =>
    obtain ⟨hlt, hcell, hrest⟩ := Dec.rest_eq_cons h
    refine ⟨?_, (toNat_succ hlt).trans_le hlt, hrest⟩
    rw [encode, List.length_singleton, Dec.run_succ (Dec.transition_fetch hs), hcell, decFetch, isMarker_literalByte,
      if_neg Bool.false_ne_true]
    rfl
  | run c v =>
    obtain ⟨hlt, hcell, hrest⟩ := Dec.rest_eq_cons h
    obtain ⟨hlt', hcell', hrest'⟩ := Dec.rest_eq_cons hrest
    have hmore : d.rd + 1#xlen ≠ d.len := fun heq => hlt'.ne (congrArg BitVec.toNat heq)
    have htaken : d.taken (.run c v) = { d with rd := d.rd + 1#xlen + 1#xlen, cnt := c, val := v } := by
      rw [BitVec.add_assoc, ← BitVec.ofNat_add]
      rfl
    rw [htaken]
    refine ⟨?_, (toNat_succ hlt').trans_le hlt', hrest'⟩
    rw [encode, List.length_cons, List.length_singleton, Dec.run_succ (Dec.transition_fetch hs) 1, hcell, decFetch,
      isMarker_markerByte, if_pos rfl, if_neg hmore, Dec.run_succ (Dec.transition_value rfl), decValue,
      lowSeven_markerByte, ← hcell']
    rfl

/-- R100: `D_EXPAND` takes one transition for each copy that fits, and one to close the token or to raise the overflow. -/
theorem Dec.run_expands (hs : d.st = .expand) (hn : d.cnt.toNat = n) :
    Dec.run (min n d.room + 1) d m = Dec.copies d.val n d m := by
  induction n generalizing d m with
  | zero => rw [Nat.zero_min, Dec.copies_eq_run d.val 0 d m hs rfl hn]
  | succ n ih =>
    have hc : d.cnt ≠ 0#7 := by rw [Ne, count_eq_zero_iff]; omega
    cases hf : d.full
    · have hroom : d.room ≠ 0 := by rw [Ne, ← Dec.full_iff_room, hf]; exact Bool.false_ne_true
      have hleft : (d.advance 1).room = d.room - 1 := Dec.room_advance (by omega)
      have hmin : min (n + 1) d.room = min n (d.advance 1).room + 1 := by omega
      rw [hmin, Dec.run_succ (Dec.transition_expand_write hs hc hf), Dec.copies, hf, if_neg Bool.false_ne_true]
      have hcnt : (d.cnt - 1#7).toNat = n := by bv_omega
      exact (ih (d := { d with wr := d.wr + 1#xlen, cnt := d.cnt - 1#7 }) hs hcnt).trans
        (Dec.copies_st_cnt d.val d.st (d.cnt - 1#7) n { d with wr := d.wr + 1#xlen } _)
    · rw [(Dec.full_iff_room d).mp hf, Nat.min_zero, Dec.run_succ (Dec.transition_expand_full hs hc hf), Dec.copies, hf,
        if_pos rfl, ← hn, BitVec.ofNat_toNat, BitVec.setWidth_eq]
      rfl

/-- R98 to R100: a token is read, and its copies are written as far as they fit. -/
theorem Dec.run_token (h : d.rest m = encode i ++ bs) :
    Dec.run ((encode i).length + (min (tokenCount i).toNat d.room + 1)) { d with st := .fetch } m
      = Dec.copies (tokenByte i) (tokenCount i).toNat (d.taken i) m := by
  rw [Dec.run_add, (Dec.run_reads_token (d := { d with st := .fetch }) rfl h).1]
  exact (Dec.run_expands rfl rfl).trans (Dec.copies_st_cnt _ .expand (tokenCount i) _ (d.taken i) m)

/-- R58: the copies are the bytes that the token stands for. -/
theorem expandToken_eq_replicate (i : Instr) : expandToken i = List.replicate (tokenCount i).toNat (tokenByte i) := by
  cases i with
  | lit v => rfl
  | run c v => rfl

theorem length_expandToken (i : Instr) : (expandToken i).length = (tokenCount i).toNat := by
  rw [expandToken_eq_replicate, List.length_replicate]

/-- R103: a token has at least one byte, and stands for at most 127 a byte. -/
theorem encode_length_bounds (i : Instr) : 1 ≤ (encode i).length ∧ (tokenCount i).toNat ≤ 127 * (encode i).length := by
  have hcap := (tokenCount i).isLt
  have hpos : 1 ≤ (encode i).length := by
    cases i with
    | lit v => exact le_rfl
    | run c v => exact Nat.le_succ 1
  exact ⟨hpos, by omega⟩

/-! ### The tokens still to come -/

/-- DEC stands before the token at `rd` or at the end of the stream, with `bs` still to come and `out` written. -/
structure Dec.Awaits (d : Dec xlen addrW) (m : Memory) (bs out : List Byte) : Prop where
  launched : d.Launched
  cursor : d.CursorOk
  rd_le : d.rd.toNat ≤ d.len.toNat
  rest_eq : d.rest m = bs
  length_out : out.length = d.wr.toNat

/-- Where DEC closes a token with `bs` still to come and `out` written, the operation ends in `d'` after `k` transitions,
which write `ws`. -/
structure Dec.Decodes (d : Dec xlen addrW) (m : Memory) (bs out ws : List Byte) (k : Nat) (d' : Dec xlen addrW) : Prop where
  run_eq : Dec.run k d.close m = (d', writeBytes m d.out d.wr.toNat ws)
  done : d'.st = .done
  wr_eq : d'.wr.toNat = d.wr.toNat + ws.length
  fits : d'.wr.toNat ≤ clipSize d.maxLen
  steps : k ≤ 2 * bs.length + ws.length
  growth : ws.length ≤ 127 * bs.length
  report : (decGo d.maxLen.toInt bs out = .ok (out ++ ws) ∧ d'.result = d'.wr ∧ d'.err = .none)
    ∨ (decGo d.maxLen.toInt bs out = .fail d'.err ∧ d'.result = -1#xlen)

/-- R94: the room left is what `dec` compares a token with. -/
theorem Dec.Awaits.room_eq (h : d.Awaits m bs out) : (d.maxLen.toInt - out.length).toNat = d.room := by
  rw [Dec.room, h.length_out, (toInt_of_nonneg h.cursor.1).1]

/-- At the end of the stream the token closed last ends the operation. -/
theorem Dec.Awaits.decodes_nil (h : d.Awaits m [] out) : d.Decodes m [] out [] 0 (d.finish d.wr) := by
  have hend : d.rd = d.len := (Dec.rest_eq_nil_iff h.rd_le).mp h.rest_eq
  exact ⟨by rw [Dec.close_of_eq hend]; rfl, rfl, rfl, h.cursor.wr_le, le_rfl, le_rfl,
    .inl ⟨by rw [decGo_nil, List.append_nil], rfl, rfl⟩⟩

/-- Before it, DEC goes on to the next token. -/
theorem Dec.Awaits.close_eq (h : d.Awaits m bs out) (hbs : bs ≠ []) : d.close = { d with st := .fetch } :=
  Dec.close_of_ne fun hend => hbs (h.rest_eq.symm.trans ((Dec.rest_eq_nil_iff h.rd_le).mpr hend))

/-- R93: a lone marker ends the operation. -/
theorem Dec.Awaits.decodes_truncated {t : Byte} (ht : isMarker t = true) (h : d.Awaits m [t] out) :
    d.Decodes m [t] out [] 1 ({ d with rd := d.rd + 1#xlen, cnt := lowSeven t }.raise .truncatedStream) := by
  obtain ⟨hlt, hcell, hrest⟩ := Dec.rest_eq_cons h.rest_eq
  have hend : d.rd + 1#xlen = d.len := (Dec.rest_eq_nil_iff ((toNat_succ hlt).trans_le hlt)).mp hrest
  have hfetch : ({ d with st := .fetch } : Dec xlen addrW).cell m d.rd.toNat = t := hcell
  refine ⟨?_, rfl, rfl, h.cursor.wr_le, by simp, by simp, .inr ⟨decGo_truncated ht out, rfl⟩⟩
  rw [h.close_eq (List.cons_ne_nil t []), Dec.run_succ (Dec.transition_fetch rfl) 0, hfetch, decFetch, if_pos ht,
    if_pos hend]
  rfl

/-- R98 to R100, between two tokens. -/
theorem Dec.Awaits.run_token (h : d.Awaits m (encode i ++ bs) out) :
    Dec.run ((encode i).length + (min (tokenCount i).toNat d.room + 1)) d.close m
      = Dec.copies (tokenByte i) (tokenCount i).toNat (d.taken i) m := by
  have hpos := (encode_length_bounds i).1
  have hne : encode i ++ bs ≠ [] := List.append_ne_nil_of_left_ne_nil (List.length_pos_iff.mp hpos) bs
  rw [h.close_eq hne, Dec.run_token h.rest_eq]

/-- R94: a token that does not fit is written as far as it does, and ends the operation. -/
theorem Dec.Awaits.decodes_overflow (h : d.Awaits m (encode i ++ bs) out) (hover : d.room < (tokenCount i).toNat) :
    ∃ ws k d', d.Decodes m (encode i ++ bs) out ws k d' := by
  obtain ⟨hpos, hcap⟩ := encode_length_bounds i
  have hrun := h.run_token.trans (Dec.copies_of_room_lt hover)
  have hwrite := h.cursor.writeCopies_eq (m := m) (tokenByte i) (k := d.room) le_rfl
  have hwr := h.cursor.toNat_advance (k := d.room) le_rfl
  refine ⟨List.replicate d.room (tokenByte i), _, _, hrun.trans (congrArg _ hwrite), rfl, ?_,
    (h.cursor.advance le_rfl).wr_le, ?_, ?_, .inr ⟨?_, rfl⟩⟩
  · rw [List.length_replicate]
    exact hwr
  · rw [List.length_replicate, List.length_append]
    omega
  · rw [List.length_replicate, List.length_append]
    omega
  · exact decGo_token_of_overflows bs (by rwa [h.room_eq, length_expandToken])

/-- DEC's registers behind a token whose copies fit, before it is closed. -/
def Dec.behind (i : Instr) (d : Dec xlen addrW) : Dec xlen addrW :=
  { (d.taken i).advance (tokenCount i).toNat with cnt := 0#7 }

section
variable (h : d.Awaits m (encode i ++ bs) out) (hfit : (tokenCount i).toNat ≤ d.room)
include h hfit

theorem Dec.Awaits.toNat_behind_wr : (d.behind i).wr.toNat = d.wr.toNat + (expandToken i).length := by
  rw [length_expandToken]
  exact h.cursor.toNat_advance hfit

/-- R90: a token that fits is written whole. -/
theorem Dec.Awaits.run_behind :
    Dec.run ((encode i).length + (min (tokenCount i).toNat d.room + 1)) d.close m
      = ((d.behind i).close, writeBytes m d.out d.wr.toNat (expandToken i)) := by
  rw [h.run_token, expandToken_eq_replicate, ← h.cursor.writeCopies_eq (tokenByte i) hfit]
  exact Dec.copies_of_le_room hfit

/-- R42, R90: behind it DEC stands before the next token. -/
theorem Dec.Awaits.behind_awaits :
    (d.behind i).Awaits (writeBytes m d.out d.wr.toNat (expandToken i)) bs (out ++ expandToken i) := by
  obtain ⟨-, hrd, hrest⟩ := Dec.run_reads_token (d := { d with st := .fetch }) rfl h.rest_eq
  have hcur : (d.behind i).CursorOk := h.cursor.advance hfit
  have hwr := h.toNat_behind_wr hfit
  have hin : d.wr.toNat + (expandToken i).length ≤ clipSize d.maxLen := hwr ▸ hcur.wr_le
  refine ⟨h.launched, hcur, hrd, ?_, by rw [hwr, List.length_append, h.length_out]⟩
  rw [← hrest]
  exact congrArg (List.drop _) (h.launched.bytesAt_writeBytes hin)

/-- What decodes from there decodes from here, after the token's bytes. -/
theorem Dec.Awaits.decodes_of_behind {d' : Dec xlen addrW}
    (hlater : (d.behind i).Decodes (writeBytes m d.out d.wr.toNat (expandToken i)) bs (out ++ expandToken i) ws k d') :
    ∃ k', d.Decodes m (encode i ++ bs) out (expandToken i ++ ws) k' d' := by
  obtain ⟨hrun, hdone, hend, hfits, hsteps, hgrowth, hreport⟩ := hlater
  obtain ⟨hpos, hcap⟩ := encode_length_bounds i
  have hwr := h.toNat_behind_wr hfit
  have hlen := length_expandToken i
  refine ⟨(encode i).length + (min (tokenCount i).toNat d.room + 1) + k, ?_, hdone, ?_, hfits, ?_, ?_, ?_⟩
  · rw [Dec.run_add, h.run_behind hfit, hrun, hwr, writeBytes_append]
    rfl
  · rw [hend, hwr, List.length_append, Nat.add_assoc]
  · rw [List.length_append, List.length_append]
    omega
  · rw [List.length_append, List.length_append]
    omega
  · rw [decGo_token_of_fits bs (by rwa [h.room_eq, hlen]), ← List.append_assoc]
    exact hreport

end

/-- R101, R103: the operation decodes the stream still to come, by induction on its tokens. -/
theorem Dec.Awaits.decodes (h : d.Awaits m bs out) : ∃ ws k d', d.Decodes m bs out ws k d' := by
  induction bs using stream_induction generalizing d m out with
  | nil => exact ⟨_, _, _, h.decodes_nil⟩
  | truncated t ht => exact ⟨_, _, _, h.decodes_truncated ht⟩
  | token i bs ih =>
    obtain hfit | hover := le_or_gt (tokenCount i).toNat d.room
    · obtain ⟨ws, k, d', hend⟩ := ih (h.behind_awaits hfit)
      obtain ⟨k', hk'⟩ := h.decodes_of_behind hfit hend
      exact ⟨_, k', d', hk'⟩
    · exact h.decodes_overflow hover

/-! ### From the check state on -/

/-- R97: operands that fail are reported at once. -/
theorem decCheck_of_failing (h : d.data = 0#addrW ∨ d.out = 0#addrW ∨ d.len.toInt ≤ 0) : (decCheck d).st = .done := by
  unfold decCheck
  split
  · rfl
  next hnull =>
    obtain ⟨hdata, hout⟩ := not_or.mp hnull
    rw [if_pos ((sle_zero_iff d.len).mpr ((h.resolve_left hdata).resolve_left hout))]
    rfl

/-- DEC before the first token (R97). -/
def Dec.started (d : Dec xlen addrW) : Dec xlen addrW := { d with rd := 0#xlen, wr := 0#xlen }

theorem Dec.Launched.started_awaits (hL : d.Launched) : d.started.Awaits m (bytesAt m d.data d.len.toNat) [] := by
  refine ⟨hL, ?_, ?_, ?_, ?_⟩
  · simp [Dec.CursorOk, Dec.started]
  · simp [Dec.started]
  · simp [Dec.rest, Dec.started]
  · simp [Dec.started]

/-- R97: the check state leads there. -/
theorem Dec.transition_check_of_launched (hs : d.st = .check) (hL : d.Launched) :
    d.transition m = (d.started.close, m) := by
  have hlen := hL.len_pos
  obtain ⟨hdata, hout, -⟩ := hL
  have hmore : d.started.rd ≠ d.started.len := fun heq =>
    (toNat_pos_of_toInt_pos hlen).ne (BitVec.toNat_zero.symm.trans (congrArg BitVec.toNat heq))
  rw [Dec.transition_check hs, decCheck, if_neg (not_or.mpr ⟨hdata, hout⟩),
    if_neg (by rw [sle_zero_iff]; exact not_le.mpr hlen), Dec.close_of_ne hmore]
  rfl

/-- R101, R103: a launched operation decodes its stream into `ws`, in at most `1 + 2 * LEN + P` transitions. -/
theorem Dec.Launched.decodes (hs : d.st = .check) (hL : d.Launched) :
    ∃ ws k d', Dec.run k d m = (d', writeBytes m d.out 0 ws) ∧ d'.st = .done ∧ d'.wr.toNat = ws.length
      ∧ ws.length ≤ clipSize d.maxLen ∧ ws.length ≤ 127 * d.len.toNat ∧ k ≤ 1 + 2 * d.len.toNat + ws.length
      ∧ ((rleDec (bytesAt m d.data d.len.toNat) d.maxLen.toInt = .ok ws ∧ d'.result = d'.wr ∧ d'.err = .none)
        ∨ (rleDec (bytesAt m d.data d.len.toNat) d.maxLen.toInt = .fail d'.err ∧ d'.result = -1#xlen)) := by
  obtain ⟨ws, k, d', hrun, hdone, hwr, hfits, hsteps, hgrowth, hreport⟩ := (hL.started_awaits (m := m)).decodes
  have hzero : d.started.wr.toNat = 0 := BitVec.toNat_zero
  rw [hzero] at hrun hwr
  rw [Nat.zero_add] at hwr
  rw [bytesAt_length] at hsteps hgrowth
  refine ⟨ws, k + 1, d', ?_, hdone, hwr, hwr ▸ hfits, hgrowth, by omega, hreport⟩
  rw [Dec.run_succ (Dec.transition_check_of_launched hs hL), hrun]
  rfl

/-- An operation that has ended keeps still. -/
theorem Dec.run_of_le {d' : Dec xlen addrW} {m' : Memory} (h : Dec.run k d m = (d', m')) (hd : d'.st = .done)
    (hn : k ≤ n) : Dec.run n d m = (d', m') := by
  rw [← Nat.add_sub_of_le hn, Dec.run_add, h, Dec.run_of_not_busy (by simp [Dec.busy, hd])]

/-- A count of bytes in `output` is itself as a signed number. -/
theorem toInt_of_le_clipSize {w v : Word xlen} (h : w.toNat ≤ clipSize v) : w.toInt = w.toNat := by
  rw [clipSize] at h
  by_cases hv : 0 < v.toInt
  · obtain ⟨hval, hhalf⟩ := toInt_of_pos hv
    exact BitVec.toInt_eq_toNat_of_lt (by omega)
  · have hzero : w.toNat = 0 := by omega
    rw [BitVec.toInt_eq_toNat_cond, hzero]
    simp

end Sys2Proof.Machine

namespace Sys2Proof.Proofs

open Sys2Proof.Machine

/-- Settles O44: DEC has written what it decodes and reports its length, or has written into `output` and reports the
cause. -/
theorem decompressComputesDecoding : Obligations.DecompressComputesDecoding := by
  intro _ addrW d m n _ hs hL hwf
  obtain ⟨ws, k, d', hrun, hdone, hwr, hfits, -, hsteps, hreport⟩ := hL.decodes (m := m) hs
  have hspace := hL.out_fits
  have hframe : ∀ {a : Addr addrW} {l : Nat}, ws.length ≤ l → (∀ i, i < l → a ≠ elementAddr d.out i) →
      memRead (writeBytes m d.out 0 ws) a = memRead m a := fun hl ha =>
    memRead_writeBytes_other fun j _ hj => ha j (by omega)
  obtain ⟨hdec, hresult, herr⟩ | ⟨hdec, hresult⟩ := hreport
  · refine ⟨fun out hout hn => ?_, fun c hc => nomatch hdec.symm.trans hc⟩
    obtain rfl : ws = out := DecResult.ok.inj (hdec.symm.trans hout)
    rw [Dec.run_of_le hrun hdone (by omega)]
    refine ⟨hdone, ?_, herr, bytesAt_writeBytes hwf (by omega), fun a ha => hframe le_rfl ha⟩
    rw [hresult, toInt_of_le_clipSize (hwr.trans_le hfits), hwr]
  · refine ⟨fun out hout => (nomatch hdec.symm.trans hout), fun c hc hn => ?_⟩
    obtain rfl : d'.err = c := DecResult.fail.inj (hdec.symm.trans hc)
    rw [Dec.run_of_le hrun hdone (by omega)]
    exact ⟨hdone, hresult, rfl, fun a ha => hframe hfits ha⟩

/-- Settles O45: the same run, with its transitions counted. -/
theorem decompressEndsWithinItsBound : Obligations.DecompressEndsWithinItsBound := by
  refine ⟨fun _ _ d m hs hL _ => ?_, fun _ _ d m hs hfail => ?_⟩
  · obtain ⟨ws, k, d', hrun, hdone, hwr, hfits, hgrowth, hsteps, -⟩ := hL.decodes (m := m) hs
    refine ⟨k, ?_⟩
    rw [hrun, hwr]
    exact ⟨hdone, by omega, hfits, hgrowth⟩
  · rw [Dec.run, Dec.run, Dec.transition_check hs]
    exact decCheck_of_failing hfail

end Sys2Proof.Proofs
end

section
/-!
PROOFS. How a transition ends an operation (R107, R112, R113): in success, or in a raise that leaves memory and the cursors
as they were.
-/

namespace Sys2Proof.Machine

variable {xlen addrW : Nat} {e : Enc xlen addrW} {d : Dec xlen addrW} {m : Memory} {b : Byte}

/-! ### ENC -/

theorem encCheck_of_done (h : (encCheck e).st = .done) :
    encCheck e = e.raise .invalidArgument ∨ encCheck e = e.raise .invalidLength := by
  unfold encCheck at h ⊢
  split
  · exact .inl rfl
  next hbuf =>
    split
    · exact .inr rfl
    next hlen =>
      rw [if_neg hbuf, if_neg hlen] at h
      cases h

theorem encValidate_of_done (hs : e.st = .validate) (h : (encValidate e b).st = .done) :
    encValidate e b = e.raise .invalidPayload := by
  unfold encValidate at h ⊢
  split
  · rfl
  next hb =>
    rw [if_neg hb] at h
    split at h
    · cases h
    · cases hs.symm.trans h

theorem encScan_st_ne_done (hs : e.st = .scan) : (encScan e b).st ≠ .done := by
  unfold encScan
  split
  · exact nofun
  · split
    · exact fun h => nomatch hs.symm.trans h
    · exact nofun

/-- R78, R79: an operation whose last group is written ends in success. -/
theorem encGroupDone_err_of_done (h : (encGroupDone e).st = .done) : (encGroupDone e).err = .none := by
  unfold encGroupDone at h ⊢
  split
  · rfl
  next hmore =>
    rw [if_neg hmore] at h
    cases h

theorem encEmit_err_of_done (h : (encEmit e).st = .done) : (encEmit e).err = .none := by
  unfold encEmit at h ⊢
  split
  next hone => exact encGroupDone_err_of_done (by rwa [if_pos hone] at h)
  next hmore =>
    rw [if_neg hmore] at h
    cases h

/-- R112, R113: ENC's last transition reports success, or is a raise and nothing else. -/
theorem Enc.transition_of_done (hb : e.busy = true) (hd : (e.transition m).1.st = .done) :
    (e.transition m).1.err = .none
      ∨ ∃ c, (c = .invalidArgument ∨ c = .invalidLength ∨ c = .invalidPayload) ∧ e.transition m = (e.raise c, m) := by
  cases hs : e.st with
  | idle => simp [Enc.busy, hs] at hb
  | check =>
    rw [Enc.transition_check hs] at hd ⊢
    obtain hraise | hraise := encCheck_of_done hd
    · exact .inr ⟨_, .inl rfl, by rw [hraise]⟩
    · exact .inr ⟨_, .inr (.inl rfl), by rw [hraise]⟩
  | validate =>
    rw [Enc.transition_validate hs] at hd ⊢
    exact .inr ⟨_, .inr (.inr rfl), by rw [encValidate_of_done hs hd]⟩
  | head => rw [Enc.transition_head hs] at hd; cases hd
  | scan => rw [Enc.transition_scan hs] at hd; exact absurd hd (encScan_st_ne_done hs)
  | emit => rw [Enc.transition_emit hs] at hd ⊢; exact .inl (encEmit_err_of_done hd)
  | emitv => rw [Enc.transition_emitv hs] at hd ⊢; exact .inl (encGroupDone_err_of_done hd)
  | done => simp [Enc.busy, hs] at hb

/-! ### DEC -/

theorem decCheck_of_done (h : (decCheck d).st = .done) :
    decCheck d = d.raise .invalidArgument ∨ decCheck d = d.raise .invalidLength := by
  unfold decCheck at h ⊢
  split
  · exact .inl rfl
  next hnull =>
    split
    · exact .inr rfl
    next hlen =>
      rw [if_neg hnull, if_neg hlen] at h
      cases h

/-- R98: the marker of a truncated stream has been taken, and nothing written. -/
theorem decFetch_of_done (h : (decFetch d b).st = .done) :
    decFetch d b = { d with rd := d.rd + 1#xlen, cnt := lowSeven b }.raise .truncatedStream := by
  unfold decFetch at h ⊢
  split
  next hmark =>
    rw [if_pos hmark] at h
    split
    · rfl
    next hmore =>
      rw [if_neg hmore] at h
      cases h
  next hlit =>
    rw [if_neg hlit] at h
    cases h

/-- R100: an operation whose last token is closed ends in success. -/
theorem Dec.close_err_of_done (h : d.close.st = .done) : d.close.err = .none := by
  by_cases hend : d.rd = d.len
  · rw [Dec.close_of_eq hend, Dec.finish_err]
  · rw [Dec.close_of_ne hend] at h
    cases h

/-- R112, R113: DEC's last transition reports success, or is a raise that writes nothing. -/
theorem Dec.transition_of_done (hb : d.busy = true) (hd : (d.transition m).1.st = .done) :
    (d.transition m).1.err = .none
      ∨ ∃ (d' : Dec xlen addrW) (c : Cause), d'.wr = d.wr ∧ c ≠ .invalidPayload ∧ d.transition m = (d'.raise c, m) := by
  cases hs : d.st with
  | idle => simp [Dec.busy, hs] at hb
  | check =>
    rw [Dec.transition_check hs] at hd ⊢
    obtain hraise | hraise := decCheck_of_done hd
    · exact .inr ⟨d, .invalidArgument, rfl, nofun, by rw [hraise]⟩
    · exact .inr ⟨d, .invalidLength, rfl, nofun, by rw [hraise]⟩
  | fetch =>
    rw [Dec.transition_fetch hs] at hd ⊢
    rw [decFetch_of_done hd]
    exact .inr ⟨_, .truncatedStream, by rfl, nofun, rfl⟩
  | value => rw [Dec.transition_value hs] at hd; cases hd
  | expand =>
    by_cases hc : d.cnt = 0#7
    · rw [Dec.transition_expand_close hs hc] at hd ⊢
      exact .inl (Dec.close_err_of_done hd)
    cases hf : d.full
    · rw [Dec.transition_expand_write hs hc hf] at hd
      cases hs.symm.trans hd
    · exact .inr ⟨d, .outputOverflow, rfl, nofun, Dec.transition_expand_full hs hc hf⟩
  | done => simp [Dec.busy, hs] at hb

end Sys2Proof.Machine

namespace Sys2Proof.Proofs

open Sys2Proof.Machine

/-- Settles O50: the failing transition is the raise of its cause, which sets the report and the state only. -/
theorem failuresWriteNoMemory : Obligations.FailuresWriteNoMemory := by
  refine ⟨fun _ _ e m hb hd herr => ?_, fun _ _ d m hb hd herr => ?_⟩
  · obtain ⟨c, hc, htrans⟩ := (Enc.transition_of_done hb hd).resolve_left herr
    rw [htrans]
    refine ⟨rfl, rfl, rfl, ?_⟩
    obtain rfl | rfl | rfl := hc
    · exact .inl ⟨.inl rfl, rfl⟩
    · exact .inl ⟨.inr rfl, rfl⟩
    · exact .inr ⟨rfl, rfl⟩
  · obtain ⟨d', c, hwr, hc, htrans⟩ := (Dec.transition_of_done hb hd).resolve_left herr
    rw [htrans]
    exact ⟨rfl, hwr, rfl, hc⟩

end Sys2Proof.Proofs
end

section
/-!
PROOFS. The reset steps (R121) and the stores of the host and of other agents (R125, R35): which cells each of them makes
unspecified or known, and what it leaves as it is.
-/

namespace Sys2Proof.Machine

variable {xlen addrW : Nat}

/-- R121, U14: the cells unspecified after a reset are those that were and, of an abandoned operation, its writable buffer. -/
theorem inRegions_abandoned (busy : Bool) (base : Addr addrW) (n : Nat) (voids : List Region) (c : Addr addrW) :
    inRegions (if busy then voidBuffer base n voids else voids) c.toNat
      = (inRegions voids c.toNat || busy && inBuffer base n c) := by
  cases busy with
  | false => simp
  | true => exact inRegions_voidBuffer base n voids c

theorem inRegions_settleCell_same (a : Nat) (voids : List Region) : inRegions (settleCell a voids) a = false := by
  simp [inRegions_settleCell]

theorem inRegions_settleCell_other {a b : Nat} (h : a ≠ b) (voids : List Region) :
    inRegions (settleCell b voids) a = inRegions voids a := by
  simp [inRegions_settleCell, h]

/-- R125: a store into a cell that no running operation owns takes place. -/
theorem moveStore_of_not_owned {s : Chip xlen addrW} {c : Addr addrW} (h : ¬ s.owned c = true) (v : Byte) :
    moveStore c v s = .next ⟨{ s with mem := memWrite s.mem c v, voids := settleCell c.toNat s.voids }⟩ :=
  if_neg h

end Sys2Proof.Machine

namespace Sys2Proof.Proofs

open Sys2Proof.Machine

/-- Settles O3: the reset state of a block is idle, and the abandoned operation's writable buffer is voided whole. -/
theorem resetMoveAbandonsTheOperation : Obligations.ResetMoveAbandonsTheOperation := by
  refine fun _ _ s => ⟨⟨_, rfl, rfl, rfl, rfl, rfl, rfl, rfl, rfl, rfl, rfl, fun c => ?_⟩,
    ⟨_, rfl, rfl, rfl, rfl, rfl, rfl, rfl, rfl, rfl, rfl, fun c => ?_⟩⟩
  · exact inRegions_abandoned s.enc.busy s.enc.buf (clipSize s.enc.len) s.voids c
  · exact inRegions_abandoned s.dec.busy s.dec.out (clipSize s.dec.maxLen) s.voids c

/-- Settles O56: a store is a race exactly on the owned cells, and elsewhere writes and settles its one cell. -/
theorem storesOfOtherAgents : Obligations.StoresOfOtherAgents := by
  refine fun _ _ s c v => ⟨fun h => if_pos ((s.owned_iff c).mpr h), fun henc hdata hout hwf => ?_⟩
  have hfree : ¬ s.owned c = true := fun h => ((s.owned_iff c).mp h).elim henc fun h => h.elim hdata hout
  refine ⟨_, moveStore_of_not_owned hfree v, ?_, fun b hb => ?_, rfl, rfl, rfl, rfl, rfl, rfl, rfl, ?_, fun a ha => ?_⟩
  · exact memRead_memWrite_same hwf c v
  · exact memRead_memWrite_other s.mem v hb.symm
  · exact inRegions_settleCell_same c.toNat s.voids
  · exact inRegions_settleCell_other ha s.voids

end Sys2Proof.Proofs
end
